-- ==== Sys2Proof/Word.lean ====
section
/-! DEFINITION. Sys2Proof/Word.lean: the bit-vector types of the engine (00_scope.md R1, R2). -/

namespace Sys2Proof

/-- An engine register, a codepoint as CP carries it, a unit address or a command word: 32 bits
(`XLEN = AW = 32`, 00_scope.md R1). -/
abbrev Word := BitVec 32

/-- One unit of space M16: a UTF-16 code unit (20_memory.md R30). -/
abbrev Unit16 := BitVec 16

/-- One unit of space M8: a UTF-8 or VISCII byte (20_memory.md R30). -/
abbrev Byte := BitVec 8

/-- The number of unit addresses in each space, 2^32 (20_memory.md R30). -/
def spaceSize : Nat := 2 ^ 32

/-- The largest codepoint, 0x10FFFF (00_scope.md §6 "codepoint"). -/
def maxCodepoint : Nat := 0x10FFFF

/-- The replacement codepoint U+FFFD (00_scope.md §6). -/
def replacement : Word := 0xFFFD#32

end Sys2Proof
end

