-- ==== Sys2Proof/Syntax.lean ====
section
/-! DEFINITION. Sys2Proof/Syntax.lean: the engine's 15 commands (30_encoding.md R47), one constructor
per row of spec/opcode_table.json. A command carries no operand: every operand is in an engine
register (30_encoding.md R52). -/

namespace Sys2Proof

/-- The commands of 30_encoding.md R47. -/
inductive Instr where
  /-- decode one UTF-16 codepoint (R66) -/
  | dec16
  /-- decode one UTF-8 codepoint (R78) -/
  | dec8
  /-- encode one codepoint as UTF-16 (R87) -/
  | enc16
  /-- the UTF-16 length of a codepoint (R88) -/
  | len16
  /-- encode one codepoint as UTF-8 (R97) -/
  | enc8
  /-- the UTF-8 length of a codepoint (R98) -/
  | len8
  /-- encode one codepoint as a VISCII byte (R108) -/
  | encvis
  /-- the VISCII length of a codepoint (R109) -/
  | lenvis
  /-- uppercase an M8 buffer in place (R122) -/
  | fold
  /-- convert UTF-16 to UTF-8, writing (R134) -/
  | cvt16to8
  /-- convert UTF-8 to UTF-16, writing (R135) -/
  | cvt8to16
  /-- convert UTF-8 to VISCII, writing (R136) -/
  | cvt8tovis
  /-- measure the UTF-8 size of a UTF-16 buffer (R137) -/
  | cvt16to8M
  /-- measure the UTF-16 size of a UTF-8 buffer (R138) -/
  | cvt8to16M
  /-- measure the VISCII size of a UTF-8 buffer (R139) -/
  | cvt8tovisM
  deriving DecidableEq, Repr

end Sys2Proof
end

