-- ==== Sys2Proof/Config.lean ====
section
/-! DEFINITION. Sys2Proof/Config.lean: the implementation parameters of 00_scope.md R1 as a type of
plain data, what makes the two tables conforming, and the free values of the spec.

A machine carries ONE value of `Params` in its state (`State.params`); no step changes it, so a
statement about every state is a statement about every value of every parameter the spec leaves OPEN
(log entry 1). -/

namespace Sys2Proof

/-- `P_UTF8_FAIL_POS` (00_scope.md R1, 41_utf8_decoder.md R74): where a failed UTF-8 decode leaves
the position. -/
inductive FailPos where
  /-- the last byte examined and accepted -/
  | consumed
  /-- the leading byte -/
  | lead
  deriving DecidableEq, Repr

/-- `P_HOST_U16_ORDER` (20_memory.md R35): how the host's own byte memory lays out a 16-bit unit.
No rule reads it. -/
inductive U16Order where
  | littleEndian
  | bigEndian
  deriving DecidableEq, Repr

/-- One row of ENC_TABLE (10_state.md R26): a codepoint, held as 32 bits, and its legacy byte. -/
structure EncRow where
  cp   : Word
  byte : Byte
  deriving DecidableEq, Repr

/-- One row of CASE_TABLE (10_state.md R27): an upper-case and a lower-case legacy byte. -/
structure CaseRow where
  upper : Byte
  lower : Byte
  deriving DecidableEq, Repr

/-- No key of the list stands in it twice. -/
def distinctKeys : List Nat → Bool
  | [] => true
  | k :: ks => ks.all (fun k' => !Nat.beq k k') && distinctKeys ks

/-- A conforming `P_ENC_TABLE`: well formed (44_viscii_encoder.md R112: exactly 134 rows, no two with
one codepoint, every codepoint at most 0x10FFFF) and holding the row the source gives, U+1EC7 to
0xAE (92_eei_decisions.md D17, 93_implementation_defined.md I1). DESIGN CHOICE, safe (log entry 21):
a row with a codepoint above 0xFFFF passes, as R112 says, where R110 takes every row for a BMP letter. -/
def encRowsConform (rows : List EncRow) : Bool :=
  rows.length == 134 &&
  distinctKeys (rows.map (fun r => r.cp.toNat)) &&
  rows.all (fun r => decide (r.cp.toNat ≤ maxCodepoint)) &&
  rows.contains ⟨0x1EC7#32, 0xAE#8⟩

/-- A conforming `P_CASE_TABLE`: well formed (45_case_folder.md R124: exactly 67 rows, no two with
one lower byte) and holding the row the source gives, upper 0x8E, lower 0xAE (92_eei_decisions.md
D17, 93_implementation_defined.md I2). -/
def caseRowsConform (rows : List CaseRow) : Bool :=
  rows.length == 67 &&
  distinctKeys (rows.map (fun r => r.lower.toNat)) &&
  rows.contains ⟨0x8E#8, 0xAE#8⟩

/-- ENC_TABLE (10_state.md R26). The check stands in the type, so a table that is not well formed
cannot be given to the machine: "A model refuses a table that is not well formed" (R112). -/
structure EncTable where
  rows     : List EncRow
  conforms : encRowsConform rows = true
  deriving DecidableEq, Repr

/-- CASE_TABLE (10_state.md R27), refused in the same way when it is not well formed (R124). -/
structure CaseTable where
  rows     : List CaseRow
  conforms : caseRowsConform rows = true
  deriving DecidableEq, Repr

/-- The unit addresses `lo ≤ a < hi`. -/
structure Span where
  lo : Nat
  hi : Nat
  deriving DecidableEq, Repr

/-- The parameters of 00_scope.md R1. `P_ADMIT16` and `P_ADMIT8`, predicates on 32-bit unit
addresses, are held as lists of spans: every predicate on 2^32 addresses is such a list. -/
structure Params where
  /-- `P_ENC_TABLE` -/
  encTable     : EncTable
  /-- `P_CASE_TABLE` -/
  caseTable    : CaseTable
  /-- `P_ADMIT16` -/
  admit16      : List Span
  /-- `P_ADMIT8` -/
  admit8       : List Span
  /-- `P_UTF8_FAIL_POS` -/
  failPos      : FailPos
  /-- `P_REG_BASE`. DESIGN CHOICE, unsafe (log entry 19): the spec gives a host address no width, and
  the model holds the base as 32 bits. -/
  regBase      : Word
  /-- `P_HOST_U16_ORDER` -/
  hostU16Order : U16Order
  deriving DecidableEq, Repr

/-- FREE VALUE (10_state.md R12, 93_implementation_defined.md I10, log entry 9): what the n-th draw gives to a
host read of an unwritten register. -/
opaque Config.freeWord : Nat → Word

/-- FREE VALUE (70_reset_and_hazards.md R170, 93_implementation_defined.md I6, log entry 10): for the n-th draw, a
command abandoned by reset, and a unit address of M16 the command would have changed, whether the new
value had been written. -/
opaque Config.landed16 : Nat → Nat → Bool

/-- FREE VALUE: the same for space M8 (log entry 10). -/
opaque Config.landed8 : Nat → Nat → Bool

end Sys2Proof
end

