-- ==== Sys2Proof/WellFormed.lean ====
section
/-! DEFINITION. Sys2Proof/WellFormed.lean: what a legal command word is, by its fields
(30_encoding.md R46, R48, R49, R50). A command of `Instr` has no operand and so no form of its own to
check; what can be ill formed is the word that names it, and the two tables of the engine, whose
checks stand in Config.lean. -/

namespace Sys2Proof

/-- The fields of the command word (30_encoding.md R46). -/
structure CmdFields where
  /-- bits 7:0 -/
  opc : BitVec 8
  /-- bit 8: measure -/
  m   : BitVec 1
  /-- bits 31:9: reserved -/
  rsv : BitVec 23
  deriving DecidableEq, Repr

/-- The reserved bits are 0 (30_encoding.md R49). -/
def CmdFields.reservedZero (f : CmdFields) : Bool := f.rsv == 0#23

/-- The operation code is one of 0x01..0x09 (30_encoding.md R50, second case). -/
def CmdFields.opcKnown (f : CmdFields) : Bool :=
  !(f.opc == 0x00#8 || decide (0x0A ≤ f.opc.toNat))

/-- M = 1 only where there is a destination that can be absent (30_encoding.md R48, R50, third
case). -/
def CmdFields.measureAllowed (f : CmdFields) : Bool :=
  !((f.opc == 0x01#8 || f.opc == 0x02#8 || f.opc == 0x06#8) && f.m == 1#1)

/-- A legal command word (30_encoding.md R50, negated). -/
def CmdFields.wellFormed (f : CmdFields) : Bool :=
  f.reservedZero && f.opcKnown && f.measureAllowed

/-- The fields of each command's word (the rows of 30_encoding.md R47). -/
def Instr.fields : Instr → CmdFields
  | .dec16      => ⟨0x01#8, 0#1, 0#23⟩
  | .dec8       => ⟨0x02#8, 0#1, 0#23⟩
  | .enc16      => ⟨0x03#8, 0#1, 0#23⟩
  | .len16      => ⟨0x03#8, 1#1, 0#23⟩
  | .enc8       => ⟨0x04#8, 0#1, 0#23⟩
  | .len8       => ⟨0x04#8, 1#1, 0#23⟩
  | .encvis     => ⟨0x05#8, 0#1, 0#23⟩
  | .lenvis     => ⟨0x05#8, 1#1, 0#23⟩
  | .fold       => ⟨0x06#8, 0#1, 0#23⟩
  | .cvt16to8   => ⟨0x07#8, 0#1, 0#23⟩
  | .cvt8to16   => ⟨0x08#8, 0#1, 0#23⟩
  | .cvt8tovis  => ⟨0x09#8, 0#1, 0#23⟩
  | .cvt16to8M  => ⟨0x07#8, 1#1, 0#23⟩
  | .cvt8to16M  => ⟨0x08#8, 1#1, 0#23⟩
  | .cvt8tovisM => ⟨0x09#8, 1#1, 0#23⟩

/-- A command is well formed when its word's fields are. -/
def Instr.wellFormed (i : Instr) : Bool := i.fields.wellFormed

end Sys2Proof
end

