-- ==== Sys2Proof/Decode.lean ====
section
/-! DEFINITION. Sys2Proof/Decode.lean: decoding a command word (30_encoding.md R54), the encoder, the
mnemonics (R55), and the host's view of one row of the opcode table. -/

namespace Sys2Proof

/-- OPC, bits 7:0 (30_encoding.md R46). -/
def opcOf (v : Word) : BitVec 8 := v.extractLsb' 0 8

/-- M, bit 8 (30_encoding.md R46). -/
def measureOf (v : Word) : BitVec 1 := v.extractLsb' 8 1

/-- RSV, bits 31:9 (30_encoding.md R46). -/
def reservedOf (v : Word) : BitVec 23 := v.extractLsb' 9 23

/-- The three fields of a word. -/
def fieldsOf (v : Word) : CmdFields := ⟨opcOf v, measureOf v, reservedOf v⟩

/-- `Decode(v)` (30_encoding.md R54): total on the 2^32 words; `none` is ILLEGAL. -/
def decode (v : Word) : Option Instr :=
  if reservedOf v ≠ 0#23 then none else
  match (opcOf v).toNat, (measureOf v).toNat with
  | 0x01, 0 => some .dec16
  | 0x02, 0 => some .dec8
  | 0x03, 0 => some .enc16
  | 0x03, 1 => some .len16
  | 0x04, 0 => some .enc8
  | 0x04, 1 => some .len8
  | 0x05, 0 => some .encvis
  | 0x05, 1 => some .lenvis
  | 0x06, 0 => some .fold
  | 0x07, 0 => some .cvt16to8
  | 0x07, 1 => some .cvt16to8M
  | 0x08, 0 => some .cvt8to16
  | 0x08, 1 => some .cvt8to16M
  | 0x09, 0 => some .cvt8tovis
  | 0x09, 1 => some .cvt8tovisM
  | _, _ => none

/-- A word from its fields, laid out as 30_encoding.md R46 says. -/
def assemble (f : CmdFields) : Word := f.rsv ++ f.m ++ f.opc

/-- The command word of a command (30_encoding.md R46, R47). -/
def encode (i : Instr) : Word := assemble i.fields

/-- The canonical mnemonic (30_encoding.md R47, R55). -/
def Instr.mnemonic : Instr → String
  | .dec16      => "DEC16"
  | .dec8       => "DEC8"
  | .enc16      => "ENC16"
  | .len16      => "LEN16"
  | .enc8       => "ENC8"
  | .len8       => "LEN8"
  | .encvis     => "ENCVIS"
  | .lenvis     => "LENVIS"
  | .fold       => "FOLD"
  | .cvt16to8   => "CVT16TO8"
  | .cvt8to16   => "CVT8TO16"
  | .cvt8tovis  => "CVT8TOVIS"
  | .cvt16to8M  => "CVT16TO8.M"
  | .cvt8to16M  => "CVT8TO16.M"
  | .cvt8tovisM => "CVT8TOVIS.M"

/-- Every spelling that 30_encoding.md R55 accepts, with the command it names: the 15 mnemonics, and
`ENC16.M`, `ENC8.M`, `ENCVIS.M` for the three length commands. -/
def spellings : List (String × Instr) :=
  [("DEC16", .dec16), ("DEC8", .dec8),
   ("ENC16", .enc16), ("LEN16", .len16), ("ENC16.M", .len16),
   ("ENC8", .enc8), ("LEN8", .len8), ("ENC8.M", .len8),
   ("ENCVIS", .encvis), ("LENVIS", .lenvis), ("ENCVIS.M", .lenvis)] ++
  [("FOLD", .fold),
   ("CVT16TO8", .cvt16to8), ("CVT16TO8.M", .cvt16to8M),
   ("CVT8TO16", .cvt8to16), ("CVT8TO16.M", .cvt8to16M),
   ("CVT8TOVIS", .cvt8tovis), ("CVT8TOVIS.M", .cvt8tovisM)]

/-- The command a mnemonic names, if it is one (30_encoding.md R55). -/
def ofMnemonic (m : String) : Option Instr := (spellings.find? (fun p => p.1 == m)).map (·.2)

/-- The command word an `nbits`-bit number stands for, the bits above `nbits` being 0. A command word
is written whole, in one 32-bit host write (30_encoding.md R53), so no byte order arises. -/
def tableWord (nbits w : Nat) : Word := BitVec.ofNat 32 (w % 2 ^ nbits)

/-- What the decoder reads from the word that spec/opcode_table.json numbers `w`. -/
def decodeTableWord (nbits w : Nat) : Option Instr := decode (tableWord nbits w)

end Sys2Proof
end

