-- ==== Sys2Proof/Machine/Tables.lean ====
section
/-! DEFINITION. Sys2Proof/Machine/Tables.lean: the default contents of the two ROM tables
(44_viscii_encoder.md R105, 45_case_folder.md R120), row by row in the order the spec lists them, and
the parameter values the model's reset state takes (log entries 1 to 5). PRESUMED: every row but
(U+1EC7, 0xAE) and (0x8E, 0xAE) is the spec's "general knowledge, not in source". -/

namespace Sys2Proof

/-- Rows 0 to 22 of the default ENC_TABLE. -/
def encRows0 : List EncRow :=
  [⟨0x1EB2#32, 0x02#8⟩, ⟨0x1EB4#32, 0x05#8⟩, ⟨0x1EAA#32, 0x06#8⟩, ⟨0x1EF6#32, 0x14#8⟩,
   ⟨0x1EF8#32, 0x19#8⟩, ⟨0x1EF4#32, 0x1E#8⟩, ⟨0x1EA0#32, 0x80#8⟩, ⟨0x1EAE#32, 0x81#8⟩,
   ⟨0x1EB0#32, 0x82#8⟩, ⟨0x1EB6#32, 0x83#8⟩, ⟨0x1EA4#32, 0x84#8⟩, ⟨0x1EA6#32, 0x85#8⟩,
   ⟨0x1EA8#32, 0x86#8⟩, ⟨0x1EAC#32, 0x87#8⟩, ⟨0x1EBC#32, 0x88#8⟩, ⟨0x1EB8#32, 0x89#8⟩,
   ⟨0x1EBE#32, 0x8A#8⟩, ⟨0x1EC0#32, 0x8B#8⟩, ⟨0x1EC2#32, 0x8C#8⟩, ⟨0x1EC4#32, 0x8D#8⟩,
   ⟨0x1EC6#32, 0x8E#8⟩, ⟨0x1ED0#32, 0x8F#8⟩, ⟨0x1ED2#32, 0x90#8⟩]

/-- Rows 23 to 45 of the default ENC_TABLE. -/
def encRows23 : List EncRow :=
  [⟨0x1ED4#32, 0x91#8⟩, ⟨0x1ED6#32, 0x92#8⟩, ⟨0x1ED8#32, 0x93#8⟩, ⟨0x1EE2#32, 0x94#8⟩,
   ⟨0x1EDA#32, 0x95#8⟩, ⟨0x1EDC#32, 0x96#8⟩, ⟨0x1EDE#32, 0x97#8⟩, ⟨0x1ECA#32, 0x98#8⟩,
   ⟨0x1ECE#32, 0x99#8⟩, ⟨0x1ECC#32, 0x9A#8⟩, ⟨0x1EC8#32, 0x9B#8⟩, ⟨0x1EE6#32, 0x9C#8⟩,
   ⟨0x0168#32, 0x9D#8⟩, ⟨0x1EE4#32, 0x9E#8⟩, ⟨0x1EF2#32, 0x9F#8⟩, ⟨0x00D5#32, 0xA0#8⟩,
   ⟨0x1EAF#32, 0xA1#8⟩, ⟨0x1EB1#32, 0xA2#8⟩, ⟨0x1EB7#32, 0xA3#8⟩, ⟨0x1EA5#32, 0xA4#8⟩,
   ⟨0x1EA7#32, 0xA5#8⟩, ⟨0x1EA9#32, 0xA6#8⟩, ⟨0x1EAD#32, 0xA7#8⟩]

/-- Rows 46 to 68 of the default ENC_TABLE. -/
def encRows46 : List EncRow :=
  [⟨0x1EBD#32, 0xA8#8⟩, ⟨0x1EB9#32, 0xA9#8⟩, ⟨0x1EBF#32, 0xAA#8⟩, ⟨0x1EC1#32, 0xAB#8⟩,
   ⟨0x1EC3#32, 0xAC#8⟩, ⟨0x1EC5#32, 0xAD#8⟩, ⟨0x1EC7#32, 0xAE#8⟩, ⟨0x1ED1#32, 0xAF#8⟩,
   ⟨0x1ED3#32, 0xB0#8⟩, ⟨0x1ED5#32, 0xB1#8⟩, ⟨0x1ED7#32, 0xB2#8⟩, ⟨0x1EE0#32, 0xB3#8⟩,
   ⟨0x01A0#32, 0xB4#8⟩, ⟨0x1ED9#32, 0xB5#8⟩, ⟨0x1EDD#32, 0xB6#8⟩, ⟨0x1EDF#32, 0xB7#8⟩,
   ⟨0x1ECB#32, 0xB8#8⟩, ⟨0x1EF0#32, 0xB9#8⟩, ⟨0x1EE8#32, 0xBA#8⟩, ⟨0x1EEA#32, 0xBB#8⟩,
   ⟨0x1EEC#32, 0xBC#8⟩, ⟨0x01A1#32, 0xBD#8⟩, ⟨0x1EDB#32, 0xBE#8⟩]

/-- Rows 69 to 91 of the default ENC_TABLE. -/
def encRows69 : List EncRow :=
  [⟨0x01AF#32, 0xBF#8⟩, ⟨0x00C0#32, 0xC0#8⟩, ⟨0x00C1#32, 0xC1#8⟩, ⟨0x00C2#32, 0xC2#8⟩,
   ⟨0x00C3#32, 0xC3#8⟩, ⟨0x1EA2#32, 0xC4#8⟩, ⟨0x0102#32, 0xC5#8⟩, ⟨0x1EB3#32, 0xC6#8⟩,
   ⟨0x1EB5#32, 0xC7#8⟩, ⟨0x00C8#32, 0xC8#8⟩, ⟨0x00C9#32, 0xC9#8⟩, ⟨0x00CA#32, 0xCA#8⟩,
   ⟨0x1EBA#32, 0xCB#8⟩, ⟨0x00CC#32, 0xCC#8⟩, ⟨0x00CD#32, 0xCD#8⟩, ⟨0x0128#32, 0xCE#8⟩,
   ⟨0x1EF3#32, 0xCF#8⟩, ⟨0x0110#32, 0xD0#8⟩, ⟨0x1EE9#32, 0xD1#8⟩, ⟨0x00D2#32, 0xD2#8⟩,
   ⟨0x00D3#32, 0xD3#8⟩, ⟨0x00D4#32, 0xD4#8⟩, ⟨0x1EA1#32, 0xD5#8⟩]

/-- Rows 92 to 114 of the default ENC_TABLE. -/
def encRows92 : List EncRow :=
  [⟨0x1EF7#32, 0xD6#8⟩, ⟨0x1EEB#32, 0xD7#8⟩, ⟨0x1EED#32, 0xD8#8⟩, ⟨0x00D9#32, 0xD9#8⟩,
   ⟨0x00DA#32, 0xDA#8⟩, ⟨0x1EF9#32, 0xDB#8⟩, ⟨0x1EF5#32, 0xDC#8⟩, ⟨0x00DD#32, 0xDD#8⟩,
   ⟨0x1EE1#32, 0xDE#8⟩, ⟨0x01B0#32, 0xDF#8⟩, ⟨0x00E0#32, 0xE0#8⟩, ⟨0x00E1#32, 0xE1#8⟩,
   ⟨0x00E2#32, 0xE2#8⟩, ⟨0x00E3#32, 0xE3#8⟩, ⟨0x1EA3#32, 0xE4#8⟩, ⟨0x0103#32, 0xE5#8⟩,
   ⟨0x1EEF#32, 0xE6#8⟩, ⟨0x1EAB#32, 0xE7#8⟩, ⟨0x00E8#32, 0xE8#8⟩, ⟨0x00E9#32, 0xE9#8⟩,
   ⟨0x00EA#32, 0xEA#8⟩, ⟨0x1EBB#32, 0xEB#8⟩, ⟨0x00EC#32, 0xEC#8⟩]

/-- Rows 115 to 133 of the default ENC_TABLE. -/
def encRows115 : List EncRow :=
  [⟨0x00ED#32, 0xED#8⟩, ⟨0x0129#32, 0xEE#8⟩, ⟨0x1EC9#32, 0xEF#8⟩, ⟨0x0111#32, 0xF0#8⟩,
   ⟨0x1EF1#32, 0xF1#8⟩, ⟨0x00F2#32, 0xF2#8⟩, ⟨0x00F3#32, 0xF3#8⟩, ⟨0x00F4#32, 0xF4#8⟩,
   ⟨0x00F5#32, 0xF5#8⟩, ⟨0x1ECF#32, 0xF6#8⟩, ⟨0x1ECD#32, 0xF7#8⟩, ⟨0x1EE5#32, 0xF8#8⟩,
   ⟨0x00F9#32, 0xF9#8⟩, ⟨0x00FA#32, 0xFA#8⟩, ⟨0x0169#32, 0xFB#8⟩, ⟨0x1EE7#32, 0xFC#8⟩,
   ⟨0x00FD#32, 0xFD#8⟩, ⟨0x1EE3#32, 0xFE#8⟩, ⟨0x1EEE#32, 0xFF#8⟩]

/-- The 134 rows of the default ENC_TABLE (44_viscii_encoder.md R105). -/
def defaultEncRows : List EncRow :=
  encRows0 ++ encRows23 ++ encRows46 ++ encRows69 ++ encRows92 ++ encRows115

/-- Rows 0 to 22 of the default CASE_TABLE. -/
def caseRows0 : List CaseRow :=
  [⟨0x02#8, 0xC6#8⟩, ⟨0x05#8, 0xC7#8⟩, ⟨0x06#8, 0xE7#8⟩, ⟨0x14#8, 0xD6#8⟩, ⟨0x19#8, 0xDB#8⟩,
   ⟨0x1E#8, 0xDC#8⟩, ⟨0x80#8, 0xD5#8⟩, ⟨0x81#8, 0xA1#8⟩, ⟨0x82#8, 0xA2#8⟩, ⟨0x83#8, 0xA3#8⟩,
   ⟨0x84#8, 0xA4#8⟩, ⟨0x85#8, 0xA5#8⟩, ⟨0x86#8, 0xA6#8⟩, ⟨0x87#8, 0xA7#8⟩, ⟨0x88#8, 0xA8#8⟩,
   ⟨0x89#8, 0xA9#8⟩, ⟨0x8A#8, 0xAA#8⟩, ⟨0x8B#8, 0xAB#8⟩, ⟨0x8C#8, 0xAC#8⟩, ⟨0x8D#8, 0xAD#8⟩,
   ⟨0x8E#8, 0xAE#8⟩, ⟨0x8F#8, 0xAF#8⟩, ⟨0x90#8, 0xB0#8⟩]

/-- Rows 23 to 45 of the default CASE_TABLE. -/
def caseRows23 : List CaseRow :=
  [⟨0x91#8, 0xB1#8⟩, ⟨0x92#8, 0xB2#8⟩, ⟨0x93#8, 0xB5#8⟩, ⟨0x94#8, 0xFE#8⟩, ⟨0x95#8, 0xBE#8⟩,
   ⟨0x96#8, 0xB6#8⟩, ⟨0x97#8, 0xB7#8⟩, ⟨0x98#8, 0xB8#8⟩, ⟨0x99#8, 0xF6#8⟩, ⟨0x9A#8, 0xF7#8⟩,
   ⟨0x9B#8, 0xEF#8⟩, ⟨0x9C#8, 0xFC#8⟩, ⟨0x9D#8, 0xFB#8⟩, ⟨0x9E#8, 0xF8#8⟩, ⟨0x9F#8, 0xCF#8⟩,
   ⟨0xA0#8, 0xF5#8⟩, ⟨0xB3#8, 0xDE#8⟩, ⟨0xB4#8, 0xBD#8⟩, ⟨0xB9#8, 0xF1#8⟩, ⟨0xBA#8, 0xD1#8⟩,
   ⟨0xBB#8, 0xD7#8⟩, ⟨0xBC#8, 0xD8#8⟩, ⟨0xBF#8, 0xDF#8⟩]

/-- Rows 46 to 66 of the default CASE_TABLE. -/
def caseRows46 : List CaseRow :=
  [⟨0xC0#8, 0xE0#8⟩, ⟨0xC1#8, 0xE1#8⟩, ⟨0xC2#8, 0xE2#8⟩, ⟨0xC3#8, 0xE3#8⟩, ⟨0xC4#8, 0xE4#8⟩,
   ⟨0xC5#8, 0xE5#8⟩, ⟨0xC8#8, 0xE8#8⟩, ⟨0xC9#8, 0xE9#8⟩, ⟨0xCA#8, 0xEA#8⟩, ⟨0xCB#8, 0xEB#8⟩,
   ⟨0xCC#8, 0xEC#8⟩, ⟨0xCD#8, 0xED#8⟩, ⟨0xCE#8, 0xEE#8⟩, ⟨0xD0#8, 0xF0#8⟩, ⟨0xD2#8, 0xF2#8⟩,
   ⟨0xD3#8, 0xF3#8⟩, ⟨0xD4#8, 0xF4#8⟩, ⟨0xD9#8, 0xF9#8⟩, ⟨0xDA#8, 0xFA#8⟩, ⟨0xDD#8, 0xFD#8⟩,
   ⟨0xFF#8, 0xE6#8⟩]

/-- The 67 rows of the default CASE_TABLE (45_case_folder.md R120). -/
def defaultCaseRows : List CaseRow :=
  caseRows0 ++ caseRows23 ++ caseRows46

/-- The default ENC_TABLE is conforming (93_implementation_defined.md, the mechanical check). -/
theorem defaultEncRows_conform : encRowsConform defaultEncRows = true := by decide +kernel

/-- The default CASE_TABLE is conforming. -/
theorem defaultCaseRows_conform : caseRowsConform defaultCaseRows = true := by decide +kernel

/-- The whole of a space, the 2^32 units of 20_memory.md R30. -/
def wholeSpace : List Span := [⟨0, spaceSize⟩]

/-- The parameters of the reset state: the spec's default tables, its reading CONSUMED of
`P_UTF8_FAIL_POS`, both spaces admitted whole, the register block at host address 0, and a
little-endian host. PRESUMED (the tables, log entry 2) and DESIGN CHOICE (the rest, log entries 3 to
5): the spec leaves each OPEN. -/
def Params.default : Params where
  encTable     := ⟨defaultEncRows, defaultEncRows_conform⟩
  caseTable    := ⟨defaultCaseRows, defaultCaseRows_conform⟩
  admit16      := wholeSpace
  admit8       := wholeSpace
  failPos      := .consumed
  regBase      := 0#32
  hostU16Order := .littleEndian

end Sys2Proof
end

