-- ==== Sys2Proof/Machine/State.lean ====
section
/-! DEFINITION. Sys2Proof/Machine/State.lean: everything the spec gives the engine (10_state.md), the
two memory spaces (20_memory.md), the host's pending accesses and the values they gave it
(30_encoding.md R56), the reasons a step can stop, and the state after reset. -/

namespace Sys2Proof.Machine

/-- The eight operand and result registers (10_state.md R10, R18 to R25). -/
inductive Reg where
  | src
  | slen
  | pos
  | dst
  | dcap
  | didx
  | cp
  | cnt
  deriving DecidableEq, Repr

/-- A word of the register block (10_state.md R10). `unused k` is the word at offset 0x28 + 4·k, which
is not a register. Host accesses are whole 32-bit words at 4-byte-aligned offsets (R12), so these are
all the places a host access can name. -/
inductive BlockReg where
  | cmd
  | status
  | op (r : Reg)
  | unused (k : Nat)
  deriving DecidableEq, Repr

/-- The fault causes (60_exceptions.md R150). -/
inductive Cause where
  | illegalCmd
  | unwritten
  | posRange
  | cpDomain
  | access
  | overlap
  | countOverflow
  deriving DecidableEq, Repr

/-- The fields of STATUS that are not reserved (10_state.md R15). -/
structure Status where
  /-- bit 0 -/
  busy  : Bool
  /-- bit 1 -/
  fault : Bool
  /-- bits 7:4 -/
  cause : BitVec 4
  deriving DecidableEq, Repr

/-- A memory space of `w`-bit units: (unit address, value) pairs (`Memory 8` is `List Host.Cell`). The
canonical form is `Memory.wf`: addresses strictly rising and below 2^32, and no unit listed at the
value an unlisted unit reads as. -/
abbrev Memory (w : Nat) := List (Nat × BitVec w)

/-- What a unit that is not listed reads as. DESIGN CHOICE, unsafe (log entry 6): the spec gives a
unit its "launch value" (20_memory.md R31) and no value for the launch. -/
def unlisted (w : Nat) : BitVec w := 0#w

/-- Every address of the list is above `lo`, rising, below 2^32, and no value is the unlisted one. -/
def Memory.wfAbove {w : Nat} : Nat → Memory w → Bool
  | _, [] => true
  | lo, (a, v) :: rest =>
    decide (lo ≤ a) && decide (a < spaceSize) && (v != unlisted w) && Memory.wfAbove (a + 1) rest

/-- The canonical form of a memory space. -/
def Memory.wf {w : Nat} (m : Memory w) : Bool := Memory.wfAbove 0 m

/-- One thing the host does to the engine or to its own buffers (30_encoding.md R56, 10_state.md R12,
20_memory.md R30, R40, 70_reset_and_hazards.md R170). -/
inductive HostOp where
  /-- a host write of a 32-bit value to a word of the block; a write to CMD issues a command -/
  | wr (r : BlockReg) (v : Word)
  /-- a host read of a word of the block -/
  | rd (r : BlockReg)
  /-- the host writes a unit of M16 -/
  | store16 (a : Word) (v : Unit16)
  /-- the host writes a unit of M8 -/
  | store8 (a : Word) (v : Byte)
  /-- the host reads a unit of M16 -/
  | load16 (a : Word)
  /-- the host reads a unit of M8 -/
  | load8 (a : Word)
  /-- reset is asserted while no command runs -/
  | reset
  /-- the host writes `v` to CMD and reset is asserted while that command runs -/
  | cmdCutByReset (v : Word)
  deriving DecidableEq, Repr

/-- A value the host has read: "an observation of the program" (30_encoding.md R56). -/
inductive Obs where
  | reg (r : BlockReg) (v : Word)
  | unit16 (a : Word) (v : Unit16)
  | unit8 (a : Word) (v : Byte)
  deriving DecidableEq, Repr

/-- Why the machine stops. The faults of 60_exceptions.md are NOT here: they are next states, with the
fault recorded in STATUS (R151). -/
inductive Fault where
  /-- Raised by a host access to a memory unit that the launch memory does not have (`P_ADMIT16`,
  `P_ADMIT8`: "Which unit addresses of M16 and M8 exist", 93_implementation_defined.md I12). No command
  of the engine raises it. DESIGN CHOICE, safe (log entry 13): the model stops where the spec gives no
  effect. -/
  | hostUnitAbsent
  deriving DecidableEq, Repr

/-- Why a step has no meaning in the model. -/
inductive Refusal where
  /-- Raised by `exec` for a command that has no meaning yet; no arm does. Safe. -/
  | notModelled (mnemonic : String)
  /-- Raised by a host access other than a read of STATUS while STATUS.BUSY = 1: "The spec gives no
  result for a host that does: a model may treat such an access as refused" (70_reset_and_hazards.md
  R175, 93_implementation_defined.md I5). No run from reset reaches it. DESIGN CHOICE, safe (log entry
  12). -/
  | hostAccessWhileBusy
  deriving DecidableEq, Repr

/-- The state of the engine and of what it shares with its host. An operand register is `none` while
it is *unwritten* (10_state.md R11: "In a model it is an Option (BitVec 32)"). CMD holds no state
(R17), and the engine has no program counter (R13): the program is the host's sequence of accesses. -/
structure State where
  /-- STATUS (R15) -/
  status : Status
  /-- SRC (R18) -/
  src    : Option Word
  /-- SLEN (R19) -/
  slen   : Option Word
  /-- POS (R20) -/
  pos    : Option Word
  /-- DST (R21) -/
  dst    : Option Word
  /-- DCAP (R22) -/
  dcap   : Option Word
  /-- DIDX (R23) -/
  didx   : Option Word
  /-- CP (R24) -/
  cp     : Option Word
  /-- CNT (R25) -/
  cnt    : Option Word
  /-- the implementation parameters, ENC_TABLE (R26) and CASE_TABLE (R27) among them -/
  params : Params
  /-- space M16 (20_memory.md R30) -/
  m16    : Memory 16
  /-- space M8 (20_memory.md R30) -/
  m8     : Memory 8
  /-- the host accesses still to come, the next one first (30_encoding.md R56); the model's own -/
  script : List HostOp
  /-- the values the host has read, the first one first (30_encoding.md R56); the model's own -/
  seen   : List Obs
  /-- how many free values have been drawn; the model's own, and no statement rests on its value -/
  draws  : Nat
  deriving DecidableEq, Repr

/-- STATUS = 0x00000000: BUSY = 0, FAULT = 0, CAUSE = 0 (10_state.md R15, R29). -/
def Status.zero : Status := ⟨false, false, 0#4⟩

/-- The state after reset (10_state.md R29): STATUS 0, every operand register unwritten. The
parameters are the default ones and memory lists nothing (log entries 2 to 6); the host's accesses, its
observations and the count of draws are the model's own (log entry 7). -/
def State.reset : State where
  status := Status.zero
  src    := none
  slen   := none
  pos    := none
  dst    := none
  dcap   := none
  didx   := none
  cp     := none
  cnt    := none
  params := Params.default
  m16    := []
  m8     := []
  script := []
  seen   := []
  draws  := 0

/-- What a command answers. -/
abbrev Result := Host.Outcome State Fault Refusal

end Sys2Proof.Machine
end

