-- ==== Sys2Proof/Machine/Flags.lean ====
section
/-! DEFINITION. Sys2Proof/Machine/Flags.lean: the engine has no condition codes or arithmetic flags
(10_state.md R14); its only flags are the fields of STATUS. How STATUS reads as a word, the cause
codes, and every change of STATUS the spec gives. -/

namespace Sys2Proof.Machine

/-- The code of a cause in STATUS.CAUSE (60_exceptions.md R150). -/
def Cause.code : Cause → BitVec 4
  | .illegalCmd    => 1#4
  | .unwritten     => 2#4
  | .posRange      => 3#4
  | .cpDomain      => 4#4
  | .access        => 5#4
  | .overlap       => 6#4
  | .countOverflow => 7#4

/-- STATUS as the host reads it (10_state.md R15): BUSY bit 0, FAULT bit 1, CAUSE bits 7:4, every
other bit 0. -/
def Status.word (st : Status) : Word :=
  (0#24 : BitVec 24) ++ st.cause ++ (0#2 : BitVec 2) ++ BitVec.ofBool st.fault ++ BitVec.ofBool st.busy

/-- The legal values of STATUS (10_state.md R15): FAULT = 0 with CAUSE = 0, or FAULT = 1 with CAUSE in
1..7. -/
def Status.legal (st : Status) : Bool :=
  if st.fault then decide (1 ≤ st.cause.toNat ∧ st.cause.toNat ≤ 7) else st.cause == 0#4

/-- STATUS.BUSY <- 1, when a legal command starts (30_encoding.md R45). -/
def Status.begin (st : Status) : Status := { st with busy := true }

/-- STATUS.BUSY <- 0, when a command has ended (30_encoding.md R45). -/
def Status.finish (st : Status) : Status := { st with busy := false }

/-- The fault record (60_exceptions.md R151): FAULT <- 1, CAUSE <- the cause's code, BUSY <- 0. -/
def Status.record (_ : Status) (c : Cause) : Status := ⟨false, true, c.code⟩

end Sys2Proof.Machine
end

