-- ==== Sys2Proof/Machine/Ops.lean ====
section
/-! DEFINITION. Sys2Proof/Machine/Ops.lean: the named operations over memory and registers, admission
(20_memory.md R33), taking a fault (60_exceptions.md R151) and reset (70_reset_and_hazards.md R170). -/

namespace Sys2Proof.Machine

/-! ## One memory space -/

/-- The value of a unit (20_memory.md R31). -/
def Memory.read {w : Nat} : Memory w → Nat → BitVec w
  | [], _ => unlisted w
  | (b, v) :: rest, a => if b = a then v else Memory.read rest a

/-- The list without the unit at `a`. -/
def Memory.erase {w : Nat} : Memory w → Nat → Memory w
  | [], _ => []
  | (b, v) :: rest, a => if b = a then Memory.erase rest a else (b, v) :: Memory.erase rest a

/-- The list with a pair put before the first higher address. -/
def Memory.place {w : Nat} : Memory w → Nat → BitVec w → Memory w
  | [], a, v => [(a, v)]
  | (b, u) :: rest, a, v => if a < b then (a, v) :: (b, u) :: rest else (b, u) :: Memory.place rest a v

/-- Set a unit (20_memory.md R31), keeping the canonical form: a unit set to what an unlisted unit
reads as is not listed. -/
def Memory.write {w : Nat} (m : Memory w) (a : Nat) (v : BitVec w) : Memory w :=
  if v = unlisted w then m.erase a else (m.erase a).place a v

/-- The space half-way between `before` and `after` (70_reset_and_hazards.md R170,
93_implementation_defined.md I6): a unit of `keys` takes its value from `after` where `landed` says
so. -/
def Memory.mix {w : Nat} (landed : Nat → Bool) (after : Memory w) : List Nat → Memory w → Memory w
  | [], before => before
  | a :: keys, before =>
    let m := Memory.mix landed after keys before
    if landed a then m.write a (after.read a) else m

/-- What a command cut short by reset leaves of the change from `before` to `after`: each unit listed
in either is old or new. -/
def Memory.cut {w : Nat} (landed : Nat → Bool) (before after : Memory w) : Memory w :=
  Memory.mix landed after (before.map (·.1) ++ after.map (·.1)) before

/-! ## Admission -/

/-- `P_ADMIT16` or `P_ADMIT8` at one unit address (20_memory.md R33). -/
def admits (spans : List Span) (a : Nat) : Bool :=
  decide (a < spaceSize) && spans.any (fun sp => decide (sp.lo ≤ a) && decide (a < sp.hi))

/-- Every address of `b ≤ a < e` is in some span: what the first span leaves of the interval, below it
and above it, is covered by the others. -/
def covered : List Span → Nat → Nat → Bool
  | [], b, e => decide (e ≤ b)
  | sp :: rest, b, e =>
    if e ≤ b then true else covered rest b (min e sp.lo) && covered rest (max b sp.hi) e

/-- `Admitted16(b, n)`, `Admitted8(b, n)` (20_memory.md R33), computed without walking the range: the
range ends at or below 2^32 and each of its units is admitted. -/
def admitted (spans : List Span) (b n : Nat) : Bool :=
  decide (b + n ≤ spaceSize) && covered spans b (b + n)

/-! ## Registers -/

/-- The contents of an operand register (10_state.md R11). -/
def State.get (s : State) : Reg → Option Word
  | .src  => s.src
  | .slen => s.slen
  | .pos  => s.pos
  | .dst  => s.dst
  | .dcap => s.dcap
  | .didx => s.didx
  | .cp   => s.cp
  | .cnt  => s.cnt

/-- `reg[N] <- v` (00_scope.md R3): the register becomes written (10_state.md R11). -/
def State.set (s : State) (r : Reg) (v : Word) : State :=
  match r with
  | .src  => { s with src := some v }
  | .slen => { s with slen := some v }
  | .pos  => { s with pos := some v }
  | .dst  => { s with dst := some v }
  | .dcap => { s with dcap := some v }
  | .didx => { s with didx := some v }
  | .cp   => { s with cp := some v }
  | .cnt  => { s with cnt := some v }

/-- A natural number as a 32-bit register value. Every number a rule writes to a register is below
2^32. -/
def toWord (n : Nat) : Word := BitVec.ofNat 32 n

/-! ## Inside one command -/

/-- What a running command works on (10_state.md R28, 20_memory.md R39): the two spaces as its own
earlier writes have left them, and how many units it has read and written (70_reset_and_hazards.md
R181; these two counts are the model's own and end with the command). -/
structure Run where
  m16    : Memory 16
  m8     : Memory 8
  reads  : Nat
  writes : Nat
  deriving DecidableEq, Repr

/-- A command starts on the memory as the host left it. -/
def State.startRun (s : State) : Run := ⟨s.m16, s.m8, 0, 0⟩

/-- A command ends: its memory is the host's again. -/
def State.endRun (s : State) (r : Run) : State := { s with m16 := r.m16, m8 := r.m8 }

/-- `MemWrite16(a, v)` (20_memory.md R31). -/
def Run.write16 (r : Run) (a : Nat) (v : Unit16) : Run :=
  { r with m16 := r.m16.write a v, writes := r.writes + 1 }

/-- `MemWrite8(a, v)` (20_memory.md R31). -/
def Run.write8 (r : Run) (a : Nat) (v : Byte) : Run :=
  { r with m8 := r.m8.write a v, writes := r.writes + 1 }

/-- Count `k` units read. -/
def Run.countReads (r : Run) (k : Nat) : Run := { r with reads := r.reads + k }

/-- What a decoder yields (40_utf16_decoder.md R63, 41_utf8_decoder.md R73): the codepoint, the index
of the last unit consumed, and how many units it read, which are those from the first index on, in
order. -/
structure Decoded where
  cp    : Word
  last  : Nat
  units : Nat
  deriving DecidableEq, Repr

/-! ## Faults and reset -/

/-- `raise Fault(X)` (60_exceptions.md R151): the fault record, and no other change. -/
def State.recordFault (s : State) (c : Cause) : State := { s with status := s.status.record c }

/-- A command that raises a fault ends with the fault recorded: a next state, since "the engine does
not transfer control anywhere" (60_exceptions.md R151). -/
def raiseFault (c : Cause) (s : State) : Result := .next (s.recordFault c)

/-- Reset (70_reset_and_hazards.md R170): STATUS 0 and every operand register unwritten. The tables,
the other parameters and the memory are unchanged. There is no return from a fault but this
(60_exceptions.md R161). -/
def State.resetEngine (s : State) : State :=
  { s with
    status := Status.zero
    src := none, slen := none, pos := none, dst := none
    dcap := none, didx := none, cp := none, cnt := none }

end Sys2Proof.Machine
end

