-- ==== Sys2Proof/Machine/Operands.lean ====
section
/-! DEFINITION. Sys2Proof/Machine/Operands.lean: the one operand form of the engine, a register read
that may raise UNWRITTEN (30_encoding.md R52), the checks that come before a command's effect
(60_exceptions.md R157), and the ends a command can come to. -/

namespace Sys2Proof.Machine

/-- `v <- reg[N]` (00_scope.md R3): the command goes on with the register's value, or raises UNWRITTEN
(60_exceptions.md R152). -/
def readReg (r : Reg) (s : State) (k : Word → Result) : Result :=
  match s.get r with
  | some v => k v
  | none => raiseFault .unwritten s

/-- `if not ok: raise Fault(c)`, else go on. -/
def require (ok : Bool) (c : Cause) (s : State) (k : Result) : Result :=
  if ok then k else raiseFault c s

/-- `if c > 0x10FFFF: raise Fault(CP_DOMAIN)` (60_exceptions.md R154). -/
def requireCodepoint (c : Word) (s : State) (k : Result) : Result :=
  require (decide (c.toNat ≤ maxCodepoint)) .cpDomain s k

/-- `if not Admitted16(b, n): raise Fault(ACCESS)` (20_memory.md R34). -/
def requireAdmitted16 (b n : Word) (s : State) (k : Result) : Result :=
  require (admitted s.params.admit16 b.toNat n.toNat) .access s k

/-- `if not Admitted8(b, n): raise Fault(ACCESS)` (20_memory.md R34). -/
def requireAdmitted8 (b n : Word) (s : State) (k : Result) : Result :=
  require (admitted s.params.admit8 b.toNat n.toNat) .access s k

/-- The source of a command in M16: unit k is `MemRead16(src + k)`. -/
def source16 (m : Memory 16) (src : Word) : Nat → Unit16 := fun k => m.read (src.toNat + k)

/-- The source of a command in M8: unit k is `MemRead8(src + k)`. -/
def source8 (m : Memory 8) (src : Word) : Nat → Byte := fun k => m.read (src.toNat + k)

/-- A decode command ends: CP and POS are written (40_utf16_decoder.md R66, 41_utf8_decoder.md R78). -/
def finishDecode (s : State) (d : Decoded) : Result :=
  .next ((s.set .cp d.cp).set .pos (toWord d.last))

/-- A command that counts ends: its memory writes have happened and CNT is written. -/
def finishCount (s : State) (rt : Run × Nat) : Result :=
  .next ((s.endRun rt.1).set .cnt (toWord rt.2))

/-- A length command (42_utf16_encoder.md R88, 43_utf8_encoder.md R98, 44_viscii_encoder.md R109):
reads CP, checks it, and writes its length to CNT. -/
def lengthCommand (len : Word → Nat) (s : State) : Result :=
  readReg .cp s fun c =>
  requireCodepoint c s <|
  .next (s.set .cnt (toWord (len c)))

end Sys2Proof.Machine
end

