-- ==== Sys2Proof/Machine/CaseFolder.lean ====
section
/-! DEFINITION. Sys2Proof/Machine/CaseFolder.lean: the in-place uppercasing of VISCII bytes and FOLD
(45_case_folder.md). -/

namespace Sys2Proof.Machine

/-- The upper byte of the first row whose lower byte is b (R121); the upper column is never a key. -/
def caseLookup : List CaseRow → Byte → Option Byte
  | [], _ => none
  | row :: rows, b => if row.lower = b then some row.upper else caseLookup rows b

/-- `FoldByte(b)` (R121): ASCII first, then the table. -/
def foldByte (tab : CaseTable) (b : Byte) : Byte :=
  if 0x61 ≤ b.toNat ∧ b.toNat ≤ 0x7A then b - 0x20#8
  else
    match caseLookup tab.rows b with
    | some u => u
    | none => b

/-- One turn of FOLD's loop (R122): read the byte, and write it only if it changes. -/
def foldAt (tab : CaseTable) (a : Nat) (r : Run) : Run :=
  if foldByte tab (r.m8.read a) ≠ r.m8.read a then
    (r.countReads 1).write8 a (foldByte tab (r.m8.read a))
  else r.countReads 1

/-- FOLD's one left-to-right pass (R122) over the `k` bytes from address `a`. -/
def foldPass (tab : CaseTable) : Nat → Nat → Run → Run
  | 0, _, r => r
  | k + 1, a, r => foldPass tab k (a + 1) (foldAt tab a r)

/-- FOLD (R122). It writes no register. -/
def execFold (s : State) : Result :=
  readReg .src s fun src =>
  readReg .slen s fun n =>
  requireAdmitted8 src n s <|
  .next (s.endRun (foldPass s.params.caseTable n.toNat src.toNat s.startRun))

end Sys2Proof.Machine
end

