-- ==== Sys2Proof/Machine/Utf16Decoder.lean ====
section
/-! DEFINITION. Sys2Proof/Machine/Utf16Decoder.lean: the surrogate-pair resolver and DEC16
(40_utf16_decoder.md). -/

namespace Sys2Proof.Machine

/-- `IsSurrogate(u)` (R60). -/
def isSurrogate (u : Unit16) : Bool := decide (0xD800 ≤ u.toNat) && decide (u.toNat ≤ 0xDFFF)

/-- `IsHigh(u)` (R61). -/
def isHigh (u : Unit16) : Bool := decide (0xD800 ≤ u.toNat) && decide (u.toNat ≤ 0xDBFF)

/-- `IsLow(u)` (R61). -/
def isLow (u : Unit16) : Bool := decide (0xDC00 ≤ u.toNat) && decide (u.toNat ≤ 0xDFFF)

/-- `Combine(h, l) = ((h[9:0] << 10) | l[9:0]) + 0x10000` (R62). -/
def combine (h l : Unit16) : Word :=
  (((h.extractLsb' 0 10).setWidth 32 <<< 10) ||| (l.extractLsb' 0 10).setWidth 32) + 0x10000#32

/-- `Utf16Decode(rd, n, p)` (R63), for p < n. The cases are B, L, E, N and P of R64, in that order. -/
def utf16Decode (rd : Nat → Unit16) (n p : Nat) : Decoded :=
  if !isSurrogate (rd p) then ⟨(rd p).setWidth 32, p, 1⟩
  else if !isHigh (rd p) then ⟨replacement, p, 1⟩
  else if p + 1 = n then ⟨replacement, p, 1⟩
  else if !isLow (rd (p + 1)) then ⟨replacement, p, 2⟩
  else ⟨combine (rd p) (rd (p + 1)), p + 1, 2⟩

/-- DEC16 (R66). -/
def execDec16 (s : State) : Result :=
  readReg .src s fun src =>
  readReg .slen s fun n =>
  readReg .pos s fun p =>
  require (decide (p.toNat < n.toNat)) .posRange s <|
  requireAdmitted16 src n s <|
  finishDecode s (utf16Decode (source16 s.m16 src) n.toNat p.toNat)

end Sys2Proof.Machine
end

