-- ==== Sys2Proof/Machine/Utf16Encoder.lean ====
section
/-! DEFINITION. Sys2Proof/Machine/Utf16Encoder.lean: the UTF-16 encoder, ENC16 and LEN16
(42_utf16_encoder.md). -/

namespace Sys2Proof.Machine

/-- `Utf16Len(c)` (R85). -/
def utf16Len (c : Word) : Nat := if c.toNat ≤ 0xFFFF then 1 else 2

/-- `Utf16Units(c)` (R86), in write order: high first, then low. -/
def utf16Units (c : Word) : List Unit16 :=
  if c.toNat ≤ 0xFFFF then [c.extractLsb' 0 16]
  else
    let d := c - 0x10000#32
    [0xD800#16 + (d.extractLsb' 10 10).setWidth 16, 0xDC00#16 + (d.extractLsb' 0 10).setWidth 16]

/-- The writes of `Enc16At` (R87): unit k of the list to address `a + k`, in ascending order. -/
def writeUnits16 : List Unit16 → Nat → Run → Run
  | [], _, r => r
  | u :: us, a, r => writeUnits16 us (a + 1) (r.write16 a u)

/-- `Enc16At(c, dst, cap, i)` (R87): 0 and nothing written when the units do not fit. -/
def enc16At (dst cap : Nat) (c : Word) (i : Nat) (r : Run) : Run × Nat :=
  if cap < i + (utf16Units c).length then (r, 0)
  else (writeUnits16 (utf16Units c) (dst + i) r, (utf16Units c).length)

/-- ENC16 (R87). -/
def execEnc16 (s : State) : Result :=
  readReg .cp s fun c =>
  readReg .dst s fun dst =>
  readReg .dcap s fun cap =>
  readReg .didx s fun i =>
  requireCodepoint c s <|
  requireAdmitted16 dst cap s <|
  finishCount s (enc16At dst.toNat cap.toNat c i.toNat s.startRun)

/-- LEN16, also spelled ENC16.M (R88). -/
def execLen16 (s : State) : Result := lengthCommand utf16Len s

end Sys2Proof.Machine
end

