-- ==== Sys2Proof/Machine/Utf8Decoder.lean ====
section
/-! DEFINITION. Sys2Proof/Machine/Utf8Decoder.lean: the multi-byte sequence validator and DEC8
(41_utf8_decoder.md). -/

namespace Sys2Proof.Machine

/-- `LeadClass(b)` (R70): the sequence length and the value bits of a leading byte. -/
def leadClass (b : Byte) : Option (Nat × Word) :=
  if b.extractLsb' 7 1 = 0b0#1 then some (1, (b.extractLsb' 0 7).setWidth 32)
  else if b.extractLsb' 5 3 = 0b110#3 then some (2, (b.extractLsb' 0 5).setWidth 32)
  else if b.extractLsb' 4 4 = 0b1110#4 then some (3, (b.extractLsb' 0 4).setWidth 32)
  else if b.extractLsb' 3 5 = 0b11110#5 then some (4, (b.extractLsb' 0 3).setWidth 32)
  else none

/-- `IsCont(d)` (R71). -/
def isCont (d : Byte) : Bool := d.extractLsb' 6 2 == 0b10#2

/-- `Utf8MinLen(c)` (R72). -/
def utf8MinLen (c : Word) : Nat :=
  if c.toNat ≤ 0x7F then 1
  else if c.toNat ≤ 0x7FF then 2
  else if c.toNat ≤ 0xFFFF then 3
  else 4

/-- `Fail(p, j)` (R73, R74). -/
def failPosition (fp : FailPos) (p j : Nat) : Nat :=
  match fp with
  | .consumed => j
  | .lead => p

/-- The three checks after assembly (R73, cases O, S and R), and case V. -/
def utf8Validate (fp : FailPos) (p len j : Nat) (c : Word) : Decoded :=
  if utf8MinLen c ≠ len then ⟨replacement, failPosition fp p j, j - p + 1⟩
  else if 0xD800 ≤ c.toNat ∧ c.toNat ≤ 0xDFFF then ⟨replacement, failPosition fp p j, j - p + 1⟩
  else if maxCodepoint < c.toNat then ⟨replacement, failPosition fp p j, j - p + 1⟩
  else ⟨c, j, j - p + 1⟩

/-- The loop over the continuation bytes of `Utf8Decode` (R73, cases T and C): `k` of them are still
to come after index `j`, the last byte consumed so far. -/
def utf8Continue (fp : FailPos) (rd : Nat → Byte) (n p len : Nat) : Nat → Nat → Word → Decoded
  | 0, j, c => utf8Validate fp p len j c
  | k + 1, j, c =>
    if n ≤ j + 1 then ⟨replacement, failPosition fp p j, j - p + 1⟩
    else if !isCont (rd (j + 1)) then ⟨replacement, failPosition fp p j, j - p + 2⟩
    else utf8Continue fp rd n p len k (j + 1)
      ((c <<< 6) ||| ((rd (j + 1)).extractLsb' 0 6).setWidth 32)

/-- `Utf8Decode(rd, n, p)` (R73), for p < n; case X is a bad leading byte. -/
def utf8Decode (fp : FailPos) (rd : Nat → Byte) (n p : Nat) : Decoded :=
  match leadClass (rd p) with
  | none => ⟨replacement, p, 1⟩
  | some (len, c) => utf8Continue fp rd n p len (len - 1) p c

/-- DEC8 (R78). -/
def execDec8 (s : State) : Result :=
  readReg .src s fun src =>
  readReg .slen s fun n =>
  readReg .pos s fun p =>
  require (decide (p.toNat < n.toNat)) .posRange s <|
  requireAdmitted8 src n s <|
  finishDecode s (utf8Decode s.params.failPos (source8 s.m8 src) n.toNat p.toNat)

end Sys2Proof.Machine
end

