-- ==== Sys2Proof/Machine/Utf8Encoder.lean ====
section
/-! DEFINITION. Sys2Proof/Machine/Utf8Encoder.lean: the UTF-8 encoder, ENC8 and LEN8
(43_utf8_encoder.md). -/

namespace Sys2Proof.Machine

/-- `TEMPLATE(L)` (R95). -/
def leadTemplate (len : Nat) : Byte :=
  match len with
  | 1 => 0x00#8
  | 2 => 0xC0#8
  | 3 => 0xE0#8
  | _ => 0xF0#8

/-- The loop of `Utf8Bytes` (R96) from position `k` down to 0, with the value `t` that is left and the
bytes of the higher positions already made: a continuation byte takes the six low bits, and the lead
takes the rest. -/
def utf8Fill (len : Nat) : Nat → Word → List Byte → List Byte
  | 0, t, made => (leadTemplate len ||| t.setWidth 8) :: made
  | k + 1, t, made =>
    utf8Fill len k (t >>> 6) ((0x80#8 ||| (t.extractLsb' 0 6).setWidth 8) :: made)

/-- `Utf8Bytes(c)` (R96), position 0 first. -/
def utf8Bytes (c : Word) : List Byte := utf8Fill (utf8MinLen c) (utf8MinLen c - 1) c []

/-- The writes of `Enc8At` (R97) in `WriteOrder(L) = [L-1, ..., 1, 0]` (R96): the last position first,
the lead last. -/
def writeBytesBackward : List Byte → Nat → Run → Run
  | [], _, r => r
  | b :: bs, a, r => (writeBytesBackward bs (a + 1) r).write8 a b

/-- `Enc8At(c, dst, cap, i)` (R97): 0 and nothing written when the bytes do not fit. -/
def enc8At (dst cap : Nat) (c : Word) (i : Nat) (r : Run) : Run × Nat :=
  if cap < i + utf8MinLen c then (r, 0)
  else (writeBytesBackward (utf8Bytes c) (dst + i) r, utf8MinLen c)

/-- ENC8 (R97). -/
def execEnc8 (s : State) : Result :=
  readReg .cp s fun c =>
  readReg .dst s fun dst =>
  readReg .dcap s fun cap =>
  readReg .didx s fun i =>
  requireCodepoint c s <|
  requireAdmitted8 dst cap s <|
  finishCount s (enc8At dst.toNat cap.toNat c i.toNat s.startRun)

/-- LEN8, also spelled ENC8.M (R98). -/
def execLen8 (s : State) : Result := lengthCommand utf8MinLen s

end Sys2Proof.Machine
end

