-- ==== Sys2Proof/Machine/VisciiEncoder.lean ====
section
/-! DEFINITION. Sys2Proof/Machine/VisciiEncoder.lean: the VISCII lookup, ENCVIS and LENVIS
(44_viscii_encoder.md). -/

namespace Sys2Proof.Machine

/-- `VisLookup(c)` (R106): the byte of the first row whose codepoint is c. -/
def visLookup : List EncRow → Word → Option Byte
  | [], _ => none
  | row :: rows, c => if row.cp = c then some row.byte else visLookup rows c

/-- `VisByte(c)` (R107): the table first, then the passthrough below 0xFF, then '?'. -/
def visByte (tab : EncTable) (c : Word) : Byte :=
  match visLookup tab.rows c with
  | some b => b
  | none => if c.toNat < 0xFF then c.extractLsb' 0 8 else 0x3F#8

/-- `VisLen(c) = 1` (R110, 46_conversions.md R136). -/
def visLen (_ : Word) : Nat := 1

/-- `EncVisAt(c, dst, cap, i)` (R108): 0 and nothing written when the byte does not fit. -/
def encVisAt (tab : EncTable) (dst cap : Nat) (c : Word) (i : Nat) (r : Run) : Run × Nat :=
  if cap < i + 1 then (r, 0) else (r.write8 (dst + i) (visByte tab c), 1)

/-- ENCVIS (R108). -/
def execEncvis (s : State) : Result :=
  readReg .cp s fun c =>
  readReg .dst s fun dst =>
  readReg .dcap s fun cap =>
  readReg .didx s fun i =>
  requireCodepoint c s <|
  requireAdmitted8 dst cap s <|
  finishCount s (encVisAt s.params.encTable dst.toNat cap.toNat c i.toNat s.startRun)

/-- LENVIS, also spelled ENCVIS.M (R109). -/
def execLenvis (s : State) : Result := lengthCommand visLen s

end Sys2Proof.Machine
end

