-- ==== Sys2Proof/Machine/Conversions.lean ====
section
/-! DEFINITION. Sys2Proof/Machine/Conversions.lean: the driving loop and the six conversion commands
(46_conversions.md). -/

namespace Sys2Proof.Machine

/-- The driving loop `Convert` (R130). `dec` decodes at a source index, reading the memory as it then
is (20_memory.md R39); `emit` measures (M = 1) or writes (M = 0) one codepoint at the running total
and answers what it adds. `fuel` bounds the turns; the loop runs at most n times (R131). -/
def convertFrom (dec : Run → Nat → Decoded) (emit : Word → Nat → Run → Run × Nat) (n : Nat) :
    Nat → Nat → Nat → Run → Run × Nat
  | 0, _, t, r => (r, t)
  | fuel + 1, i, t, r =>
    if i < n then
      convertFrom dec emit n fuel ((dec r i).last + 1)
        (t + (emit (dec r i).cp t (r.countReads (dec r i).units)).2)
        (emit (dec r i).cp t (r.countReads (dec r i).units)).1
    else (r, t)

/-- `Convert` from source index 0 and running total 0 (R130). -/
def convert (dec : Run → Nat → Decoded) (emit : Word → Nat → Run → Run × Nat) (n : Nat) (r : Run) :
    Run × Nat :=
  convertFrom dec emit n n 0 0 r

/-- The measure branch of the loop (R130, M = 1): count only, no write. -/
def measureOnly (len : Word → Nat) (c : Word) (_ : Nat) (r : Run) : Run × Nat := (r, len c)

/-- The UTF-16 source of a conversion: `Utf16Decode(k => MemRead16(src + k), n, i)` (R134). -/
def decodeSource16 (src n : Word) (r : Run) (i : Nat) : Decoded :=
  utf16Decode (source16 r.m16 src) n.toNat i

/-- The UTF-8 source of a conversion: `Utf8Decode(k => MemRead8(src + k), n, i)` (R135). -/
def decodeSource8 (fp : FailPos) (src n : Word) (r : Run) (i : Nat) : Decoded :=
  utf8Decode fp (source8 r.m8 src) n.toNat i

/-- `Overlap(src, n, dst, cap)` (R140). -/
def overlap (src n dst cap : Nat) : Bool :=
  decide (0 < n) && decide (0 < cap) && decide (src < dst + cap) && decide (dst < src + n)

/-- A measure form ends (R141): COUNT_OVERFLOW if the total does not fit 32 bits, else CNT is
written. -/
def finishMeasure (s : State) (rt : Run × Nat) : Result :=
  require (decide (rt.2 ≤ 2 ^ 32 - 1)) .countOverflow s <| finishCount s rt

/-- CVT16TO8 (R134). -/
def execCvt16to8 (s : State) : Result :=
  readReg .src s fun src =>
  readReg .slen s fun n =>
  readReg .dst s fun dst =>
  readReg .dcap s fun cap =>
  requireAdmitted16 src n s <|
  requireAdmitted8 dst cap s <|
  finishCount s
    (convert (decodeSource16 src n) (enc8At dst.toNat cap.toNat) n.toNat s.startRun)

/-- CVT8TO16 (R135). -/
def execCvt8to16 (s : State) : Result :=
  readReg .src s fun src =>
  readReg .slen s fun n =>
  readReg .dst s fun dst =>
  readReg .dcap s fun cap =>
  requireAdmitted8 src n s <|
  requireAdmitted16 dst cap s <|
  finishCount s
    (convert (decodeSource8 s.params.failPos src n) (enc16At dst.toNat cap.toNat) n.toNat s.startRun)

/-- CVT8TOVIS (R136). -/
def execCvt8tovis (s : State) : Result :=
  readReg .src s fun src =>
  readReg .slen s fun n =>
  readReg .dst s fun dst =>
  readReg .dcap s fun cap =>
  requireAdmitted8 src n s <|
  requireAdmitted8 dst cap s <|
  require (!overlap src.toNat n.toNat dst.toNat cap.toNat) .overlap s <|
  finishCount s
    (convert (decodeSource8 s.params.failPos src n)
      (encVisAt s.params.encTable dst.toNat cap.toNat) n.toNat s.startRun)

/-- CVT16TO8.M (R137). -/
def execCvt16to8M (s : State) : Result :=
  readReg .src s fun src =>
  readReg .slen s fun n =>
  requireAdmitted16 src n s <|
  finishMeasure s (convert (decodeSource16 src n) (measureOnly utf8MinLen) n.toNat s.startRun)

/-- CVT8TO16.M (R138). -/
def execCvt8to16M (s : State) : Result :=
  readReg .src s fun src =>
  readReg .slen s fun n =>
  requireAdmitted8 src n s <|
  finishMeasure s
    (convert (decodeSource8 s.params.failPos src n) (measureOnly utf16Len) n.toNat s.startRun)

/-- CVT8TOVIS.M (R139): the total, a count of codepoints, is at most SLEN, so nothing is checked. -/
def execCvt8tovisM (s : State) : Result :=
  readReg .src s fun src =>
  readReg .slen s fun n =>
  requireAdmitted8 src n s <|
  finishCount s
    (convert (decodeSource8 s.params.failPos src n) (measureOnly visLen) n.toNat s.startRun)

end Sys2Proof.Machine
end

