-- ==== Sys2Proof/Machine/Dispatch.lean ====
section
/-! DEFINITION. Sys2Proof/Machine/Dispatch.lean: the meaning of each command. -/

namespace Sys2Proof.Machine

/-- `perform op as its rule says` (30_encoding.md R45). -/
def exec (i : Instr) (s : State) : Host.Outcome State Fault Refusal :=
  match i with
  | .dec16 => Sys2Proof.Machine.execDec16 s
  | .dec8 => Sys2Proof.Machine.execDec8 s
  | .enc16 => Sys2Proof.Machine.execEnc16 s
  | .len16 => Sys2Proof.Machine.execLen16 s
  | .enc8 => Sys2Proof.Machine.execEnc8 s
  | .len8 => Sys2Proof.Machine.execLen8 s
  | .encvis => Sys2Proof.Machine.execEncvis s
  | .lenvis => Sys2Proof.Machine.execLenvis s
  | .fold => Sys2Proof.Machine.execFold s
  | .cvt16to8 => Sys2Proof.Machine.execCvt16to8 s
  | .cvt8to16 => Sys2Proof.Machine.execCvt8to16 s
  | .cvt8tovis => Sys2Proof.Machine.execCvt8tovis s
  | .cvt16to8M => Sys2Proof.Machine.execCvt16to8M s
  | .cvt8to16M => Sys2Proof.Machine.execCvt8to16M s
  | .cvt8tovisM => Sys2Proof.Machine.execCvt8tovisM s

end Sys2Proof.Machine
end

