-- ==== Sys2Proof/Machine/HostPort.lean ====
section
/-! DEFINITION. Sys2Proof/Machine/HostPort.lean: what the host's accesses do (10_state.md R10, R12,
30_encoding.md R45, 20_memory.md R30, R40, 70_reset_and_hazards.md R170, R175). -/

namespace Sys2Proof.Machine

/-- The byte offset of a register in the block (10_state.md R10). -/
def Reg.offset : Reg → Nat
  | .src  => 0x08
  | .slen => 0x0C
  | .pos  => 0x10
  | .dst  => 0x14
  | .dcap => 0x18
  | .didx => 0x1C
  | .cp   => 0x20
  | .cnt  => 0x24

/-- The byte offset of a word of the block (10_state.md R10). -/
def BlockReg.offset : BlockReg → Nat
  | .cmd      => 0x00
  | .status   => 0x04
  | .op r     => r.offset
  | .unused k => 0x28 + 4 * k

/-- The word of the block at a byte offset; an offset that is not 4-byte aligned names none (10_state.md
R12). -/
def BlockReg.ofOffset (off : Nat) : Option BlockReg :=
  if off % 4 ≠ 0 then none else
  match off / 4 with
  | 0 => some .cmd
  | 1 => some .status
  | 2 => some (.op .src)
  | 3 => some (.op .slen)
  | 4 => some (.op .pos)
  | 5 => some (.op .dst)
  | 6 => some (.op .dcap)
  | 7 => some (.op .didx)
  | 8 => some (.op .cp)
  | 9 => some (.op .cnt)
  | k + 10 => some (.unused k)

/-- The host address of a word of the block, `P_REG_BASE` + offset (10_state.md R10,
95_test_vectors.md §3). DESIGN CHOICE (log entry 19): the base is 32 bits wide, and the sum is exact and
does not wrap. -/
def BlockReg.address (p : Params) (r : BlockReg) : Nat := p.regBase.toNat + r.offset

/-- STATUS.BUSY <- 1 (30_encoding.md R45). -/
def State.begin (s : State) : State := { s with status := s.status.begin }

/-- STATUS.BUSY <- 0 (30_encoding.md R45). -/
def State.finish (s : State) : State := { s with status := s.status.finish }

/-- A command ends, STATUS.BUSY <- 0 (30_encoding.md R45). -/
def endCommand (o : Result) : Result :=
  match o with
  | .next t => .next t.finish
  | .fault e => .fault e
  | .refused e => .refused e

/-- `IssueCommand(v)` (30_encoding.md R45): ignored after a fault (60_exceptions.md R151), ILLEGAL_CMD
for an illegal word (R153), else the command runs, as one step (20_memory.md R38), with BUSY = 1. -/
def issue (v : Word) (s : State) : Result :=
  if s.status.fault then .next s
  else
    match decode v with
    | none => raiseFault .illegalCmd s
    | some i => endCommand (exec i s.begin)

/-- A host write to a word of the block (10_state.md R12). -/
def hostWrite (r : BlockReg) (v : Word) (s : State) : Result :=
  match r with
  | .cmd => issue v s
  | .status => .next s
  | .op r => .next (s.set r v)
  | .unused _ => .next s

/-- One more value the host has read. -/
def State.observe (s : State) (o : Obs) : State := { s with seen := s.seen ++ [o] }

/-- A free value has been drawn. -/
def State.draw (s : State) : State := { s with draws := s.draws + 1 }

/-- A host read of an operand register (10_state.md R12): its value, or a fresh free value while it is
unwritten (93_implementation_defined.md I10). -/
def hostReadReg (r : Reg) (s : State) : State :=
  match s.get r with
  | some v => s.observe (.reg (.op r) v)
  | none => (s.observe (.reg (.op r) (Config.freeWord s.draws))).draw

/-- A host read of a word of the block (10_state.md R12): CMD and the unused words read 0. -/
def hostRead (r : BlockReg) (s : State) : State :=
  match r with
  | .cmd => s.observe (.reg .cmd 0#32)
  | .status => s.observe (.reg .status s.status.word)
  | .op r => hostReadReg r s
  | .unused k => s.observe (.reg (.unused k) 0#32)

/-- A host access to a unit needs the unit to exist (93_implementation_defined.md I12). -/
def hostUnit (exists_ : Bool) (s : State) : Result := if exists_ then .next s else .fault .hostUnitAbsent

/-- The engine reset while a command has changed the memory from that of `s` to that of `t`
(70_reset_and_hazards.md R170): each unit of the command's is old or new, by a free value
(93_implementation_defined.md I6), and the rest of `t` is lost. -/
def resetDuring (s t : State) : State :=
  { s.resetEngine.draw with
    m16 := Memory.cut (Config.landed16 s.draws) s.m16 t.m16
    m8  := Memory.cut (Config.landed8 s.draws) s.m8 t.m8 }

/-- A command written to CMD and cut short by reset. -/
def cutByReset (v : Word) (s : State) : Result :=
  match issue v s with
  | .next t => .next (resetDuring s t)
  | .fault e => .fault e
  | .refused e => .refused e

/-- What the host may do while STATUS.BUSY = 1: read STATUS (20_memory.md R38) or reset the engine
(70_reset_and_hazards.md R170). -/
def HostOp.allowedWhileBusy : HostOp → Bool
  | .rd .status => true
  | .reset => true
  | _ => false

/-- One host access, done. -/
def HostOp.perform (op : HostOp) (s : State) : Result :=
  match op with
  | .wr r v => hostWrite r v s
  | .rd r => .next (hostRead r s)
  | .store16 a v => hostUnit (admits s.params.admit16 a.toNat) { s with m16 := s.m16.write a.toNat v }
  | .store8 a v => hostUnit (admits s.params.admit8 a.toNat) { s with m8 := s.m8.write a.toNat v }
  | .load16 a =>
    hostUnit (admits s.params.admit16 a.toNat) (s.observe (.unit16 a (s.m16.read a.toNat)))
  | .load8 a =>
    hostUnit (admits s.params.admit8 a.toNat) (s.observe (.unit8 a (s.m8.read a.toNat)))
  | .reset => .next s.resetEngine
  | .cmdCutByReset v => cutByReset v s

/-- One host access: refused while STATUS.BUSY = 1 unless it is allowed then (R175). -/
def hostStep (op : HostOp) (s : State) : Result :=
  if s.status.busy && !op.allowedWhileBusy then .refused .hostAccessWhileBusy else op.perform s

end Sys2Proof.Machine
end

