-- ==== Sys2Proof/Machine/Step.lean ====
section
/-! DEFINITION. Sys2Proof/Machine/Step.lean: one step of the machine. The engine has no program counter
and fetches nothing (10_state.md R13): a step takes the host's next access. -/

namespace Sys2Proof.Machine

/-- One step: the host's next access, or nothing while the host does nothing, since "an idle engine
keeps all its state" (60_exceptions.md R168). -/
def step (s : State) : Host.Outcome State Fault Refusal :=
  match s.script with
  | [] => .next s
  | op :: rest => hostStep op { s with script := rest }

/-- The state whose very next step is the host's write of that command word to CMD. -/
def State.withFetchWord (s : State) (nbits w : Nat) : State :=
  { s with script := .wr .cmd (tableWord nbits w) :: s.script }

end Sys2Proof.Machine
end

