-- ==== Sys2Proof/Machine/HostProgram.lean ====
section
/-! DEFINITION. Sys2Proof/Machine/HostProgram.lean: a host program (30_encoding.md R56) as the list of
host accesses it is, the pseudo-instructions (R57), and a program's start state. -/

namespace Sys2Proof.Machine

/-- `wr REG, imm32` (30_encoding.md R56). -/
def wrStmt (r : Reg) (v : Word) : HostOp := .wr (.op r) v

/-- `cmd MNEMONIC` (30_encoding.md R56): the host writes the command's word to CMD and waits until
STATUS.BUSY = 0. -/
def cmdStmt (i : Instr) : HostOp := .wr .cmd (encode i)

/-- `rd REG` (30_encoding.md R56). -/
def rdStmt (r : BlockReg) : HostOp := .rd r

/-- `call MNEMONIC, R1=v1, ..., Rk=vk` (30_encoding.md R57). -/
def callStmt (i : Instr) (args : List (Reg × Word)) : List HostOp :=
  args.map (fun a => wrStmt a.1 a.2) ++ [cmdStmt i]

/-- The measure form of a conversion. -/
def measureForm : Instr → Option Instr
  | .cvt16to8  => some .cvt16to8M
  | .cvt8to16  => some .cvt8to16M
  | .cvt8tovis => some .cvt8tovisM
  | _ => none

/-- `measure CVTxxx` (30_encoding.md R57); it is defined for the three conversions. -/
def measureStmt (i : Instr) : Option HostOp := (measureForm i).map cmdStmt

/-- `nextpos` (30_encoding.md R57), `v` being the value POS holds, which the host has read. DESIGN
CHOICE, unsafe (log entry 20): when POS holds 0xFFFFFFFF, which only a host write can have put there,
v + 1 is no 32-bit value (00_scope.md R2) and the spec gives no statement; the model takes v + 1 modulo
2^32 and writes POS = 0. -/
def nextposStmt (v : Word) : HostOp := wrStmt .pos (v + 1#32)

/-- A program's start state (30_encoding.md R56): the engine after reset, with the parameters of the
launch, the units the host has placed, and the program to come. -/
def State.launch (p : Params) (m16 : Memory 16) (m8 : Memory 8) (program : List HostOp) : State :=
  { State.reset with params := p, m16 := m16, m8 := m8, script := program }

end Sys2Proof.Machine
end

