-- ==== Sys2Proof/Safety.lean ====
section
/-! DEFINITION. Sys2Proof/Safety.lean: what a safe state and a safe run of this machine are, and the
functions of the spec's prose that claims are stated with. -/

namespace Sys2Proof.Machine

/-! ## Safe states -/

/-- Every unit the space lists exists (20_memory.md R33). -/
def Memory.within {w : Nat} (spans : List Span) (m : Memory w) : Bool :=
  m.all (fun c => admits spans c.1)

/-- What holds of the machine between two accesses of the host: no command is running (10_state.md
R16), STATUS holds a legal value (R15), and each space is canonical and lists only units that exist. -/
def State.inv (s : State) : Bool :=
  !s.status.busy && s.status.legal &&
  s.m16.wf && s.m8.wf && s.m16.within s.params.admit16 && s.m8.within s.params.admit8

/-- The host access names only memory units that exist. -/
def HostOp.onUnits (p : Params) : HostOp → Bool
  | .store16 a _ => admits p.admit16 a.toNat
  | .load16 a => admits p.admit16 a.toNat
  | .store8 a _ => admits p.admit8 a.toNat
  | .load8 a => admits p.admit8 a.toNat
  | _ => true

/-- A safe state: the invariant holds and every access still to come names units that exist. -/
def State.safe (s : State) : Bool := s.inv && s.script.all (HostOp.onUnits s.params)

/-! ## What a command reads, writes and reaches, as the spec's tables list it -/

/-- The registers marked r in 30_encoding.md R52. -/
def readsOf : Instr → List Reg
  | .dec16 | .dec8 => [.src, .slen, .pos]
  | .enc16 | .enc8 | .encvis => [.cp, .dst, .dcap, .didx]
  | .len16 | .len8 | .lenvis => [.cp]
  | .fold => [.src, .slen]
  | .cvt16to8 | .cvt8to16 | .cvt8tovis => [.src, .slen, .dst, .dcap]
  | .cvt16to8M | .cvt8to16M | .cvt8tovisM => [.src, .slen]

/-- The registers marked w in 30_encoding.md R52. -/
def writesOf : Instr → List Reg
  | .dec16 | .dec8 => [.cp, .pos]
  | .fold => []
  | .enc16 | .enc8 | .encvis | .len16 | .len8 | .lenvis
  | .cvt16to8 | .cvt8to16 | .cvt8tovis | .cvt16to8M | .cvt8to16M | .cvt8tovisM => [.cnt]

/-- The commands that may write M16 (20_memory.md R32). -/
def writesM16 : Instr → Bool
  | .enc16 | .cvt8to16 => true
  | .dec16 | .dec8 | .len16 | .enc8 | .len8 | .encvis | .lenvis | .fold | .cvt16to8 | .cvt8tovis
  | .cvt16to8M | .cvt8to16M | .cvt8tovisM => false

/-- The commands that may write M8 (20_memory.md R32). -/
def writesM8 : Instr → Bool
  | .enc8 | .encvis | .fold | .cvt16to8 | .cvt8tovis => true
  | .dec16 | .dec8 | .enc16 | .len16 | .len8 | .lenvis | .cvt8to16
  | .cvt16to8M | .cvt8to16M | .cvt8tovisM => false

/-! ## Faults in their order -/

/-- The value of a register, 0 while it is unwritten; used only after UNWRITTEN has been ruled out. -/
def State.value (s : State) (r : Reg) : Nat := ((s.get r).map BitVec.toNat).getD 0

/-- A command of R52 reads a register that is unwritten (60_exceptions.md R152). -/
def readsUnwritten (i : Instr) (s : State) : Bool := (readsOf i).any (fun r => (s.get r).isNone)

/-- The commands that check POS (60_exceptions.md R159). -/
def decodesOne : Instr → Bool
  | .dec16 | .dec8 => true
  | .enc16 | .len16 | .enc8 | .len8 | .encvis | .lenvis | .fold | .cvt16to8 | .cvt8to16 | .cvt8tovis
  | .cvt16to8M | .cvt8to16M | .cvt8tovisM => false

/-- The commands that check CP (60_exceptions.md R154). -/
def checksCodepoint : Instr → Bool
  | .enc16 | .len16 | .enc8 | .len8 | .encvis | .lenvis => true
  | .dec16 | .dec8 | .fold | .cvt16to8 | .cvt8to16 | .cvt8tovis
  | .cvt16to8M | .cvt8to16M | .cvt8tovisM => false

/-- The source range of a command is admitted, or it has none (20_memory.md R34). -/
def sourceAdmitted (i : Instr) (s : State) : Bool :=
  match i with
  | .dec16 | .cvt16to8 | .cvt16to8M => admitted s.params.admit16 (s.value .src) (s.value .slen)
  | .dec8 | .fold | .cvt8to16 | .cvt8tovis | .cvt8to16M | .cvt8tovisM =>
    admitted s.params.admit8 (s.value .src) (s.value .slen)
  | .enc16 | .len16 | .enc8 | .len8 | .encvis | .lenvis => true

/-- The destination range of a command is admitted, or it has none (20_memory.md R34). -/
def destinationAdmitted (i : Instr) (s : State) : Bool :=
  match i with
  | .enc16 | .cvt8to16 => admitted s.params.admit16 (s.value .dst) (s.value .dcap)
  | .enc8 | .encvis | .cvt16to8 | .cvt8tovis =>
    admitted s.params.admit8 (s.value .dst) (s.value .dcap)
  | .dec16 | .dec8 | .len16 | .len8 | .lenvis | .fold | .cvt16to8M | .cvt8to16M | .cvt8tovisM => true

/-- CVT8TOVIS with overlapping ranges (60_exceptions.md R156). -/
def buffersOverlap (i : Instr) (s : State) : Bool :=
  (i == .cvt8tovis) &&
  overlap (s.value .src) (s.value .slen) (s.value .dst) (s.value .dcap)

/-! ## The text a conversion walks and the units it makes -/

/-- What the decoder yields from source index `i` to the end of a source of `n` units, one after the
other (46_conversions.md R130). -/
def decodedFrom (dec : Nat → Decoded) (n : Nat) : Nat → Nat → List Decoded
  | 0, _ => []
  | fuel + 1, i => if i < n then dec i :: decodedFrom dec n fuel ((dec i).last + 1) else []

/-- The codepoints of a whole source. -/
def codepointsOf (dec : Nat → Decoded) (n : Nat) : List Word := (decodedFrom dec n n 0).map (·.cp)

/-- The codepoints of the UTF-16 source that SRC and SLEN name. -/
def sourceText16 (s : State) (src n : Word) : List Word :=
  codepointsOf (utf16Decode (source16 s.m16 src) n.toNat) n.toNat

/-- The codepoints of the UTF-8 source that SRC and SLEN name. -/
def sourceText8 (s : State) (src n : Word) : List Word :=
  codepointsOf (utf8Decode s.params.failPos (source8 s.m8 src) n.toNat) n.toNat

/-- The units a write form makes of a text in a destination of `cap` units that holds `t` already: a
character that does not fit is left out and the walk goes on (46_conversions.md R133). -/
def fittingOutput {α : Type} (units : Word → List α) (cap : Nat) : Nat → List Word → List α
  | _, [] => []
  | t, c :: cs =>
    if t + (units c).length ≤ cap then
      units c ++ fittingOutput units cap (t + (units c).length) cs
    else fittingOutput units cap t cs

/-- The units of a whole text. -/
def fullOutput {α : Type} (units : Word → List α) (cs : List Word) : List α := cs.flatMap units

/-- The VISCII units of a codepoint: one byte (44_viscii_encoder.md R110). -/
def visUnits (tab : EncTable) (c : Word) : List Byte := [visByte tab c]

/-- `after` is `before` with the units `us` at `a`, `a + 1`, … and every other unit unchanged. -/
def Holds {w : Nat} (before after : Memory w) (a : Nat) (us : List (BitVec w)) : Prop :=
  ∀ x, after.read x =
    if a ≤ x ∧ x < a + us.length then us.getD (x - a) (before.read x) else before.read x

/-- A codepoint that is no surrogate and no more than 0x10FFFF. -/
def scalarValue (c : Word) : Bool :=
  decide (c.toNat ≤ maxCodepoint) && !(decide (0xD800 ≤ c.toNat) && decide (c.toNat ≤ 0xDFFF))

end Sys2Proof.Machine
end

