-- ==== Sys2Proof/Certificates/Slice0/Obligations.lean ====
section
/-! DEFINITION. Sys2Proof/Certificates/Slice0/Obligations.lean: the statements for the provers. They
come from the numbered rules of spec/. Every statement is about every value of the parameters that
the spec leaves OPEN, since the parameters are a field of the state. `Holds before after a us` (in
Safety.lean) says that a space reads as before but for the units `us` at `a`, `a + 1`, …. -/

open Sys2Proof Sys2Proof.Machine

/-! ## Command words -/

/-- 30_encoding.md R46, R47, R54: a word decodes to a command exactly when it is that command's word,
so no bit of the 32 is dropped and no word has two meanings. -/
def Obligations.WordDecodesToTheCommandItEncodes : Prop :=
  ∀ (v : Word) (i : Instr), decode v = some i ↔ v = encode i

/-- 30_encoding.md R50, whole: which words are illegal, that issuing one raises ILLEGAL_CMD (in a state
whose STATUS.FAULT is 0), and the list of the 15 legal words. -/
def Obligations.IllegalWordsAreAllButFifteen : Prop :=
  ∀ v : Word,
    (decode v = none ↔
      (v.extractLsb' 9 23 ≠ 0#23 ∨
        (v.extractLsb' 0 8 = 0x00#8 ∨ 0x0A ≤ (v.extractLsb' 0 8).toNat) ∨
        (v.extractLsb' 0 8 = 0x01#8 ∨ v.extractLsb' 0 8 = 0x02#8 ∨ v.extractLsb' 0 8 = 0x06#8) ∧
          v.getLsbD 8 = true)) ∧
    (decode v = none → ∀ s : State, s.status.fault = false →
      issue v s = .next { s with status := ⟨false, true, 1#4⟩ }) ∧
    (decode v ≠ none ↔ v ∈ [0x001#32, 0x002#32, 0x003#32, 0x004#32, 0x005#32, 0x006#32, 0x007#32,
      0x008#32, 0x009#32, 0x103#32, 0x104#32, 0x105#32, 0x107#32, 0x108#32, 0x109#32])

/-- Words written out from 30_encoding.md R46 and R47, one of each family, decode to their commands. -/
def Obligations.SampleWordsDecode : Prop :=
  decode 0b00000000000000000000000000000001#32 = some .dec16 ∧
  decode 0b00000000000000000000000000000010#32 = some .dec8 ∧
  decode 0b00000000000000000000000100000011#32 = some .len16 ∧
  decode 0b00000000000000000000000000000100#32 = some .enc8 ∧
  decode 0b00000000000000000000000100000101#32 = some .lenvis ∧
  decode 0b00000000000000000000000000000110#32 = some .fold ∧
  decode 0b00000000000000000000000100000111#32 = some .cvt16to8M ∧
  decode 0b00000000000000000000000000001000#32 = some .cvt8to16 ∧
  decode 0b00000000000000000000000100001001#32 = some .cvt8tovisM ∧
  decode 0b00000000000000000000000100000001#32 = none

/-! ## A step -/

/-- 30_encoding.md R45, whole, and 60_exceptions.md R153, whole: what the host's write of a word to CMD
does when that write is the next host access. The command runs with BUSY = 1 and `endCommand` clears
BUSY. -/
def Obligations.StepIssuesTheCommandWritten : Prop :=
  ∀ (s : State) (v : Word) (rest : List HostOp),
    s.script = .wr .cmd v :: rest → s.status.busy = false →
    (s.status.fault = true → step s = .next { s with script := rest }) ∧
    (s.status.fault = false → decode v = none →
      step s = .next { s with script := rest, status := ⟨false, true, 1#4⟩ }) ∧
    (∀ i, s.status.fault = false → decode v = some i →
      step s = endCommand
        (exec i { s with script := rest, status := ⟨true, false, s.status.cause⟩ }))

/-- A command word placed where the next step takes it runs as the command it names. -/
def Obligations.FetchWordRunsTheCommandItNames : Prop :=
  ∀ (i : Instr) (s : State), s.status.busy = false → s.status.fault = false →
    step (s.withFetchWord 32 (encode i).toNat) =
      endCommand (exec i { s with status := ⟨true, false, s.status.cause⟩ })

/-- 60_exceptions.md R168: an idle engine keeps all its state. -/
def Obligations.IdleEngineKeepsItsState : Prop :=
  ∀ s : State, s.script = [] → step s = .next s

/-- 70_reset_and_hazards.md R175: while BUSY = 1, every host access is refused but a read of STATUS and a
reset, which happen. -/
def Obligations.BusyEngineRefusesTheHost : Prop :=
  ∀ (s : State) (op : HostOp), s.status.busy = true →
    (op ≠ .rd .status → op ≠ .reset → hostStep op s = .refused .hostAccessWhileBusy) ∧
    hostStep (.rd .status) s = .next { s with seen := s.seen ++ [.reg .status s.status.word] } ∧
    hostStep .reset s = .next s.resetEngine

/-! ## Faults -/

/-- 60_exceptions.md R151, whole: a command either records one fault and changes nothing else, or leaves
STATUS alone; while FAULT = 1 a command write does nothing and the host's register accesses still work;
only reset clears FAULT. -/
def Obligations.FaultsArePreciseAndSticky : Prop :=
  (∀ (i : Instr) (s : State),
    (∃ c : Cause, exec i s = .next { s with status := ⟨false, true, c.code⟩ }) ∨
    (∃ t, exec i s = .next t ∧ t.status = s.status)) ∧
  (∀ (v : Word) (s : State), s.status.fault = true → issue v s = .next s) ∧
  (∀ (r : Reg) (v : Word) (s : State), s.status.fault = true → s.status.busy = false →
    hostStep (.wr (.op r) v) s = .next (s.set r v) ∧
    (s.get r = some v → hostStep (.rd (.op r)) s =
      .next { s with seen := s.seen ++ [.reg (.op r) v] })) ∧
  (∀ s t : State, s.status.fault = true → step s = .next t →
    t.status = s.status ∨
    ∃ rest, (s.script = .reset :: rest ∨ ∃ v, s.script = .cmdCutByReset v :: rest) ∧
      t.status = ⟨false, false, 0#4⟩)

/-- The fault that 60_exceptions.md R157 says a legal command reports before its walk, if any. -/
def firstFault (i : Instr) (s : State) : Option Cause :=
  if readsUnwritten i s then some .unwritten
  else if decodesOne i && decide (s.value .slen ≤ s.value .pos) then some .posRange
  else if checksCodepoint i && decide (maxCodepoint < s.value .cp) then some .cpDomain
  else if !sourceAdmitted i s then some .access
  else if !destinationAdmitted i s then some .access
  else if buffersOverlap i s then some .overlap
  else none

/-- The total of CVT16TO8.M is more than 32 bits hold (60_exceptions.md R158, 46_conversions.md R141). -/
def measuresTooMuch (i : Instr) (s : State) : Prop :=
  i = .cvt16to8M ∧ ∃ src n, s.src = some src ∧ s.slen = some n ∧
    2 ^ 32 - 1 < (fullOutput utf8Bytes (sourceText16 s src n)).length

/-- 60_exceptions.md R157, whole, and R152, R154, R155, R156, R158 and R159: an illegal word is reported
before anything is read (where no fault is recorded yet); a command reports the first fault that applies,
in the order of the rule, and completes when none does. COUNT_OVERFLOW is reached by CVT16TO8.M alone. -/
def Obligations.FirstFaultInOrderIsReported : Prop :=
  (∀ (v : Word) (s : State), s.status.fault = false → decode v = none →
    issue v s = .next (s.recordFault .illegalCmd)) ∧
  ∀ (i : Instr) (s : State),
    (∀ c, firstFault i s = some c → exec i s = .next (s.recordFault c)) ∧
    (firstFault i s = none → measuresTooMuch i s →
      exec i s = .next (s.recordFault .countOverflow)) ∧
    (firstFault i s = none → ¬ measuresTooMuch i s →
      ∃ t, exec i s = .next t ∧ t.status = s.status)

/-- 46_conversions.md R140: two ranges overlap exactly when they share a unit. -/
def Obligations.OverlapIsASharedUnit : Prop :=
  ∀ src n dst cap : Nat, overlap src n dst cap = true ↔
    ∃ x, (src ≤ x ∧ x < src + n) ∧ (dst ≤ x ∧ x < dst + cap)

/-! ## The host's side -/

/-- 10_state.md R10: the offsets of the ten registers, and that an offset names one word. That two words
at one host address are the same word, for every base, rests on the MODEL's choices: a 32-bit base and a
sum that does not wrap (log entry 19), and an unused word at every further aligned offset (log entry
14). -/
def Obligations.RegisterBlockLayout : Prop :=
  [BlockReg.cmd, .status, .op .src, .op .slen, .op .pos, .op .dst, .op .dcap, .op .didx, .op .cp,
    .op .cnt].map BlockReg.offset =
    [0x00, 0x04, 0x08, 0x0C, 0x10, 0x14, 0x18, 0x1C, 0x20, 0x24] ∧
  (∀ (r : BlockReg) (off : Nat), BlockReg.ofOffset off = some r ↔ r.offset = off) ∧
  (∀ (p : Params) (r q : BlockReg), r.address p = q.address p → r = q)

/-- 10_state.md R12: host writes and reads of the register block. A write of an operand register changes
that register and nothing else. What an unwritten register gives is
some value, said of no value in particular; CMD reads 0 (R17) and so do the unused words, and STATUS
writes are ignored. -/
def Obligations.HostAccessesTheRegisterBlock : Prop :=
  ∀ (s : State) (r : Reg) (v : Word) (k : Nat), s.status.busy = false →
    (hostStep (.wr (.op r) v) s = .next (s.set r v) ∧ (s.set r v).get r = some v ∧
      (∀ q, q ≠ r → (s.set r v).get q = s.get q) ∧
      (s.set r v).status = s.status ∧ (s.set r v).m16 = s.m16 ∧ (s.set r v).m8 = s.m8 ∧
      (s.set r v).params = s.params ∧ (s.set r v).script = s.script ∧
      (s.set r v).seen = s.seen ∧ (s.set r v).draws = s.draws) ∧
    hostStep (.wr .status v) s = .next s ∧
    hostStep (.wr (.unused k) v) s = .next s ∧
    hostStep (.rd .cmd) s = .next { s with seen := s.seen ++ [.reg .cmd 0#32] } ∧
    hostStep (.rd .status) s = .next { s with seen := s.seen ++ [.reg .status s.status.word] } ∧
    hostStep (.rd (.unused k)) s = .next { s with seen := s.seen ++ [.reg (.unused k) 0#32] } ∧
    (s.get r = some v →
      hostStep (.rd (.op r)) s = .next { s with seen := s.seen ++ [.reg (.op r) v] }) ∧
    (s.get r = none → ∃ u : Word, hostStep (.rd (.op r)) s =
      .next { s with seen := s.seen ++ [.reg (.op r) u], draws := s.draws + 1 })

/-- 10_state.md R15 and the codes of 60_exceptions.md R150: STATUS as the host reads it, field by field,
every value that is legal, and STATUS after each of the seven faults, in the order of their codes. -/
def Obligations.StatusWordShowsItsFields : Prop :=
  ∀ st : Status,
    st.word.getLsbD 0 = st.busy ∧ st.word.getLsbD 1 = st.fault ∧
    st.word.extractLsb' 2 2 = 0#2 ∧ st.word.extractLsb' 4 4 = st.cause ∧
    st.word.extractLsb' 8 24 = 0#24 ∧
    (st.legal = true ↔
      (st.fault = false ∧ st.cause = 0#4) ∨
      (st.fault = true ∧ 1 ≤ st.cause.toNat ∧ st.cause.toNat ≤ 7)) ∧
    [Cause.illegalCmd, .unwritten, .posRange, .cpDomain, .access, .overlap, .countOverflow].map
      (fun c => (st.record c).word) =
      [0x12#32, 0x22#32, 0x32#32, 0x42#32, 0x52#32, 0x62#32, 0x72#32]

/-- 10_state.md R29: STATUS reads 0 and every operand register is unwritten in the reset state. -/
def Obligations.ResetStateIsAsSpecified : Prop :=
  State.reset.status.word = 0x00000000#32 ∧ ∀ r : Reg, State.reset.get r = none

/-- 70_reset_and_hazards.md R170 while no command runs: STATUS 0, every operand register unwritten, the
tables, the other parameters and both spaces unchanged. -/
def Obligations.ResetClearsRegistersAndKeepsMemory : Prop :=
  ∀ (s : State) (rest : List HostOp), s.script = .reset :: rest →
    ∃ t, step s = .next t ∧ t.status.word = 0x00000000#32 ∧ (∀ r : Reg, t.get r = none) ∧
      t.params = s.params ∧ t.m16 = s.m16 ∧ t.m8 = s.m8 ∧
      t.script = rest ∧ t.seen = s.seen ∧ t.draws = s.draws

/-- 70_reset_and_hazards.md R170 while a command runs, with the treatment of 93_implementation_defined.md
I6: every unit is as it was or as the command would have left it, whichever the free values say; the
rest is as after any reset. -/
def Obligations.CommandCutByResetLeavesOldOrNewUnits : Prop :=
  ∀ (s : State) (v : Word) (rest : List HostOp),
    s.script = .cmdCutByReset v :: rest → s.status.busy = false →
    ∃ whole t, issue v { s with script := rest } = .next whole ∧ step s = .next t ∧
      t.status.word = 0x00000000#32 ∧ (∀ r : Reg, t.get r = none) ∧
      t.params = s.params ∧ t.script = rest ∧ t.seen = s.seen ∧
      (∀ a, t.m16.read a = s.m16.read a ∨ t.m16.read a = whole.m16.read a) ∧
      (∀ a, t.m8.read a = s.m8.read a ∨ t.m8.read a = whole.m8.read a)

/-- 20_memory.md R31, R40: a host write of a unit that exists is what a later host read of it gives, and
changes no other unit and not the other space; an access to a unit that does not exist stops. -/
def Obligations.HostUnitsHoldWhatTheHostWrote : Prop :=
  ∀ (s : State) (a : Word) (u : Unit16) (b : Byte), s.status.busy = false →
    (admits s.params.admit16 a.toNat = true →
      (∃ t, hostStep (.store16 a u) s = .next t ∧ t = { s with m16 := t.m16 } ∧
        Holds s.m16 t.m16 a.toNat [u] ∧
        hostStep (.load16 a) t = .next { t with seen := t.seen ++ [.unit16 a u] })) ∧
    (admits s.params.admit8 a.toNat = true →
      (∃ t, hostStep (.store8 a b) s = .next t ∧ t = { s with m8 := t.m8 } ∧
        Holds s.m8 t.m8 a.toNat [b] ∧
        hostStep (.load8 a) t = .next { t with seen := t.seen ++ [.unit8 a b] })) ∧
    (admits s.params.admit16 a.toNat = false →
      hostStep (.store16 a u) s = .fault .hostUnitAbsent ∧
      hostStep (.load16 a) s = .fault .hostUnitAbsent) ∧
    (admits s.params.admit8 a.toNat = false →
      hostStep (.store8 a b) s = .fault .hostUnitAbsent ∧
      hostStep (.load8 a) s = .fault .hostUnitAbsent)

/-! ## Memory and the whole machine -/

/-- 20_memory.md R33, whole: the computed checks, of one unit and of a range, are the rule's. The spans
are how the model holds the predicates `P_ADMIT16` and `P_ADMIT8` (log entry 3). -/
def Obligations.AdmittedRangeIsEveryUnitAdmitted : Prop :=
  (∀ (spans : List Span) (a : Nat), admits spans a = true ↔
    a < 2 ^ 32 ∧ ∃ sp ∈ spans, sp.lo ≤ a ∧ a < sp.hi) ∧
  ∀ (spans : List Span) (b n : Nat), admitted spans b n = true ↔
    b + n ≤ 2 ^ 32 ∧ ∀ k < n, ∃ sp ∈ spans, sp.lo ≤ b + k ∧ b + k < sp.hi

/-- The invariant holds right after reset. -/
def Obligations.ResetHasInvariant : Prop := State.reset.inv = true

/-- The invariant of `State.inv`, kept by every step: BUSY = 0 between host accesses (10_state.md R16),
STATUS legal (R15), both spaces in canonical form, and no unit listed that the launch memory does not
have (20_memory.md R33). -/
def Obligations.StepKeepsInvariant : Prop :=
  ∀ s t : State, s.inv = true → step s = .next t → t.inv = true

/-- From a safe state a step never stops, and leads to a safe state: neither a fault nor a refusal is
ever reached (60_exceptions.md R160: the engine's own conditions are values or records). -/
def Obligations.SafeStateStepsToSafeState : Prop :=
  ∀ s : State, s.safe = true → ∃ t, step s = .next t ∧ t.safe = true

/-- 10_state.md R26, R27, 70_reset_and_hazards.md R172: no step changes a table or another parameter. -/
def Obligations.ParametersNeverChange : Prop :=
  ∀ s t : State, step s = .next t → t.params = s.params

/-- 30_encoding.md R52, the columns marked w: a command changes no register but those, and neither the
host's accesses nor what the host has read. -/
def Obligations.CommandsWriteOnlyTheirRegisters : Prop :=
  ∀ (i : Instr) (s t : State), exec i s = .next t →
    (∀ r, r ∉ writesOf i → t.get r = s.get r) ∧
    t.params = s.params ∧ t.script = s.script ∧ t.seen = s.seen ∧ t.draws = s.draws

/-- 30_encoding.md R52, the columns marked r: what a command does depends on no register but those. Two
states that agree on them (and on the memory, the parameters and STATUS) get the same STATUS, the same
memory and, when the command completes, the same results. -/
def Obligations.CommandsDependOnlyOnRegistersRead : Prop :=
  ∀ (i : Instr) (s s' : State),
    (∀ r ∈ readsOf i, s.get r = s'.get r) → s.params = s'.params → s.status = s'.status →
    s.m16 = s'.m16 → s.m8 = s'.m8 →
    ∃ t t', exec i s = .next t ∧ exec i s' = .next t' ∧
      t.status = t'.status ∧ t.m16 = t'.m16 ∧ t.m8 = t'.m8 ∧
      ((∀ r ∈ writesOf i, t.get r = t'.get r) ∨
        ∃ c : Cause, t = s.recordFault c ∧ t' = s'.recordFault c)

/-- 20_memory.md R32: which spaces a command may change, and within them only the buffer the registers
name: FOLD's source, or the destination. -/
def Obligations.CommandsChangeOnlyTheirBuffers : Prop :=
  ∀ (i : Instr) (s t : State), exec i s = .next t →
    (writesM16 i = false → t.m16 = s.m16) ∧
    (writesM8 i = false → t.m8 = s.m8) ∧
    (∀ x, (x < s.value .dst ∨ s.value .dst + s.value .dcap ≤ x) →
      t.m16.read x = s.m16.read x ∧ (i ≠ .fold → t.m8.read x = s.m8.read x)) ∧
    (∀ x, (x < s.value .src ∨ s.value .src + s.value .slen ≤ x) →
      i = .fold → t.m8.read x = s.m8.read x)

/-- 20_memory.md R35: no rule reads `P_HOST_U16_ORDER`, and no step does. That no step reads `P_REG_BASE`
either is the MODEL's choice and no rule's: its host accesses name a word of the block and not a host
address (log entries 14 and 19). -/
def Obligations.HostOrderAndBaseAreNotRead : Prop :=
  ∀ (s t : State) (o : U16Order) (b : Word), step s = .next t →
    step { s with params := { s.params with hostU16Order := o, regBase := b } } =
      .next { t with params := { t.params with hostU16Order := o, regBase := b } }

/-! ## Decoders -/

/-- DEC16 (40_utf16_decoder.md R63, R64, R66): for every written SRC, SLEN and POS with POS below SLEN
and an admitted source it completes, in the five cases B, L, E, N and P, and changes CP and POS alone. -/
def Obligations.Dec16HasFiveOutcomes : Prop :=
  ∀ (s : State) (src n p : Word) (u v : Unit16),
    s.src = some src → s.slen = some n → s.pos = some p → p.toNat < n.toNat →
    admitted s.params.admit16 src.toNat n.toNat = true →
    u = s.m16.read (src.toNat + p.toNat) → v = s.m16.read (src.toNat + p.toNat + 1) →
    (u.toNat < 0xD800 ∨ 0xDFFF < u.toNat →
      exec .dec16 s = .next { s with cp := some (u.setWidth 32), pos := some p }) ∧
    (0xDC00 ≤ u.toNat ∧ u.toNat ≤ 0xDFFF →
      exec .dec16 s = .next { s with cp := some 0xFFFD#32, pos := some p }) ∧
    (0xD800 ≤ u.toNat ∧ u.toNat ≤ 0xDBFF → p.toNat + 1 = n.toNat →
      exec .dec16 s = .next { s with cp := some 0xFFFD#32, pos := some p }) ∧
    (0xD800 ≤ u.toNat ∧ u.toNat ≤ 0xDBFF → p.toNat + 1 < n.toNat →
      (v.toNat < 0xDC00 ∨ 0xDFFF < v.toNat) →
      exec .dec16 s = .next { s with cp := some 0xFFFD#32, pos := some p }) ∧
    (0xD800 ≤ u.toNat ∧ u.toNat ≤ 0xDBFF → p.toNat + 1 < n.toNat →
      (0xDC00 ≤ v.toNat ∧ v.toNat ≤ 0xDFFF) →
      exec .dec16 s = .next { s with
        cp := some (BitVec.ofNat 32
          ((u.toNat - 0xD800) * 1024 + (v.toNat - 0xDC00) + 0x10000)),
        pos := some (p + 1#32) })

/-- 40_utf16_decoder.md R65: the index the decode ends at, the codepoint's range, and that it reads only
the units it says it reads, which lie below n. -/
def Obligations.Utf16DecodeStaysInsideItsSource : Prop :=
  ∀ (rd : Nat → Unit16) (n p : Nat), p < n →
    (p ≤ (utf16Decode rd n p).last ∧ (utf16Decode rd n p).last ≤ p + 1) ∧
    (utf16Decode rd n p).last < n ∧
    scalarValue (utf16Decode rd n p).cp = true ∧
    (1 ≤ (utf16Decode rd n p).units ∧ (utf16Decode rd n p).units ≤ 2 ∧
      p + (utf16Decode rd n p).units ≤ n) ∧
    (∀ rd' : Nat → Unit16,
      (∀ k, p ≤ k → k < p + (utf16Decode rd n p).units → rd' k = rd k) →
      utf16Decode rd' n p = utf16Decode rd n p)

/-- DEC8 (41_utf8_decoder.md R78): for every written SRC, SLEN and POS with POS below SLEN and an
admitted source it completes with what `Utf8Decode` yields, POS exactly the index, and changes CP and
POS alone. -/
def Obligations.Dec8WritesWhatTheWalkYields : Prop :=
  ∀ (s : State) (src n p : Word) (d : Decoded),
    s.src = some src → s.slen = some n → s.pos = some p → p.toNat < n.toNat →
    admitted s.params.admit8 src.toNat n.toNat = true →
    d = utf8Decode s.params.failPos (source8 s.m8 src) n.toNat p.toNat →
    ∃ q : Word, q.toNat = d.last ∧
      exec .dec8 s = .next { s with cp := some d.cp, pos := some q }

/-- 41_utf8_decoder.md R73, R76, R77: `Utf8Decode` yields a codepoint other than a substitution exactly
where the source holds, from p on and below n, the bytes the encoder makes of it (R96), and then it
consumes those; anywhere else it yields U+FFFD. -/
def Obligations.Utf8DecodeAcceptsExactlyTheEncodersBytes : Prop :=
  ∀ (fp : FailPos) (rd : Nat → Byte) (n p : Nat), p < n →
    (∀ c : Word, scalarValue c = true → p + utf8MinLen c ≤ n →
      (∀ k < utf8MinLen c, rd (p + k) = (utf8Bytes c).getD k 0) →
      utf8Decode fp rd n p = ⟨c, p + utf8MinLen c - 1, utf8MinLen c⟩) ∧
    ((∀ c : Word, scalarValue c = true → p + utf8MinLen c ≤ n →
      ∃ k < utf8MinLen c, rd (p + k) ≠ (utf8Bytes c).getD k 0) →
      (utf8Decode fp rd n p).cp = 0xFFFD#32)

/-- How many continuation bytes a leading byte announces (41_utf8_decoder.md R70: L - 1), and 0 for a
byte that is no leading byte, with which nothing is accepted (R75, case X). -/
def announcedContinuations (b : Byte) : Nat :=
  if b.toNat ≤ 0xBF then 0
  else if b.toNat ≤ 0xDF then 1
  else if b.toNat ≤ 0xEF then 2
  else if b.toNat ≤ 0xF7 then 3
  else 0

/-- 41_utf8_decoder.md R73, R74, R75, R76: the index a failed decode ends at under each setting (LEAD: p;
CONSUMED: p + k, with k the continuation bytes accepted, which are as many as stand after the leading
byte, below n, up to the number it announces), the bounds of the index, that the settings differ in
nothing else, and that it reads only the bytes it says it reads, which lie below n. -/
def Obligations.Utf8DecodeStaysInsideItsSource : Prop :=
  ∀ (rd : Nat → Byte) (n p : Nat), p < n →
    (utf8Decode .lead rd n p).cp = (utf8Decode .consumed rd n p).cp ∧
    (utf8Decode .lead rd n p).units = (utf8Decode .consumed rd n p).units ∧
    ((utf8Decode .lead rd n p).last = (utf8Decode .consumed rd n p).last ∨
      ((utf8Decode .lead rd n p).cp = 0xFFFD#32 ∧ (utf8Decode .lead rd n p).last = p)) ∧
    ((∀ c : Word, scalarValue c = true → p + utf8MinLen c ≤ n →
        ∃ k < utf8MinLen c, rd (p + k) ≠ (utf8Bytes c).getD k 0) →
      (utf8Decode .lead rd n p).last = p ∧
      ∃ k ≤ announcedContinuations (rd p),
        (utf8Decode .consumed rd n p).last = p + k ∧
        (∀ j, 1 ≤ j → j ≤ k →
          p + j < n ∧ 0x80 ≤ (rd (p + j)).toNat ∧ (rd (p + j)).toNat ≤ 0xBF) ∧
        (k = announcedContinuations (rd p) ∨ n ≤ p + k + 1 ∨
          (rd (p + k + 1)).toNat < 0x80 ∨ 0xBF < (rd (p + k + 1)).toNat)) ∧
    ∀ fp : FailPos,
      (p ≤ (utf8Decode fp rd n p).last ∧ (utf8Decode fp rd n p).last ≤ p + 3) ∧
      (utf8Decode fp rd n p).last < n ∧
      scalarValue (utf8Decode fp rd n p).cp = true ∧
      (1 ≤ (utf8Decode fp rd n p).units ∧ (utf8Decode fp rd n p).units ≤ 4 ∧
        p + (utf8Decode fp rd n p).units ≤ n) ∧
      (∀ rd' : Nat → Byte,
        (∀ k, p ≤ k → k < p + (utf8Decode fp rd n p).units → rd' k = rd k) →
        utf8Decode fp rd' n p = utf8Decode fp rd n p)

/-! ## Encoders -/

/-- LEN16, LEN8 and LENVIS (42_utf16_encoder.md R85, R88, 43_utf8_encoder.md R98, 41_utf8_decoder.md R72,
44_viscii_encoder.md R109): for every written CP up to 0x10FFFF they complete and change CNT alone. -/
def Obligations.LengthCommandsCount : Prop :=
  ∀ (s : State) (c : Word), s.cp = some c → c.toNat ≤ 0x10FFFF →
    exec .len16 s = .next { s with cnt := some (if c.toNat ≤ 0xFFFF then 1#32 else 2#32) } ∧
    exec .len8 s = .next { s with cnt := some (
      if c.toNat ≤ 0x7F then 1#32 else if c.toNat ≤ 0x7FF then 2#32
      else if c.toNat ≤ 0xFFFF then 3#32 else 4#32) } ∧
    exec .lenvis s = .next { s with cnt := some 1#32 }

/-- ENC16 (42_utf16_encoder.md R86, R87, R89): one unit or a surrogate pair at DST + DIDX where it fits,
nothing but CNT = 0 where it does not. -/
def Obligations.Enc16WritesUnitsOrNothing : Prop :=
  ∀ (s : State) (c dst cap i : Word),
    s.cp = some c → s.dst = some dst → s.dcap = some cap → s.didx = some i →
    c.toNat ≤ 0x10FFFF → admitted s.params.admit16 dst.toNat cap.toNat = true →
    (c.toNat ≤ 0xFFFF → i.toNat + 1 ≤ cap.toNat →
      ∃ t, exec .enc16 s = .next t ∧ t = { s with m16 := t.m16, cnt := some 1#32 } ∧
        Holds s.m16 t.m16 (dst.toNat + i.toNat) [BitVec.ofNat 16 c.toNat]) ∧
    (0xFFFF < c.toNat → i.toNat + 2 ≤ cap.toNat →
      ∃ t, exec .enc16 s = .next t ∧ t = { s with m16 := t.m16, cnt := some 2#32 } ∧
        Holds s.m16 t.m16 (dst.toNat + i.toNat)
          [BitVec.ofNat 16 (0xD800 + (c.toNat - 0x10000) / 1024),
           BitVec.ofNat 16 (0xDC00 + (c.toNat - 0x10000) % 1024)]) ∧
    (cap.toNat < i.toNat + utf16Len c → exec .enc16 s = .next { s with cnt := some 0#32 })

/-- ENC8 (43_utf8_encoder.md R97, R99): the bytes of the codepoint at DST + DIDX where they fit, nothing
but CNT = 0 where they do not. -/
def Obligations.Enc8WritesBytesOrNothing : Prop :=
  ∀ (s : State) (c dst cap i : Word),
    s.cp = some c → s.dst = some dst → s.dcap = some cap → s.didx = some i →
    c.toNat ≤ 0x10FFFF → admitted s.params.admit8 dst.toNat cap.toNat = true →
    (i.toNat + utf8MinLen c ≤ cap.toNat →
      ∃ t, exec .enc8 s = .next t ∧
        t = { s with m8 := t.m8, cnt := some (BitVec.ofNat 32 (utf8MinLen c)) } ∧
        (utf8Bytes c).length = utf8MinLen c ∧
        Holds s.m8 t.m8 (dst.toNat + i.toNat) (utf8Bytes c)) ∧
    (cap.toNat < i.toNat + utf8MinLen c → exec .enc8 s = .next { s with cnt := some 0#32 })

/-- 42_utf16_encoder.md R89 and 43_utf8_encoder.md R99, whole: for every codepoint the length command
completes with the length; the encoder with room completes, writes exactly that many units, those of the
codepoint and no other unit, and gives the same count. -/
def Obligations.EncodersWriteAsManyUnitsAsTheirLengthsCount : Prop :=
  ∀ (s : State) (c : Word), s.cp = some c → c.toNat ≤ 0x10FFFF →
    (∃ k : Word, k.toNat = utf16Len c ∧ exec .len16 s = .next { s with cnt := some k } ∧
      (utf16Units c).length = utf16Len c ∧
      ∀ dst cap i : Word, s.dst = some dst → s.dcap = some cap → s.didx = some i →
        admitted s.params.admit16 dst.toNat cap.toNat = true → i.toNat + utf16Len c ≤ cap.toNat →
        ∃ t : State, exec .enc16 s = .next { s with m16 := t.m16, cnt := some k } ∧
          Holds s.m16 t.m16 (dst.toNat + i.toNat) (utf16Units c)) ∧
    (∃ k : Word, k.toNat = utf8MinLen c ∧ exec .len8 s = .next { s with cnt := some k } ∧
      (utf8Bytes c).length = utf8MinLen c ∧
      ∀ dst cap i : Word, s.dst = some dst → s.dcap = some cap → s.didx = some i →
        admitted s.params.admit8 dst.toNat cap.toNat = true → i.toNat + utf8MinLen c ≤ cap.toNat →
        ∃ t : State, exec .enc8 s = .next { s with m8 := t.m8, cnt := some k } ∧
          Holds s.m8 t.m8 (dst.toNat + i.toNat) (utf8Bytes c))

/-- 43_utf8_encoder.md R95, R96: the bytes of a codepoint, by length, in the order they stand in the
destination; a surrogate value is encoded like any other. -/
def Obligations.Utf8BytesFollowTheTemplates : Prop :=
  ∀ c : Word, c.toNat ≤ 0x10FFFF →
    (utf8Bytes c).map BitVec.toNat =
      if c.toNat ≤ 0x7F then [c.toNat]
      else if c.toNat ≤ 0x7FF then [0xC0 + c.toNat / 64, 0x80 + c.toNat % 64]
      else if c.toNat ≤ 0xFFFF then
        [0xE0 + c.toNat / 4096, 0x80 + c.toNat / 64 % 64, 0x80 + c.toNat % 64]
      else
        [0xF0 + c.toNat / 262144, 0x80 + c.toNat / 4096 % 64, 0x80 + c.toNat / 64 % 64,
         0x80 + c.toNat % 64]

/-- ENCVIS (44_viscii_encoder.md R108, R110): one byte at DST + DIDX where there is room, nothing but
CNT = 0 where there is none. -/
def Obligations.EncvisWritesOneByteOrNothing : Prop :=
  ∀ (s : State) (c dst cap i : Word),
    s.cp = some c → s.dst = some dst → s.dcap = some cap → s.didx = some i →
    c.toNat ≤ 0x10FFFF → admitted s.params.admit8 dst.toNat cap.toNat = true →
    (i.toNat < cap.toNat →
      ∃ t, exec .encvis s = .next t ∧ t = { s with m8 := t.m8, cnt := some 1#32 } ∧
        Holds s.m8 t.m8 (dst.toNat + i.toNat) [visByte s.params.encTable c]) ∧
    (cap.toNat ≤ i.toNat → exec .encvis s = .next { s with cnt := some 0#32 })

/-- 44_viscii_encoder.md R106, R107, and the row the source gives (R105): the table first, by its ONE row
for the codepoint, then the passthrough below 0xFF, then '?'; for every conforming table. -/
def Obligations.VisByteIsTableThenPassthroughThenQuestionMark : Prop :=
  ∀ (tab : EncTable) (c : Word),
    (∀ row ∈ tab.rows, row.cp = c → visByte tab c = row.byte) ∧
    ((∀ row ∈ tab.rows, row.cp ≠ c) → c.toNat < 0xFF → (visByte tab c).toNat = c.toNat) ∧
    ((∀ row ∈ tab.rows, row.cp ≠ c) → 0xFF ≤ c.toNat → visByte tab c = 0x3F#8) ∧
    visByte tab 0x1EC7#32 = 0xAE#8

/-- 42_utf16_encoder.md R90, 95_test_vectors.md S1, S2: a scalar value that ENC16 writes with room is what
DEC16 reads back from there, and DEC16 consumes exactly the units written. -/
def Obligations.Enc16ThenDec16GivesBackTheCodepoint : Prop :=
  ∀ (s t u : State) (c dst cap i n : Word),
    s.cp = some c → s.dst = some dst → s.dcap = some cap → s.didx = some i →
    scalarValue c = true → admitted s.params.admit16 dst.toNat cap.toNat = true →
    i.toNat + utf16Len c ≤ cap.toNat → exec .enc16 s = .next t →
    u.m16 = t.m16 → u.src = some dst → u.slen = some n → u.pos = some i →
    i.toNat + utf16Len c ≤ n.toNat → admitted u.params.admit16 dst.toNat n.toNat = true →
    exec .dec16 u = .next { u with
      cp := some c, pos := some (BitVec.ofNat 32 (i.toNat + utf16Len c - 1)) }

/-- 43_utf8_encoder.md R100, 95_test_vectors.md S1, S2: a scalar value that ENC8 writes with room is what
DEC8 reads back from there, under either setting of `P_UTF8_FAIL_POS`, and DEC8 consumes exactly the
bytes written. -/
def Obligations.Enc8ThenDec8GivesBackTheCodepoint : Prop :=
  ∀ (s t u : State) (c dst cap i n : Word),
    s.cp = some c → s.dst = some dst → s.dcap = some cap → s.didx = some i →
    scalarValue c = true → admitted s.params.admit8 dst.toNat cap.toNat = true →
    i.toNat + utf8MinLen c ≤ cap.toNat → exec .enc8 s = .next t →
    u.m8 = t.m8 → u.src = some dst → u.slen = some n → u.pos = some i →
    i.toNat + utf8MinLen c ≤ n.toNat → admitted u.params.admit8 dst.toNat n.toNat = true →
    exec .dec8 u = .next { u with
      cp := some c, pos := some (BitVec.ofNat 32 (i.toNat + utf8MinLen c - 1)) }

/-! ## The case folder -/

/-- 45_case_folder.md R121 and the row the source gives (R120): ASCII first, then the table's ONE row
for the byte as a lower byte, else the byte itself; for every conforming table. -/
def Obligations.FoldByteIsAsciiThenTable : Prop :=
  ∀ (tab : CaseTable) (b : Byte),
    (0x61 ≤ b.toNat → b.toNat ≤ 0x7A → (foldByte tab b).toNat = b.toNat - 0x20) ∧
    (b.toNat < 0x61 ∨ 0x7A < b.toNat →
      (∀ row ∈ tab.rows, row.lower = b → foldByte tab b = row.upper) ∧
      ((∀ row ∈ tab.rows, row.lower ≠ b) → foldByte tab b = b)) ∧
    foldByte tab 0xAE#8 = 0x8E#8

/-- FOLD (45_case_folder.md R122, R123): it completes for every written SRC and SLEN with an admitted
buffer, changes no register, gives each byte of the buffer its folded value, and leaves every other byte
and M16 alone: the pass in place is the same as folding a copy. -/
def Obligations.FoldUppercasesItsBufferInPlace : Prop :=
  ∀ (s : State) (src n : Word),
    s.src = some src → s.slen = some n → admitted s.params.admit8 src.toNat n.toNat = true →
    ∃ t, exec .fold s = .next t ∧ t = { s with m8 := t.m8 } ∧
      ∀ x, t.m8.read x =
        if src.toNat ≤ x ∧ x < src.toNat + n.toNat then foldByte s.params.caseTable (s.m8.read x)
        else s.m8.read x

/-- 45_case_folder.md R125, whole: FOLD is idempotent exactly when every folded byte is a fixed point;
three conditions on the table are enough for that; the default table meets them. -/
def Obligations.FoldIsIdempotentExactlyOnFixedPoints : Prop :=
  (∀ tab : CaseTable,
    (∀ b, foldByte tab (foldByte tab b) = foldByte tab b) ↔
    (∀ s t : State, s.params.caseTable = tab → exec .fold s = .next t → exec .fold t = .next t)) ∧
  (∀ tab : CaseTable,
    (∀ row ∈ tab.rows, row.upper.toNat < 0x61 ∨ 0x7A < row.upper.toNat) →
    (∀ row ∈ tab.rows, ∀ row' ∈ tab.rows, row.upper ≠ row'.lower) →
    (∀ row ∈ tab.rows, row.lower.toNat < 0x41 ∨ 0x5A < row.lower.toNat) →
    ∀ b, foldByte tab (foldByte tab b) = foldByte tab b) ∧
  (∀ row ∈ defaultCaseRows,
    (row.upper.toNat < 0x61 ∨ 0x7A < row.upper.toNat) ∧
    (∀ row' ∈ defaultCaseRows, row.upper ≠ row'.lower) ∧
    (row.lower.toNat < 0x41 ∨ 0x5A < row.lower.toNat))

/-! ## Conversions -/

/-- CVT16TO8 (46_conversions.md R130, R133, R134): it completes for every written SRC, SLEN, DST and DCAP
with admitted ranges; the destination gets the UTF-8 of the decoded source, less each character that does
not fit where its turn comes, and CNT their length. -/
def Obligations.Cvt16to8WritesWhatFits : Prop :=
  ∀ (s : State) (src n dst cap : Word) (out : List Byte),
    s.src = some src → s.slen = some n → s.dst = some dst → s.dcap = some cap →
    admitted s.params.admit16 src.toNat n.toNat = true →
    admitted s.params.admit8 dst.toNat cap.toNat = true →
    out = fittingOutput utf8Bytes cap.toNat 0 (sourceText16 s src n) →
    out.length ≤ cap.toNat ∧
    ∃ t, exec .cvt16to8 s = .next t ∧
      t = { s with m8 := t.m8, cnt := some (BitVec.ofNat 32 out.length) } ∧
      Holds s.m8 t.m8 dst.toNat out

/-- CVT8TO16 (46_conversions.md R130, R133, R135), in the same way. -/
def Obligations.Cvt8to16WritesWhatFits : Prop :=
  ∀ (s : State) (src n dst cap : Word) (out : List Unit16),
    s.src = some src → s.slen = some n → s.dst = some dst → s.dcap = some cap →
    admitted s.params.admit8 src.toNat n.toNat = true →
    admitted s.params.admit16 dst.toNat cap.toNat = true →
    out = fittingOutput utf16Units cap.toNat 0 (sourceText8 s src n) →
    out.length ≤ cap.toNat ∧
    ∃ t, exec .cvt8to16 s = .next t ∧
      t = { s with m16 := t.m16, cnt := some (BitVec.ofNat 32 out.length) } ∧
      Holds s.m16 t.m16 dst.toNat out

/-- CVT8TOVIS (46_conversions.md R130, R133, R136, R140), in the same way, for ranges that do not
overlap: no write changes a byte of the source that is still to be read. -/
def Obligations.Cvt8tovisWritesWhatFits : Prop :=
  ∀ (s : State) (src n dst cap : Word) (out : List Byte),
    s.src = some src → s.slen = some n → s.dst = some dst → s.dcap = some cap →
    admitted s.params.admit8 src.toNat n.toNat = true →
    admitted s.params.admit8 dst.toNat cap.toNat = true →
    overlap src.toNat n.toNat dst.toNat cap.toNat = false →
    out = fittingOutput (visUnits s.params.encTable) cap.toNat 0 (sourceText8 s src n) →
    out.length ≤ cap.toNat ∧
    ∃ t, exec .cvt8tovis s = .next t ∧
      t = { s with m8 := t.m8, cnt := some (BitVec.ofNat 32 out.length) } ∧
      Holds s.m8 t.m8 dst.toNat out

/-- CVT16TO8.M (46_conversions.md R137, R141): for every written SRC and SLEN with an admitted source it
writes the full length to CNT, or raises COUNT_OVERFLOW where 32 bits do not hold it. -/
def Obligations.Cvt16to8MeasureCountsOrOverflows : Prop :=
  ∀ (s : State) (src n : Word) (total : Nat),
    s.src = some src → s.slen = some n → admitted s.params.admit16 src.toNat n.toNat = true →
    total = (fullOutput utf8Bytes (sourceText16 s src n)).length →
    (total ≤ 2 ^ 32 - 1 →
      exec .cvt16to8M s = .next { s with cnt := some (BitVec.ofNat 32 total) }) ∧
    (2 ^ 32 - 1 < total → exec .cvt16to8M s = .next { s with status := ⟨false, true, 7#4⟩ })

/-- CVT8TO16.M and CVT8TOVIS.M (46_conversions.md R138, R139, R141): for every written SRC and SLEN with
an admitted source they write the full length, which is at most SLEN, to CNT. -/
def Obligations.Utf8MeasuresCount : Prop :=
  ∀ (s : State) (src n : Word),
    s.src = some src → s.slen = some n → admitted s.params.admit8 src.toNat n.toNat = true →
    ((fullOutput utf16Units (sourceText8 s src n)).length ≤ n.toNat ∧
      exec .cvt8to16M s = .next { s with
        cnt := some (BitVec.ofNat 32 (fullOutput utf16Units (sourceText8 s src n)).length) }) ∧
    ((sourceText8 s src n).length ≤ n.toNat ∧
      exec .cvt8tovisM s = .next { s with
        cnt := some (BitVec.ofNat 32 (sourceText8 s src n).length) })

/-- 46_conversions.md R142, whole: in each direction, where the measure form has given T, the write form
on the same source with DCAP at least T gives CNT = T and writes exactly the full output at DST. -/
def Obligations.MeasureAndWriteAgree : Prop :=
  ∀ (s m s' : State) (src n dst cap T : Word),
    s.status.fault = false → m.status.fault = false → m.cnt = some T →
    s.src = some src → s.slen = some n →
    s'.src = some src → s'.slen = some n → s'.dst = some dst → s'.dcap = some cap →
    s'.params = s.params → T.toNat ≤ cap.toNat →
    (exec .cvt16to8M s = .next m →
      (∀ k < n.toNat, s'.m16.read (src.toNat + k) = s.m16.read (src.toNat + k)) →
      admitted s'.params.admit8 dst.toNat cap.toNat = true →
      ∃ t, exec .cvt16to8 s' = .next t ∧ t = { s' with m8 := t.m8, cnt := some T } ∧
        (fullOutput utf8Bytes (sourceText16 s src n)).length = T.toNat ∧
        Holds s'.m8 t.m8 dst.toNat (fullOutput utf8Bytes (sourceText16 s src n))) ∧
    (exec .cvt8to16M s = .next m →
      (∀ k < n.toNat, s'.m8.read (src.toNat + k) = s.m8.read (src.toNat + k)) →
      admitted s'.params.admit16 dst.toNat cap.toNat = true →
      ∃ t, exec .cvt8to16 s' = .next t ∧ t = { s' with m16 := t.m16, cnt := some T } ∧
        (fullOutput utf16Units (sourceText8 s src n)).length = T.toNat ∧
        Holds s'.m16 t.m16 dst.toNat (fullOutput utf16Units (sourceText8 s src n))) ∧
    (exec .cvt8tovisM s = .next m →
      (∀ k < n.toNat, s'.m8.read (src.toNat + k) = s.m8.read (src.toNat + k)) →
      admitted s'.params.admit8 dst.toNat cap.toNat = true →
      overlap src.toNat n.toNat dst.toNat cap.toNat = false →
      ∃ t, exec .cvt8tovis s' = .next t ∧ t = { s' with m8 := t.m8, cnt := some T } ∧
        (fullOutput (visUnits s.params.encTable) (sourceText8 s src n)).length = T.toNat ∧
        Holds s'.m8 t.m8 dst.toNat
          (fullOutput (visUnits s.params.encTable) (sourceText8 s src n)))

/-- 46_conversions.md R131: the driving loop runs at most n times: with n turns it has ended, and more
turns change nothing, whatever it emits. -/
def Obligations.ConversionEndsWithinItsSource : Prop :=
  ∀ (emit : Word → Nat → Run → Run × Nat) (fp : FailPos) (src n : Word) (extra : Nat) (r : Run),
    convertFrom (decodeSource16 src n) emit n.toNat (n.toNat + extra) 0 0 r =
      convert (decodeSource16 src n) emit n.toNat r ∧
    convertFrom (decodeSource8 fp src n) emit n.toNat (n.toNat + extra) 0 0 r =
      convert (decodeSource8 fp src n) emit n.toNat r

/-- 46_conversions.md R141: the bounds on what a text of SLEN units measures. -/
def Obligations.MeasuredTotalsAreBounded : Prop :=
  ∀ (s : State) (src n : Word),
    (fullOutput utf8Bytes (sourceText16 s src n)).length ≤ 3 * n.toNat ∧
    (fullOutput utf16Units (sourceText8 s src n)).length ≤ n.toNat ∧
    (fullOutput (visUnits s.params.encTable) (sourceText8 s src n)).length ≤ n.toNat

/-- 70_reset_and_hazards.md R181, the entries of its table that are not 0, and the writes of the measure
forms: the bounds on the units the decode walks read, the encoders write, and FOLD and the conversions
read and write. The entries that are 0 are `NoMemoryAccessWhereTheTableGivesZero`. The counts are the
model's own (log entry 15). -/
def Obligations.MemoryAccessesAreBounded : Prop :=
  ∀ (s : State) (src n dst cap c i : Word),
    (∀ rd p, (utf16Decode rd n.toNat p).units ≤ 2) ∧
    (∀ fp rd p, (utf8Decode fp rd n.toNat p).units ≤ 4) ∧
    (enc16At dst.toNat cap.toNat c i.toNat s.startRun).1.writes ≤ 2 ∧
    (enc8At dst.toNat cap.toNat c i.toNat s.startRun).1.writes ≤ 4 ∧
    (encVisAt s.params.encTable dst.toNat cap.toNat c i.toNat s.startRun).1.writes ≤ 1 ∧
    (foldPass s.params.caseTable n.toNat src.toNat s.startRun).reads ≤ n.toNat ∧
    (foldPass s.params.caseTable n.toNat src.toNat s.startRun).writes ≤ n.toNat ∧
    (∀ r, r = (convert (decodeSource16 src n) (enc8At dst.toNat cap.toNat) n.toNat s.startRun).1 →
      r.reads ≤ 2 * n.toNat ∧ r.writes ≤ 3 * n.toNat) ∧
    (∀ r, r = (convert (decodeSource16 src n) (measureOnly utf8MinLen) n.toNat s.startRun).1 →
      r.reads ≤ 2 * n.toNat ∧ r.writes = 0) ∧
    (∀ r, r = (convert (decodeSource8 s.params.failPos src n) (enc16At dst.toNat cap.toNat) n.toNat
        s.startRun).1 →
      r.reads ≤ 2 * n.toNat ∧ r.writes ≤ n.toNat) ∧
    (∀ r, r = (convert (decodeSource8 s.params.failPos src n) (measureOnly utf16Len) n.toNat
        s.startRun).1 →
      r.reads ≤ 2 * n.toNat ∧ r.writes = 0) ∧
    (overlap src.toNat n.toNat dst.toNat cap.toNat = false →
      ∀ r, r = (convert (decodeSource8 s.params.failPos src n)
          (encVisAt s.params.encTable dst.toNat cap.toNat) n.toNat s.startRun).1 →
        r.reads ≤ 2 * n.toNat ∧ r.writes ≤ n.toNat) ∧
    (∀ r, r = (convert (decodeSource8 s.params.failPos src n) (measureOnly visLen) n.toNat
        s.startRun).1 →
      r.reads ≤ 2 * n.toNat ∧ r.writes = 0)

/-- 70_reset_and_hazards.md R181, the entries of its table that are 0, but for the measure forms' writes
(`MemoryAccessesAreBounded`): the decode commands change no unit; a length command changes none, and does
the same whatever the memory holds, so it reads none; the encoders read none, by the model's own count
(log entry 15). -/
def Obligations.NoMemoryAccessWhereTheTableGivesZero : Prop :=
  (∀ (i : Instr) (s : State), i = .dec16 ∨ i = .dec8 →
    ∃ t, exec i s = .next t ∧ t.m16 = s.m16 ∧ t.m8 = s.m8) ∧
  (∀ (i : Instr) (s : State), i = .len16 ∨ i = .len8 ∨ i = .lenvis →
    ∃ t, exec i s = .next t ∧ t.m16 = s.m16 ∧ t.m8 = s.m8 ∧
      ∀ (m16 : Memory 16) (m8 : Memory 8),
        exec i { s with m16 := m16, m8 := m8 } = .next { t with m16 := m16, m8 := m8 }) ∧
  (∀ (s : State) (dst cap i : Nat) (c : Word),
    (enc16At dst cap c i s.startRun).1.reads = 0 ∧
    (enc8At dst cap c i s.startRun).1.reads = 0 ∧
    (encVisAt s.params.encTable dst cap c i s.startRun).1.reads = 0)
end

