-- ==== Sys2Proof/Laws/Codec.lean ====
section
/-! SUPPORT. Sys2Proof/Laws/Codec.lean: the bit operations of the codecs as arithmetic on natural
numbers, and the lengths of what the encoders produce. -/

namespace Sys2Proof.Machine

/-- Six or ten bits put under a shifted number add up. -/
theorem toNat_shiftLeft_or (c x : Word) (k : Nat) (hx : x.toNat < 2 ^ k)
    (hc : c.toNat * 2 ^ k < 2 ^ 32) : ((c <<< k) ||| x).toNat = c.toNat * 2 ^ k + x.toNat := by
  rw [BitVec.toNat_or, BitVec.toNat_shiftLeft, Nat.shiftLeft_eq, Nat.mod_eq_of_lt hc, Nat.mul_comm,
    ← Nat.two_pow_add_eq_or_of_lt hx]

/-! ## UTF-16 -/

theorem combine_toNat (h l : Unit16) :
    (combine h l).toNat = h.toNat % 1024 * 1024 + l.toNat % 1024 + 0x10000 := by
  have h1 : ((h.extractLsb' 0 10).setWidth 32).toNat = h.toNat % 1024 := by
    simp [BitVec.extractLsb'_toNat, Nat.mod_eq_of_lt (show h.toNat % 1024 < 4294967296 by omega)]
  have h2 : ((l.extractLsb' 0 10).setWidth 32).toNat = l.toNat % 1024 := by
    simp [BitVec.extractLsb'_toNat, Nat.mod_eq_of_lt (show l.toNat % 1024 < 4294967296 by omega)]
  rw [combine, BitVec.toNat_add, toNat_shiftLeft_or _ _ 10 (by rw [h2]; omega) (by rw [h1]; omega),
    h1, h2]
  simp only [BitVec.toNat_ofNat]
  omega

theorem utf16Units_length (c : Word) : (utf16Units c).length = utf16Len c := by
  unfold utf16Units utf16Len
  split <;> rfl

theorem utf16Len_pos (c : Word) : 1 ≤ utf16Len c := by
  unfold utf16Len; split <;> omega

theorem utf16Len_le (c : Word) : utf16Len c ≤ 2 := by
  unfold utf16Len; split <;> omega

/-- One unit: the codepoint itself (42_utf16_encoder.md R86). -/
theorem utf16Units_bmp {c : Word} (h : c.toNat ≤ 0xFFFF) :
    utf16Units c = [c.extractLsb' 0 16] ∧ (c.extractLsb' 0 16).toNat = c.toNat := by
  refine ⟨by simp [utf16Units, h], ?_⟩
  simp [BitVec.extractLsb'_toNat]
  omega

/-- Two units: the high and the low surrogate (42_utf16_encoder.md R86). -/
theorem utf16Units_pair {c : Word} (h : 0xFFFF < c.toNat) (h' : c.toNat ≤ maxCodepoint) :
    ∃ hi lo : Unit16, utf16Units c = [hi, lo] ∧
      hi.toNat = 0xD800 + (c.toNat - 0x10000) / 1024 ∧
      lo.toNat = 0xDC00 + (c.toNat - 0x10000) % 1024 := by
  simp only [maxCodepoint] at h'
  have hd : (c - 0x10000#32).toNat = c.toNat - 0x10000 := by
    rw [BitVec.toNat_sub_of_le] <;> simp [BitVec.le_def]; omega
  refine ⟨0xD800#16 + ((c - 0x10000#32).extractLsb' 10 10).setWidth 16,
    0xDC00#16 + ((c - 0x10000#32).extractLsb' 0 10).setWidth 16, ?_, ?_, ?_⟩
  · simp only [utf16Units, Nat.not_le.2 h, if_false]
  · simp only [BitVec.toNat_add, BitVec.toNat_setWidth, BitVec.extractLsb'_toNat, hd,
      BitVec.toNat_ofNat, Nat.shiftRight_eq_div_pow]
    omega
  · simp only [BitVec.toNat_add, BitVec.toNat_setWidth, BitVec.extractLsb'_toNat, hd,
      BitVec.toNat_ofNat, Nat.shiftRight_eq_div_pow]
    omega

/-! ## UTF-8 -/

theorem utf8MinLen_pos (c : Word) : 1 ≤ utf8MinLen c := by
  unfold utf8MinLen; split_ifs <;> omega

theorem utf8MinLen_le (c : Word) : utf8MinLen c ≤ 4 := by
  unfold utf8MinLen; split_ifs <;> omega

theorem utf8Fill_length (len k : Nat) (t : Word) (made : List Byte) :
    (utf8Fill len k t made).length = k + 1 + made.length := by
  induction k generalizing t made with
  | zero => simp [utf8Fill]; omega
  | succ k ih => simp [utf8Fill, ih]; omega

theorem utf8Bytes_length (c : Word) : (utf8Bytes c).length = utf8MinLen c := by
  have := utf8MinLen_pos c
  simp only [utf8Bytes, utf8Fill_length, List.length_nil]
  omega

/-- `IsCont(d)` as a range (41_utf8_decoder.md R71). -/
theorem isCont_eq (d : Byte) : isCont d = decide (0x80 ≤ d.toNat ∧ d.toNat ≤ 0xBF) := by
  revert d; decide +kernel

/-- `LeadClass(b)` by ranges (41_utf8_decoder.md R70). -/
theorem leadClass_eq (b : Byte) : leadClass b =
    if b.toNat ≤ 0x7F then some (1, BitVec.ofNat 32 b.toNat)
    else if b.toNat ≤ 0xBF then none
    else if b.toNat ≤ 0xDF then some (2, BitVec.ofNat 32 (b.toNat - 0xC0))
    else if b.toNat ≤ 0xEF then some (3, BitVec.ofNat 32 (b.toNat - 0xE0))
    else if b.toNat ≤ 0xF7 then some (4, BitVec.ofNat 32 (b.toNat - 0xF0))
    else none := by
  revert b; decide +kernel

/-- Folding a continuation byte into the value (41_utf8_decoder.md R73). -/
theorem foldContinuation_toNat (c : Word) (d : Byte) (h : c.toNat < 2 ^ 26) :
    ((c <<< 6) ||| (d.extractLsb' 0 6).setWidth 32).toNat = c.toNat * 64 + d.toNat % 64 := by
  have h2 : ((d.extractLsb' 0 6).setWidth 32).toNat = d.toNat % 64 := by
    simp [BitVec.extractLsb'_toNat]
    omega
  rw [toNat_shiftLeft_or _ _ 6 (by rw [h2]; omega) (by omega), h2]
  norm_num

/-- A continuation byte made by the encoder (43_utf8_encoder.md R96). -/
theorem continuationByte_toNat (t : Word) :
    (0x80#8 ||| (t.extractLsb' 0 6).setWidth 8).toNat = 0x80 + t.toNat % 64 := by
  have h2 : ((t.extractLsb' 0 6).setWidth 8).toNat = t.toNat % 64 := by
    simp [BitVec.extractLsb'_toNat]
    omega
  have := Nat.two_pow_add_eq_or_of_lt (i := 6) (b := t.toNat % 64) (by omega) 2
  rw [BitVec.toNat_or, h2]
  simpa using this.symm

/-- A lead byte made by the encoder, the value fitting the template's value bits (R96). -/
theorem leadByte_toNat (t : Word) :
    (t.toNat < 128 → (leadTemplate 1 ||| t.setWidth 8).toNat = t.toNat) ∧
    (t.toNat < 32 → (leadTemplate 2 ||| t.setWidth 8).toNat = 0xC0 + t.toNat) ∧
    (t.toNat < 16 → (leadTemplate 3 ||| t.setWidth 8).toNat = 0xE0 + t.toNat) ∧
    (t.toNat < 8 → (leadTemplate 4 ||| t.setWidth 8).toNat = 0xF0 + t.toNat) := by
  have hm : ∀ k, t.toNat < k → k ≤ 256 → (t.setWidth 8).toNat = t.toNat := by
    intro k hk hk'
    rw [BitVec.toNat_setWidth, Nat.mod_eq_of_lt (by omega)]
  refine ⟨fun h => ?_, fun h => ?_, fun h => ?_, fun h => ?_⟩
  · rw [BitVec.toNat_or, hm _ h (by omega)]; simp [leadTemplate]
  · rw [BitVec.toNat_or, hm _ h (by omega)]
    simpa [leadTemplate] using (Nat.two_pow_add_eq_or_of_lt (i := 5) (b := t.toNat) h 6).symm
  · rw [BitVec.toNat_or, hm _ h (by omega)]
    simpa [leadTemplate] using (Nat.two_pow_add_eq_or_of_lt (i := 4) (b := t.toNat) h 14).symm
  · rw [BitVec.toNat_or, hm _ h (by omega)]
    simpa [leadTemplate] using (Nat.two_pow_add_eq_or_of_lt (i := 3) (b := t.toNat) h 30).symm

/-! ## What the decoders read -/

/-- The UTF-16 decoder reads no index at or past the length (40_utf16_decoder.md R65). -/
theorem utf16Decode_congr {rd rd' : Nat → Unit16} {n p : Nat} (hp : p < n)
    (h : ∀ k, k < n → rd k = rd' k) : utf16Decode rd n p = utf16Decode rd' n p := by
  unfold utf16Decode
  rw [h p hp]
  by_cases hn : p + 1 = n
  · simp [hn]
  · rw [h (p + 1) (by omega)]

theorem utf8Continue_congr {fp : FailPos} {rd rd' : Nat → Byte} {n p len : Nat}
    (h : ∀ k, k < n → rd k = rd' k) (k j : Nat) (c : Word) :
    utf8Continue fp rd n p len k j c = utf8Continue fp rd' n p len k j c := by
  induction k generalizing j c with
  | zero => rfl
  | succ k ih =>
    simp only [utf8Continue]
    split
    · rfl
    · rw [h (j + 1) (by omega), ih]

/-- The UTF-8 decoder reads no index at or past the length (41_utf8_decoder.md R76). -/
theorem utf8Decode_congr {fp : FailPos} {rd rd' : Nat → Byte} {n p : Nat} (hp : p < n)
    (h : ∀ k, k < n → rd k = rd' k) : utf8Decode fp rd n p = utf8Decode fp rd' n p := by
  unfold utf8Decode
  rw [h p hp]
  cases leadClass (rd' p) with
  | none => rfl
  | some lc => exact utf8Continue_congr h _ _ _

end Sys2Proof.Machine
end

