-- ==== Sys2Proof/Laws/Memory.lean ====
section
/-! SUPPORT. Sys2Proof/Laws/Memory.lean: the laws of one memory space. A read after a write gives the
value written and every other unit is left alone, in ANY list; and every operation keeps the canonical
form. -/

namespace Sys2Proof.Machine

variable {w : Nat}

/-! ## Reading -/

@[simp] theorem Memory.read_nil (a : Nat) : Memory.read ([] : Memory w) a = unlisted w := rfl

theorem Memory.read_erase (m : Memory w) (a b : Nat) :
    (m.erase a).read b = if b = a then unlisted w else m.read b := by
  induction m with
  | nil => simp [Memory.erase]
  | cons c rest ih =>
    obtain ⟨k, v⟩ := c
    by_cases hk : k = a
    · subst hk
      simp only [Memory.erase, if_true, ih, Memory.read]
      by_cases hb : b = k
      · simp [hb]
      · simp [hb, Ne.symm hb]
    · simp only [Memory.erase, hk, if_false, Memory.read, ih]
      by_cases hkb : k = b
      · subst hkb; simp [hk]
      · simp [hkb]

theorem Memory.read_place (m : Memory w) (a : Nat) (v : BitVec w) (b : Nat)
    (h : ∀ c ∈ m, c.1 ≠ a) :
    (m.place a v).read b = if b = a then v else m.read b := by
  induction m with
  | nil => simp [Memory.place, Memory.read, eq_comm]
  | cons c rest ih =>
    obtain ⟨k, u⟩ := c
    have hk : k ≠ a := h (k, u) (by simp)
    have hr := ih (fun c hc => h c (by simp [hc]))
    by_cases hlt : a < k
    · simp [Memory.place, hlt, Memory.read, eq_comm]
    · by_cases hkb : k = b
      · subst hkb
        simp [Memory.place, hlt, Memory.read, hk]
      · simp [Memory.place, hlt, Memory.read, hkb, hr]

theorem Memory.mem_erase {m : Memory w} {a : Nat} {c : Nat × BitVec w} (h : c ∈ m.erase a) :
    c ∈ m ∧ c.1 ≠ a := by
  induction m with
  | nil => simp [Memory.erase] at h
  | cons d rest ih =>
    obtain ⟨k, u⟩ := d
    by_cases hk : k = a
    · simp only [Memory.erase, hk, if_true] at h
      exact ⟨List.mem_cons_of_mem _ (ih h).1, (ih h).2⟩
    · simp only [Memory.erase, hk, if_false, List.mem_cons] at h
      rcases h with rfl | h
      · exact ⟨by simp, hk⟩
      · exact ⟨List.mem_cons_of_mem _ (ih h).1, (ih h).2⟩

/-- The one law of reading after writing (20_memory.md R31). -/
theorem Memory.read_write (m : Memory w) (a : Nat) (v : BitVec w) (b : Nat) :
    (m.write a v).read b = if b = a then v else m.read b := by
  unfold Memory.write
  split
  · next h => subst h; exact m.read_erase a b
  · rw [Memory.read_place _ _ _ _ (fun c hc => (Memory.mem_erase hc).2), Memory.read_erase]
    split <;> rfl

@[simp] theorem Memory.read_write_same (m : Memory w) (a : Nat) (v : BitVec w) :
    (m.write a v).read a = v := by
  simp [Memory.read_write]

theorem Memory.read_write_of_ne (m : Memory w) {a b : Nat} (v : BitVec w) (h : b ≠ a) :
    (m.write a v).read b = m.read b := by
  simp [Memory.read_write, h]

/-! ## What is listed -/

theorem Memory.mem_place {m : Memory w} {a : Nat} {v : BitVec w} {c : Nat × BitVec w}
    (h : c ∈ m.place a v) : c = (a, v) ∨ c ∈ m := by
  induction m with
  | nil => simpa [Memory.place] using h
  | cons d rest ih =>
    obtain ⟨k, u⟩ := d
    by_cases hlt : a < k
    · simpa [Memory.place, hlt] using h
    · simp only [Memory.place, hlt, if_false, List.mem_cons] at h
      rcases h with h | h
      · exact .inr (by simp [h])
      · rcases ih h with h | h
        · exact .inl h
        · exact .inr (List.mem_cons_of_mem _ h)

/-- A write lists no address but its own. -/
theorem Memory.mem_write {m : Memory w} {a : Nat} {v : BitVec w} {c : Nat × BitVec w}
    (h : c ∈ m.write a v) : c.1 = a ∨ c ∈ m := by
  unfold Memory.write at h
  split at h
  · exact .inr (Memory.mem_erase h).1
  · rcases Memory.mem_place h with h | h
    · exact .inl (by rw [h])
    · exact .inr (Memory.mem_erase h).1

/-! ## The canonical form -/

theorem Memory.wfAbove_mono {lo lo' : Nat} {m : Memory w} (hle : lo' ≤ lo)
    (h : Memory.wfAbove lo m = true) : Memory.wfAbove lo' m = true := by
  cases m with
  | nil => rfl
  | cons c rest =>
    obtain ⟨k, u⟩ := c
    simp only [Memory.wfAbove, Bool.and_eq_true, decide_eq_true_eq] at h ⊢
    exact ⟨⟨⟨by omega, h.1.1.2⟩, h.1.2⟩, h.2⟩

theorem Memory.wfAbove_erase {lo : Nat} {m : Memory w} (a : Nat) (h : Memory.wfAbove lo m = true) :
    Memory.wfAbove lo (m.erase a) = true := by
  induction m generalizing lo with
  | nil => rfl
  | cons c rest ih =>
    obtain ⟨k, u⟩ := c
    simp only [Memory.wfAbove, Bool.and_eq_true, decide_eq_true_eq] at h
    by_cases hk : k = a
    · simp only [Memory.erase, hk, if_true]
      exact Memory.wfAbove_mono (by omega) (ih h.2)
    · simp only [Memory.erase, hk, if_false, Memory.wfAbove, Bool.and_eq_true, decide_eq_true_eq]
      exact ⟨h.1, ih h.2⟩

theorem Memory.wfAbove_place {lo : Nat} {m : Memory w} {a : Nat} {v : BitVec w}
    (h : Memory.wfAbove lo m = true) (hlo : lo ≤ a) (ha : a < spaceSize) (hv : v ≠ unlisted w)
    (hne : ∀ c ∈ m, c.1 ≠ a) : Memory.wfAbove lo (m.place a v) = true := by
  induction m generalizing lo with
  | nil => simp [Memory.place, Memory.wfAbove, hlo, ha, hv]
  | cons c rest ih =>
    obtain ⟨k, u⟩ := c
    have hk : k ≠ a := hne (k, u) (by simp)
    simp only [Memory.wfAbove, Bool.and_eq_true, decide_eq_true_eq] at h
    by_cases hlt : a < k
    · simp only [Memory.place, hlt, if_true, Memory.wfAbove, Bool.and_eq_true, decide_eq_true_eq,
        bne_iff_ne]
      exact ⟨⟨⟨hlo, ha⟩, hv⟩, ⟨⟨by omega, h.1.1.2⟩, by simpa using h.1.2⟩, h.2⟩
    · simp only [Memory.place, hlt, if_false, Memory.wfAbove, Bool.and_eq_true, decide_eq_true_eq]
      exact ⟨h.1, ih h.2 (by omega) (fun c hc => hne c (by simp [hc]))⟩

/-- A write inside the space keeps the canonical form. -/
theorem Memory.wf_write {m : Memory w} {a : Nat} (v : BitVec w) (h : m.wf = true)
    (ha : a < spaceSize) : (m.write a v).wf = true := by
  unfold Memory.write Memory.wf
  split
  · exact Memory.wfAbove_erase a h
  · next hv =>
    exact Memory.wfAbove_place (Memory.wfAbove_erase a h) (by omega) ha hv
      (fun c hc => (Memory.mem_erase hc).2)

theorem Memory.addr_lt_of_wfAbove {lo : Nat} {m : Memory w} {c : Nat × BitVec w}
    (h : Memory.wfAbove lo m = true) (hc : c ∈ m) : lo ≤ c.1 ∧ c.1 < spaceSize := by
  induction m generalizing lo with
  | nil => simp at hc
  | cons d rest ih =>
    obtain ⟨k, u⟩ := d
    simp only [Memory.wfAbove, Bool.and_eq_true, decide_eq_true_eq] at h
    rcases List.mem_cons.1 hc with rfl | hc
    · exact ⟨h.1.1.1, h.1.1.2⟩
    · have := ih h.2 hc
      exact ⟨by omega, this.2⟩

/-- Every listed address of a canonical space is below 2^32. -/
theorem Memory.addr_lt {m : Memory w} {c : Nat × BitVec w} (h : m.wf = true) (hc : c ∈ m) :
    c.1 < spaceSize :=
  (Memory.addr_lt_of_wfAbove h hc).2

/-- A canonical space is determined by what its units read as above a bound. -/
theorem Memory.ext_of_wfAbove {lo : Nat} {m m' : Memory w} (h : Memory.wfAbove lo m = true)
    (h' : Memory.wfAbove lo m' = true) (hr : ∀ a, lo ≤ a → m.read a = m'.read a) : m = m' := by
  have low : ∀ {lo : Nat} {m : Memory w} (a : Nat), Memory.wfAbove lo m = true → a < lo →
      m.read a = unlisted w := by
    intro lo m a h ha
    induction m generalizing lo with
    | nil => rfl
    | cons c rest ih =>
      obtain ⟨k, u⟩ := c
      simp only [Memory.wfAbove, Bool.and_eq_true, decide_eq_true_eq] at h
      have hk : k ≠ a := by omega
      simp only [Memory.read, hk, if_false]
      exact ih h.2 (by omega)
  induction m generalizing lo m' with
  | nil =>
    cases m' with
    | nil => rfl
    | cons c rest =>
      obtain ⟨k, u⟩ := c
      simp only [Memory.wfAbove, Bool.and_eq_true, decide_eq_true_eq, bne_iff_ne] at h'
      exact absurd (by simpa [Memory.read] using (hr k h'.1.1.1).symm) h'.1.2
  | cons c rest ih =>
    obtain ⟨k, u⟩ := c
    have h0 := h
    simp only [Memory.wfAbove, Bool.and_eq_true, decide_eq_true_eq, bne_iff_ne] at h
    cases m' with
    | nil => exact absurd (by simpa [Memory.read] using hr k h.1.1.1) h.1.2
    | cons c' rest' =>
      obtain ⟨k', u'⟩ := c'
      have h0' := h'
      simp only [Memory.wfAbove, Bool.and_eq_true, decide_eq_true_eq, bne_iff_ne] at h'
      have hkk : k = k' := by
        rcases Nat.lt_trichotomy k k' with hlt | heq | hgt
        · have := hr k h.1.1.1
          have hne : k' ≠ k := by omega
          simp only [Memory.read, if_true, hne, if_false] at this
          exact absurd (this.trans (low k h'.2 (by omega))) h.1.2
        · exact heq
        · have := hr k' h'.1.1.1
          have hne : k ≠ k' := by omega
          simp only [Memory.read, if_true, hne, if_false] at this
          exact absurd (this.symm.trans (low k' h.2 (by omega))) h'.1.2
      subst hkk
      have hu : u = u' := by simpa [Memory.read] using hr k h.1.1.1
      subst hu
      rw [ih h.2 h'.2]
      intro a ha
      have := hr a (by omega)
      have hne : k ≠ a := by omega
      simpa [Memory.read, hne] using this

/-- Equal reads make equal canonical spaces. -/
theorem Memory.ext {m m' : Memory w} (h : m.wf = true) (h' : m'.wf = true)
    (hr : ∀ a, m.read a = m'.read a) : m = m' :=
  Memory.ext_of_wfAbove h h' (fun a _ => hr a)

/-! ## A command cut short -/

theorem Memory.mix_of_step {landed : Nat → Bool} {after : Memory w} {P : Memory w → Prop}
    {keys : List Nat} {before : Memory w} (h0 : P before)
    (hw : ∀ m, ∀ a ∈ keys, P m → P (m.write a (after.read a))) :
    P (Memory.mix landed after keys before) := by
  induction keys with
  | nil => exact h0
  | cons k ks ih =>
    simp only [Memory.mix]
    have := ih (fun m a ha => hw m a (by simp [ha]))
    split
    · exact hw _ k (by simp) this
    · exact this

/-- A unit of a space cut short is old or new (93_implementation_defined.md I6). -/
theorem Memory.read_cut (landed : Nat → Bool) (before after : Memory w) (a : Nat) :
    (Memory.cut landed before after).read a = before.read a ∨
    (Memory.cut landed before after).read a = after.read a := by
  refine Memory.mix_of_step (P := fun m => m.read a = before.read a ∨ m.read a = after.read a)
    (.inl rfl) ?_
  intro m k _ hm
  by_cases hk : a = k
  · subst hk; exact .inr (by simp)
  · rwa [Memory.read_write_of_ne _ _ hk]

/-- A space cut short lists only addresses listed before or after. -/
theorem Memory.mem_cut {landed : Nat → Bool} {before after : Memory w} {c : Nat × BitVec w}
    (h : c ∈ Memory.cut landed before after) :
    (∃ d ∈ before, d.1 = c.1) ∨ ∃ d ∈ after, d.1 = c.1 := by
  refine Memory.mix_of_step (landed := landed)
    (P := fun m => ∀ c ∈ m, (∃ d ∈ before, d.1 = c.1) ∨ ∃ d ∈ after, d.1 = c.1)
    (fun c hc => .inl ⟨c, hc, rfl⟩) ?_ c h
  intro m k hk hm c hc
  rcases Memory.mem_write hc with hc | hc
  · rcases List.mem_append.1 hk with hk | hk <;> obtain ⟨d, hd, rfl⟩ := List.mem_map.1 hk
    · exact .inl ⟨d, hd, hc.symm⟩
    · exact .inr ⟨d, hd, hc.symm⟩
  · exact hm c hc

/-- A space cut short is canonical when the two it lies between are. -/
theorem Memory.wf_cut {before after : Memory w} (landed : Nat → Bool) (h : before.wf = true)
    (h' : after.wf = true) : (Memory.cut landed before after).wf = true := by
  refine Memory.mix_of_step (P := fun m => m.wf = true) h ?_
  intro m k hk hm
  refine Memory.wf_write _ hm ?_
  rcases List.mem_append.1 hk with hk | hk <;> obtain ⟨d, hd, rfl⟩ := List.mem_map.1 hk
  · exact Memory.addr_lt h hd
  · exact Memory.addr_lt h' hd

end Sys2Proof.Machine
end

