-- ==== Sys2Proof/Laws/Writes.lean ====
section
/-! SUPPORT. Sys2Proof/Laws/Writes.lean: what the write loops of the encoders do to the memory of a
running command, and to its counts. -/

namespace Sys2Proof.Machine

@[simp] theorem Run.write16_m16 (r : Run) (a : Nat) (v : Unit16) :
    (r.write16 a v).m16 = r.m16.write a v := rfl
@[simp] theorem Run.write16_m8 (r : Run) (a : Nat) (v : Unit16) : (r.write16 a v).m8 = r.m8 := rfl
@[simp] theorem Run.write16_reads (r : Run) (a : Nat) (v : Unit16) :
    (r.write16 a v).reads = r.reads := rfl
@[simp] theorem Run.write16_writes (r : Run) (a : Nat) (v : Unit16) :
    (r.write16 a v).writes = r.writes + 1 := rfl
@[simp] theorem Run.write8_m16 (r : Run) (a : Nat) (v : Byte) : (r.write8 a v).m16 = r.m16 := rfl
@[simp] theorem Run.write8_m8 (r : Run) (a : Nat) (v : Byte) :
    (r.write8 a v).m8 = r.m8.write a v := rfl
@[simp] theorem Run.write8_reads (r : Run) (a : Nat) (v : Byte) : (r.write8 a v).reads = r.reads := rfl
@[simp] theorem Run.write8_writes (r : Run) (a : Nat) (v : Byte) :
    (r.write8 a v).writes = r.writes + 1 := rfl
@[simp] theorem Run.countReads_m16 (r : Run) (k : Nat) : (r.countReads k).m16 = r.m16 := rfl
@[simp] theorem Run.countReads_m8 (r : Run) (k : Nat) : (r.countReads k).m8 = r.m8 := rfl
@[simp] theorem Run.countReads_reads (r : Run) (k : Nat) : (r.countReads k).reads = r.reads + k := rfl
@[simp] theorem Run.countReads_writes (r : Run) (k : Nat) : (r.countReads k).writes = r.writes := rfl
@[simp] theorem State.startRun_m16 (s : State) : s.startRun.m16 = s.m16 := rfl
@[simp] theorem State.startRun_m8 (s : State) : s.startRun.m8 = s.m8 := rfl
@[simp] theorem State.startRun_reads (s : State) : s.startRun.reads = 0 := rfl
@[simp] theorem State.startRun_writes (s : State) : s.startRun.writes = 0 := rfl

/-- One unit written before a list at the next address, or after it, reads as the list with that unit
in front. -/
theorem read_cons {α : Type} (v : α) (vs : List α) (a x : Nat) (old : α) :
    (if a + 1 ≤ x ∧ x < a + 1 + vs.length then vs.getD (x - (a + 1)) old
      else if x = a then v else old) =
    if a ≤ x ∧ x < a + (v :: vs).length then (v :: vs).getD (x - a) old else old := by
  simp only [List.length_cons]
  by_cases hx : x = a
  · subst hx
    have h1 : ¬ (x + 1 ≤ x ∧ x < x + 1 + vs.length) := by omega
    have h2 : x ≤ x ∧ x < x + (vs.length + 1) := by omega
    rw [if_neg h1, if_pos rfl, if_pos h2]
    simp
  · by_cases h : a + 1 ≤ x ∧ x < a + 1 + vs.length
    · have h2 : a ≤ x ∧ x < a + (vs.length + 1) := by omega
      have h3 : x - a = (x - (a + 1)) + 1 := by omega
      rw [if_pos h, if_pos h2, h3, List.getD_cons_succ]
    · have h2 : ¬ (a ≤ x ∧ x < a + (vs.length + 1)) := by omega
      rw [if_neg h, if_neg hx, if_neg h2]

/-- What the write loop of the UTF-16 encoder does (42_utf16_encoder.md R87). -/
theorem writeUnits16_read (us : List Unit16) (a : Nat) (r : Run) (x : Nat) :
    (writeUnits16 us a r).m16.read x =
      if a ≤ x ∧ x < a + us.length then us.getD (x - a) (r.m16.read x) else r.m16.read x := by
  induction us generalizing a r with
  | nil => simp [writeUnits16]
  | cons u us ih =>
    rw [writeUnits16, ih, ← read_cons, Run.write16_m16, Memory.read_write]
    by_cases h : a + 1 ≤ x ∧ x < a + 1 + us.length
    · have hx : x ≠ a := by omega
      rw [if_pos h, if_pos h, if_neg hx]
    · rw [if_neg h, if_neg h]

@[simp] theorem writeUnits16_m8 (us : List Unit16) (a : Nat) (r : Run) :
    (writeUnits16 us a r).m8 = r.m8 := by
  induction us generalizing a r with
  | nil => rfl
  | cons u us ih => simp [writeUnits16, ih]

@[simp] theorem writeUnits16_reads (us : List Unit16) (a : Nat) (r : Run) :
    (writeUnits16 us a r).reads = r.reads := by
  induction us generalizing a r with
  | nil => rfl
  | cons u us ih => simp [writeUnits16, ih]

@[simp] theorem writeUnits16_writes (us : List Unit16) (a : Nat) (r : Run) :
    (writeUnits16 us a r).writes = r.writes + us.length := by
  induction us generalizing a r with
  | nil => rfl
  | cons u us ih => simp [writeUnits16, ih]; omega

/-- The write loop keeps what every write inside its range keeps. -/
theorem writeUnits16_keeps {P : Memory 16 → Prop} (us : List Unit16) (a : Nat) (r : Run)
    (h0 : P r.m16) (hw : ∀ m x v, a ≤ x → x < a + us.length → P m → P (m.write x v)) :
    P (writeUnits16 us a r).m16 := by
  induction us generalizing a r with
  | nil => exact h0
  | cons u us ih =>
    refine ih (a + 1) _ (hw _ _ _ (le_refl a) (by simp) h0) (fun m x v h1 h2 => hw m x v ?_ ?_)
    · omega
    · simp only [List.length_cons]; omega

/-- What the write loop of the UTF-8 encoder does (43_utf8_encoder.md R97). -/
theorem writeBytesBackward_read (bs : List Byte) (a : Nat) (r : Run) (x : Nat) :
    (writeBytesBackward bs a r).m8.read x =
      if a ≤ x ∧ x < a + bs.length then bs.getD (x - a) (r.m8.read x) else r.m8.read x := by
  induction bs generalizing a r with
  | nil => simp [writeBytesBackward]
  | cons b bs ih =>
    rw [writeBytesBackward, Run.write8_m8, Memory.read_write, ih, ← read_cons]
    by_cases hx : x = a
    · have h : ¬ (a + 1 ≤ x ∧ x < a + 1 + bs.length) := by omega
      rw [if_pos hx, if_neg h, if_pos hx]
    · rw [if_neg hx, if_neg hx]

@[simp] theorem writeBytesBackward_m16 (bs : List Byte) (a : Nat) (r : Run) :
    (writeBytesBackward bs a r).m16 = r.m16 := by
  induction bs generalizing a r with
  | nil => rfl
  | cons b bs ih => simp [writeBytesBackward, ih]

@[simp] theorem writeBytesBackward_reads (bs : List Byte) (a : Nat) (r : Run) :
    (writeBytesBackward bs a r).reads = r.reads := by
  induction bs generalizing a r with
  | nil => rfl
  | cons b bs ih => simp [writeBytesBackward, ih]

@[simp] theorem writeBytesBackward_writes (bs : List Byte) (a : Nat) (r : Run) :
    (writeBytesBackward bs a r).writes = r.writes + bs.length := by
  induction bs generalizing a r with
  | nil => rfl
  | cons b bs ih => simp [writeBytesBackward, ih]; omega

/-- The write loop keeps what every write inside its range keeps. -/
theorem writeBytesBackward_keeps {P : Memory 8 → Prop} (bs : List Byte) (a : Nat) (r : Run)
    (h0 : P r.m8) (hw : ∀ m x v, a ≤ x → x < a + bs.length → P m → P (m.write x v)) :
    P (writeBytesBackward bs a r).m8 := by
  induction bs generalizing a r with
  | nil => exact h0
  | cons b bs ih =>
    refine hw _ _ _ (le_refl a) (by simp) (ih (a + 1) r h0 (fun m x v h1 h2 => hw m x v ?_ ?_))
    · omega
    · simp only [List.length_cons]; omega

end Sys2Proof.Machine
end

