-- ==== Sys2Proof/Laws/Convert.lean ====
section
/-! SUPPORT. Sys2Proof/Laws/Convert.lean: the driving loop of 46_conversions.md R130 as a walk over the
decoded text, and what the walk makes of the memory and of the running total. -/

namespace Sys2Proof.Machine

/-- Emit a text, one codepoint after the other. -/
def emitAll (emit : Word → Nat → Run → Run × Nat) : List Decoded → Nat → Run → Run × Nat
  | [], t, r => (r, t)
  | d :: ds, t, r =>
    emitAll emit ds (t + (emit d.cp t (r.countReads d.units)).2) (emit d.cp t (r.countReads d.units)).1

/-- THE LAW OF THE LOOP. Where no emission changes what the decoder yields, `Convert` emits the text
that the decoder yields at the start. -/
theorem convertFrom_eq_emitAll {dec : Run → Nat → Decoded} {emit : Word → Nat → Run → Run × Nat}
    {n : Nat} {dec0 : Nat → Decoded} {I : Nat → Run → Prop}
    (hdec : ∀ t r i, I t r → i < n → dec r i = dec0 i)
    (hemit : ∀ t r c u, I t r → I (t + (emit c t (r.countReads u)).2) (emit c t (r.countReads u)).1)
    (fuel i t : Nat) (r : Run) (hI : I t r) :
    convertFrom dec emit n fuel i t r = emitAll emit (decodedFrom dec0 n fuel i) t r := by
  induction fuel generalizing i t r with
  | zero => rfl
  | succ fuel ih =>
    simp only [convertFrom, decodedFrom]
    split
    · next hi =>
      rw [hdec t r i hI hi]
      exact ih _ _ _ (hemit t r _ _ hI)
    · rfl

/-- Emission adds nothing else than the units that fit, and puts them at the running total. `get` picks
the destination's space. -/
theorem emitAll_output {w : Nat} {emit : Word → Nat → Run → Run × Nat} {get : Run → Memory w}
    {units : Word → List (BitVec w)} {dst cap : Nat}
    (hcount : ∀ r k, get (r.countReads k) = get r)
    (hskip : ∀ c t r, cap < t + (units c).length → emit c t r = (r, 0))
    (hlen : ∀ c t r, t + (units c).length ≤ cap → (emit c t r).2 = (units c).length)
    (hfit : ∀ c t r, t + (units c).length ≤ cap → Holds (get r) (get (emit c t r).1) (dst + t) (units c))
    (ds : List Decoded) (t : Nat) (r : Run) :
    (emitAll emit ds t r).2 = t + (fittingOutput units cap t (ds.map (·.cp))).length ∧
    Holds (get r) (get (emitAll emit ds t r).1) (dst + t)
      (fittingOutput units cap t (ds.map (·.cp))) := by
  induction ds generalizing t r with
  | nil =>
    refine ⟨rfl, fun x => ?_⟩
    simp [emitAll, fittingOutput]
  | cons d ds ih =>
    by_cases hf : t + (units d.cp).length ≤ cap
    · have hl := hlen d.cp t (r.countReads d.units) hf
      have hh := hfit d.cp t (r.countReads d.units) hf
      obtain ⟨h1, h2⟩ := ih (t + (units d.cp).length) (emit d.cp t (r.countReads d.units)).1
      simp only [emitAll, List.map_cons, fittingOutput, hf, if_true, hl, List.length_append]
      refine ⟨by omega, fun x => ?_⟩
      rw [h2 x, hh x, hcount]
      generalize hout : fittingOutput units cap (t + (units d.cp).length) (ds.map (·.cp)) = out
      by_cases hx1 : dst + t ≤ x ∧ x < dst + t + (units d.cp).length
      · have hx2 : ¬ (dst + (t + (units d.cp).length) ≤ x ∧
            x < dst + (t + (units d.cp).length) + out.length) := by omega
        have hx3 : dst + t ≤ x ∧ x < dst + t + (units d.cp ++ out).length := by
          rw [List.length_append]; omega
        rw [if_neg hx2, if_pos hx1, if_pos hx3, List.getD_append _ _ _ _ (by omega)]
      · by_cases hx2 : dst + (t + (units d.cp).length) ≤ x ∧
            x < dst + (t + (units d.cp).length) + out.length
        · have hx3 : dst + t ≤ x ∧ x < dst + t + (units d.cp ++ out).length := by
            rw [List.length_append]; omega
          rw [if_pos hx2, if_neg hx1, if_pos hx3, List.getD_append_right _ _ _ _ (by omega)]
          congr 1
          omega
        · have hx3 : ¬ (dst + t ≤ x ∧ x < dst + t + (units d.cp ++ out).length) := by
            rw [List.length_append]; omega
          rw [if_neg hx2, if_neg hx1, if_neg hx3]
    · have hs := hskip d.cp t (r.countReads d.units) (by omega)
      simp only [emitAll, List.map_cons, fittingOutput, hf, if_false, hs, Nat.add_zero]
      have := ih t (r.countReads d.units)
      rwa [hcount] at this

/-- Measuring adds up the lengths and leaves the memory alone (46_conversions.md R130, M = 1). -/
theorem emitAll_measure (len : Word → Nat) (ds : List Decoded) (t : Nat) (r : Run) :
    (emitAll (measureOnly len) ds t r).2 = t + (ds.map (fun d => len d.cp)).sum ∧
    (emitAll (measureOnly len) ds t r).1.m16 = r.m16 ∧
    (emitAll (measureOnly len) ds t r).1.m8 = r.m8 := by
  induction ds generalizing t r with
  | nil => exact ⟨rfl, rfl, rfl⟩
  | cons d ds ih =>
    obtain ⟨h1, h2, h3⟩ := ih (t + len d.cp) (r.countReads d.units)
    refine ⟨?_, h2, h3⟩
    simp only [emitAll, measureOnly, List.map_cons, List.sum_cons] at h1 ⊢
    omega

/-- The output that fits never passes the capacity. -/
theorem fittingOutput_length_le {α : Type} (units : Word → List α) (cap t : Nat) (cs : List Word)
    (h : t ≤ cap) : t + (fittingOutput units cap t cs).length ≤ cap := by
  induction cs generalizing t with
  | nil => simpa [fittingOutput]
  | cons c cs ih =>
    simp only [fittingOutput]
    split
    · next hf =>
      have := ih _ hf
      rw [List.length_append]
      omega
    · exact ih _ h

/-- Where everything fits, nothing is left out. -/
theorem fittingOutput_eq_full {α : Type} (units : Word → List α) (cap t : Nat) (cs : List Word)
    (h : t + (fullOutput units cs).length ≤ cap) :
    fittingOutput units cap t cs = fullOutput units cs := by
  induction cs generalizing t with
  | nil => rfl
  | cons c cs ih =>
    simp only [fullOutput, List.flatMap_cons, List.length_append] at h
    have hf : t + (units c).length ≤ cap := by omega
    simp only [fittingOutput, hf, if_true, fullOutput, List.flatMap_cons]
    rw [ih _ (by simp only [fullOutput]; omega)]
    rfl

/-! ## The three encoders as emitters -/

theorem enc16At_skip (dst cap : Nat) (c : Word) (t : Nat) (r : Run)
    (h : cap < t + (utf16Units c).length) : enc16At dst cap c t r = (r, 0) := by
  simp [enc16At, h]

theorem enc16At_fit (dst cap : Nat) (c : Word) (t : Nat) (r : Run)
    (h : t + (utf16Units c).length ≤ cap) :
    enc16At dst cap c t r = (writeUnits16 (utf16Units c) (dst + t) r, (utf16Units c).length) := by
  simp [enc16At, Nat.not_lt.2 h]

theorem enc8At_skip (dst cap : Nat) (c : Word) (t : Nat) (r : Run)
    (h : cap < t + (utf8Bytes c).length) : enc8At dst cap c t r = (r, 0) := by
  rw [utf8Bytes_length] at h
  simp [enc8At, h]

theorem enc8At_fit (dst cap : Nat) (c : Word) (t : Nat) (r : Run)
    (h : t + (utf8Bytes c).length ≤ cap) :
    enc8At dst cap c t r = (writeBytesBackward (utf8Bytes c) (dst + t) r, (utf8Bytes c).length) := by
  rw [utf8Bytes_length] at h
  simp [enc8At, Nat.not_lt.2 h, utf8Bytes_length]

theorem encVisAt_skip (tab : EncTable) (dst cap : Nat) (c : Word) (t : Nat) (r : Run)
    (h : cap < t + (visUnits tab c).length) : encVisAt tab dst cap c t r = (r, 0) := by
  have h' : cap < t + 1 := h
  simp [encVisAt, h']

theorem encVisAt_fit (tab : EncTable) (dst cap : Nat) (c : Word) (t : Nat) (r : Run)
    (h : t + (visUnits tab c).length ≤ cap) :
    encVisAt tab dst cap c t r = (r.write8 (dst + t) (visByte tab c), 1) := by
  have h' : ¬ cap < t + 1 := Nat.not_lt.2 h
  simp [encVisAt, h']

theorem enc16At_holds (dst cap : Nat) (c : Word) (t : Nat) (r : Run)
    (h : t + (utf16Units c).length ≤ cap) :
    Holds r.m16 (enc16At dst cap c t r).1.m16 (dst + t) (utf16Units c) := by
  intro x
  rw [enc16At_fit _ _ _ _ _ h]
  exact writeUnits16_read _ _ _ _

theorem enc8At_holds (dst cap : Nat) (c : Word) (t : Nat) (r : Run)
    (h : t + (utf8Bytes c).length ≤ cap) :
    Holds r.m8 (enc8At dst cap c t r).1.m8 (dst + t) (utf8Bytes c) := by
  intro x
  rw [enc8At_fit _ _ _ _ _ h]
  exact writeBytesBackward_read _ _ _ _

theorem encVisAt_holds (tab : EncTable) (dst cap : Nat) (c : Word) (t : Nat) (r : Run)
    (h : t + (visUnits tab c).length ≤ cap) :
    Holds r.m8 (encVisAt tab dst cap c t r).1.m8 (dst + t) (visUnits tab c) := by
  intro x
  rw [encVisAt_fit _ _ _ _ _ _ h, Run.write8_m8, Memory.read_write]
  change _ = if dst + t ≤ x ∧ x < dst + t + 1 then [visByte tab c].getD (x - (dst + t)) (r.m8.read x)
    else r.m8.read x
  by_cases hx : x = dst + t
  · have h2 : dst + t ≤ x ∧ x < dst + t + 1 := by omega
    rw [if_pos hx, if_pos h2, hx]
    simp
  · have h2 : ¬ (dst + t ≤ x ∧ x < dst + t + 1) := by omega
    rw [if_neg hx, if_neg h2]

end Sys2Proof.Machine
end

