-- ==== Sys2Proof/Laws/Keeps.lean ====
section
/-! SUPPORT. Sys2Proof/Laws/Keeps.lean: what the loops of a command leave alone: the other space, every
property that each single write inside the loop's range keeps, and the two access counts. -/

namespace Sys2Proof.Machine

/-- The driving loop keeps what each emission keeps. -/
theorem convertFrom_keeps {P : Run → Prop} {dec : Run → Nat → Decoded}
    {emit : Word → Nat → Run → Run × Nat} {n : Nat} (hcount : ∀ r k, P r → P (r.countReads k))
    (hemit : ∀ c t r, P r → P (emit c t r).1) (fuel i t : Nat) (r : Run) (h : P r) :
    P (convertFrom dec emit n fuel i t r).1 := by
  induction fuel generalizing i t r with
  | zero => exact h
  | succ fuel ih =>
    simp only [convertFrom]
    split
    · exact ih _ _ _ (hemit _ _ _ (hcount _ _ h))
    · exact h

/-! ## The encoders -/

@[simp] theorem enc16At_m8 (dst cap : Nat) (c : Word) (t : Nat) (r : Run) :
    (enc16At dst cap c t r).1.m8 = r.m8 := by
  unfold enc16At; split <;> simp

@[simp] theorem enc8At_m16 (dst cap : Nat) (c : Word) (t : Nat) (r : Run) :
    (enc8At dst cap c t r).1.m16 = r.m16 := by
  unfold enc8At; split <;> simp

@[simp] theorem encVisAt_m16 (tab : EncTable) (dst cap : Nat) (c : Word) (t : Nat) (r : Run) :
    (encVisAt tab dst cap c t r).1.m16 = r.m16 := by
  unfold encVisAt; split <;> simp

theorem enc16At_keeps {P : Memory 16 → Prop} {dst cap : Nat}
    (hw : ∀ m x v, dst ≤ x → x < dst + cap → P m → P (m.write x v)) (c : Word) (t : Nat) (r : Run)
    (h : P r.m16) : P (enc16At dst cap c t r).1.m16 := by
  unfold enc16At
  split
  · exact h
  · exact writeUnits16_keeps _ _ _ h (fun m x v h1 h2 => hw m x v (by omega) (by omega))

theorem enc8At_keeps {P : Memory 8 → Prop} {dst cap : Nat}
    (hw : ∀ m x v, dst ≤ x → x < dst + cap → P m → P (m.write x v)) (c : Word) (t : Nat) (r : Run)
    (h : P r.m8) : P (enc8At dst cap c t r).1.m8 := by
  unfold enc8At
  split
  · exact h
  · refine writeBytesBackward_keeps _ _ _ h (fun m x v h1 h2 => hw m x v (by omega) ?_)
    rw [utf8Bytes_length] at h2
    omega

theorem encVisAt_keeps {P : Memory 8 → Prop} {tab : EncTable} {dst cap : Nat}
    (hw : ∀ m x v, dst ≤ x → x < dst + cap → P m → P (m.write x v)) (c : Word) (t : Nat) (r : Run)
    (h : P r.m8) : P (encVisAt tab dst cap c t r).1.m8 := by
  unfold encVisAt
  split
  · exact h
  · exact hw _ _ _ (by omega) (by omega) h

theorem enc16At_counts (dst cap : Nat) (c : Word) (t : Nat) (r : Run) :
    (enc16At dst cap c t r).1.reads = r.reads ∧
    (enc16At dst cap c t r).1.writes ≤ r.writes + utf16Len c := by
  unfold enc16At; split <;> simp [utf16Units_length]

theorem enc8At_counts (dst cap : Nat) (c : Word) (t : Nat) (r : Run) :
    (enc8At dst cap c t r).1.reads = r.reads ∧
    (enc8At dst cap c t r).1.writes ≤ r.writes + utf8MinLen c := by
  unfold enc8At; split <;> simp [utf8Bytes_length]

theorem encVisAt_counts (tab : EncTable) (dst cap : Nat) (c : Word) (t : Nat) (r : Run) :
    (encVisAt tab dst cap c t r).1.reads = r.reads ∧
    (encVisAt tab dst cap c t r).1.writes ≤ r.writes + 1 := by
  unfold encVisAt; split <;> simp

/-! ## FOLD's pass -/

@[simp] theorem foldAt_m16 (tab : CaseTable) (a : Nat) (r : Run) : (foldAt tab a r).m16 = r.m16 := by
  unfold foldAt; split <;> simp

/-- One turn gives the byte at `a` its folded value (45_case_folder.md R122). -/
theorem foldAt_read (tab : CaseTable) (a : Nat) (r : Run) (x : Nat) :
    (foldAt tab a r).m8.read x = if x = a then foldByte tab (r.m8.read x) else r.m8.read x := by
  unfold foldAt
  split
  · simp only [Run.write8_m8, Memory.read_write, Run.countReads_m8]
    split
    · next h => rw [h]
    · rfl
  · next h =>
    simp only [Run.countReads_m8]
    split
    · next e => rw [e]; exact (not_not.1 h).symm
    · rfl

@[simp] theorem foldPass_m16 (tab : CaseTable) (k a : Nat) (r : Run) :
    (foldPass tab k a r).m16 = r.m16 := by
  induction k generalizing a r with
  | zero => rfl
  | succ k ih => simp [foldPass, ih]

theorem foldPass_keeps {P : Memory 8 → Prop} {tab : CaseTable} (k a : Nat) (r : Run) (h0 : P r.m8)
    (hw : ∀ m x v, a ≤ x → x < a + k → P m → P (m.write x v)) : P (foldPass tab k a r).m8 := by
  induction k generalizing a r with
  | zero => exact h0
  | succ k ih =>
    refine ih (a + 1) _ ?_ (fun m x v h1 h2 => hw m x v (by omega) (by omega))
    unfold foldAt
    split
    · exact hw _ _ _ (by omega) (by omega) h0
    · exact h0

end Sys2Proof.Machine
end

