-- ==== Sys2Proof/Laws/State.lean ====
section
/-! SUPPORT. Sys2Proof/Laws/State.lean: one lemma per field per update of the state, so that no later
proof unfolds a record update; and the laws of the register accessors. -/

namespace Sys2Proof.Machine

/-! ## `State.endRun` -/

@[simp] theorem State.endRun_status (s : State) (r : Run) : (s.endRun r).status = s.status := rfl
@[simp] theorem State.endRun_src (s : State) (r : Run) : (s.endRun r).src = s.src := rfl
@[simp] theorem State.endRun_slen (s : State) (r : Run) : (s.endRun r).slen = s.slen := rfl
@[simp] theorem State.endRun_pos (s : State) (r : Run) : (s.endRun r).pos = s.pos := rfl
@[simp] theorem State.endRun_dst (s : State) (r : Run) : (s.endRun r).dst = s.dst := rfl
@[simp] theorem State.endRun_dcap (s : State) (r : Run) : (s.endRun r).dcap = s.dcap := rfl
@[simp] theorem State.endRun_didx (s : State) (r : Run) : (s.endRun r).didx = s.didx := rfl
@[simp] theorem State.endRun_cp (s : State) (r : Run) : (s.endRun r).cp = s.cp := rfl
@[simp] theorem State.endRun_cnt (s : State) (r : Run) : (s.endRun r).cnt = s.cnt := rfl
@[simp] theorem State.endRun_params (s : State) (r : Run) : (s.endRun r).params = s.params := rfl
@[simp] theorem State.endRun_m16 (s : State) (r : Run) : (s.endRun r).m16 = r.m16 := rfl
@[simp] theorem State.endRun_m8 (s : State) (r : Run) : (s.endRun r).m8 = r.m8 := rfl
@[simp] theorem State.endRun_script (s : State) (r : Run) : (s.endRun r).script = s.script := rfl
@[simp] theorem State.endRun_seen (s : State) (r : Run) : (s.endRun r).seen = s.seen := rfl
@[simp] theorem State.endRun_draws (s : State) (r : Run) : (s.endRun r).draws = s.draws := rfl
@[simp] theorem State.endRun_get (s : State) (r : Run) (q : Reg) : (s.endRun r).get q = s.get q := by
  cases q <;> rfl

/-! ## `State.recordFault` -/

@[simp] theorem State.recordFault_status (s : State) (c : Cause) : (s.recordFault c).status = s.status.record c := rfl
@[simp] theorem State.recordFault_src (s : State) (c : Cause) : (s.recordFault c).src = s.src := rfl
@[simp] theorem State.recordFault_slen (s : State) (c : Cause) : (s.recordFault c).slen = s.slen := rfl
@[simp] theorem State.recordFault_pos (s : State) (c : Cause) : (s.recordFault c).pos = s.pos := rfl
@[simp] theorem State.recordFault_dst (s : State) (c : Cause) : (s.recordFault c).dst = s.dst := rfl
@[simp] theorem State.recordFault_dcap (s : State) (c : Cause) : (s.recordFault c).dcap = s.dcap := rfl
@[simp] theorem State.recordFault_didx (s : State) (c : Cause) : (s.recordFault c).didx = s.didx := rfl
@[simp] theorem State.recordFault_cp (s : State) (c : Cause) : (s.recordFault c).cp = s.cp := rfl
@[simp] theorem State.recordFault_cnt (s : State) (c : Cause) : (s.recordFault c).cnt = s.cnt := rfl
@[simp] theorem State.recordFault_params (s : State) (c : Cause) : (s.recordFault c).params = s.params := rfl
@[simp] theorem State.recordFault_m16 (s : State) (c : Cause) : (s.recordFault c).m16 = s.m16 := rfl
@[simp] theorem State.recordFault_m8 (s : State) (c : Cause) : (s.recordFault c).m8 = s.m8 := rfl
@[simp] theorem State.recordFault_script (s : State) (c : Cause) : (s.recordFault c).script = s.script := rfl
@[simp] theorem State.recordFault_seen (s : State) (c : Cause) : (s.recordFault c).seen = s.seen := rfl
@[simp] theorem State.recordFault_draws (s : State) (c : Cause) : (s.recordFault c).draws = s.draws := rfl
@[simp] theorem State.recordFault_get (s : State) (c : Cause) (q : Reg) : (s.recordFault c).get q = s.get q := by
  cases q <;> rfl

/-! ## `State.begin` -/

@[simp] theorem State.begin_status (s : State) : (s.begin).status = s.status.begin := rfl
@[simp] theorem State.begin_src (s : State) : (s.begin).src = s.src := rfl
@[simp] theorem State.begin_slen (s : State) : (s.begin).slen = s.slen := rfl
@[simp] theorem State.begin_pos (s : State) : (s.begin).pos = s.pos := rfl
@[simp] theorem State.begin_dst (s : State) : (s.begin).dst = s.dst := rfl
@[simp] theorem State.begin_dcap (s : State) : (s.begin).dcap = s.dcap := rfl
@[simp] theorem State.begin_didx (s : State) : (s.begin).didx = s.didx := rfl
@[simp] theorem State.begin_cp (s : State) : (s.begin).cp = s.cp := rfl
@[simp] theorem State.begin_cnt (s : State) : (s.begin).cnt = s.cnt := rfl
@[simp] theorem State.begin_params (s : State) : (s.begin).params = s.params := rfl
@[simp] theorem State.begin_m16 (s : State) : (s.begin).m16 = s.m16 := rfl
@[simp] theorem State.begin_m8 (s : State) : (s.begin).m8 = s.m8 := rfl
@[simp] theorem State.begin_script (s : State) : (s.begin).script = s.script := rfl
@[simp] theorem State.begin_seen (s : State) : (s.begin).seen = s.seen := rfl
@[simp] theorem State.begin_draws (s : State) : (s.begin).draws = s.draws := rfl
@[simp] theorem State.begin_get (s : State) (q : Reg) : (s.begin).get q = s.get q := by
  cases q <;> rfl

/-! ## `State.finish` -/

@[simp] theorem State.finish_status (s : State) : (s.finish).status = s.status.finish := rfl
@[simp] theorem State.finish_src (s : State) : (s.finish).src = s.src := rfl
@[simp] theorem State.finish_slen (s : State) : (s.finish).slen = s.slen := rfl
@[simp] theorem State.finish_pos (s : State) : (s.finish).pos = s.pos := rfl
@[simp] theorem State.finish_dst (s : State) : (s.finish).dst = s.dst := rfl
@[simp] theorem State.finish_dcap (s : State) : (s.finish).dcap = s.dcap := rfl
@[simp] theorem State.finish_didx (s : State) : (s.finish).didx = s.didx := rfl
@[simp] theorem State.finish_cp (s : State) : (s.finish).cp = s.cp := rfl
@[simp] theorem State.finish_cnt (s : State) : (s.finish).cnt = s.cnt := rfl
@[simp] theorem State.finish_params (s : State) : (s.finish).params = s.params := rfl
@[simp] theorem State.finish_m16 (s : State) : (s.finish).m16 = s.m16 := rfl
@[simp] theorem State.finish_m8 (s : State) : (s.finish).m8 = s.m8 := rfl
@[simp] theorem State.finish_script (s : State) : (s.finish).script = s.script := rfl
@[simp] theorem State.finish_seen (s : State) : (s.finish).seen = s.seen := rfl
@[simp] theorem State.finish_draws (s : State) : (s.finish).draws = s.draws := rfl
@[simp] theorem State.finish_get (s : State) (q : Reg) : (s.finish).get q = s.get q := by
  cases q <;> rfl

/-! ## `State.observe` -/

@[simp] theorem State.observe_status (s : State) (o : Obs) : (s.observe o).status = s.status := rfl
@[simp] theorem State.observe_src (s : State) (o : Obs) : (s.observe o).src = s.src := rfl
@[simp] theorem State.observe_slen (s : State) (o : Obs) : (s.observe o).slen = s.slen := rfl
@[simp] theorem State.observe_pos (s : State) (o : Obs) : (s.observe o).pos = s.pos := rfl
@[simp] theorem State.observe_dst (s : State) (o : Obs) : (s.observe o).dst = s.dst := rfl
@[simp] theorem State.observe_dcap (s : State) (o : Obs) : (s.observe o).dcap = s.dcap := rfl
@[simp] theorem State.observe_didx (s : State) (o : Obs) : (s.observe o).didx = s.didx := rfl
@[simp] theorem State.observe_cp (s : State) (o : Obs) : (s.observe o).cp = s.cp := rfl
@[simp] theorem State.observe_cnt (s : State) (o : Obs) : (s.observe o).cnt = s.cnt := rfl
@[simp] theorem State.observe_params (s : State) (o : Obs) : (s.observe o).params = s.params := rfl
@[simp] theorem State.observe_m16 (s : State) (o : Obs) : (s.observe o).m16 = s.m16 := rfl
@[simp] theorem State.observe_m8 (s : State) (o : Obs) : (s.observe o).m8 = s.m8 := rfl
@[simp] theorem State.observe_script (s : State) (o : Obs) : (s.observe o).script = s.script := rfl
@[simp] theorem State.observe_seen (s : State) (o : Obs) : (s.observe o).seen = s.seen ++ [o] := rfl
@[simp] theorem State.observe_draws (s : State) (o : Obs) : (s.observe o).draws = s.draws := rfl
@[simp] theorem State.observe_get (s : State) (o : Obs) (q : Reg) : (s.observe o).get q = s.get q := by
  cases q <;> rfl

/-! ## `State.draw` -/

@[simp] theorem State.draw_status (s : State) : (s.draw).status = s.status := rfl
@[simp] theorem State.draw_src (s : State) : (s.draw).src = s.src := rfl
@[simp] theorem State.draw_slen (s : State) : (s.draw).slen = s.slen := rfl
@[simp] theorem State.draw_pos (s : State) : (s.draw).pos = s.pos := rfl
@[simp] theorem State.draw_dst (s : State) : (s.draw).dst = s.dst := rfl
@[simp] theorem State.draw_dcap (s : State) : (s.draw).dcap = s.dcap := rfl
@[simp] theorem State.draw_didx (s : State) : (s.draw).didx = s.didx := rfl
@[simp] theorem State.draw_cp (s : State) : (s.draw).cp = s.cp := rfl
@[simp] theorem State.draw_cnt (s : State) : (s.draw).cnt = s.cnt := rfl
@[simp] theorem State.draw_params (s : State) : (s.draw).params = s.params := rfl
@[simp] theorem State.draw_m16 (s : State) : (s.draw).m16 = s.m16 := rfl
@[simp] theorem State.draw_m8 (s : State) : (s.draw).m8 = s.m8 := rfl
@[simp] theorem State.draw_script (s : State) : (s.draw).script = s.script := rfl
@[simp] theorem State.draw_seen (s : State) : (s.draw).seen = s.seen := rfl
@[simp] theorem State.draw_draws (s : State) : (s.draw).draws = s.draws + 1 := rfl
@[simp] theorem State.draw_get (s : State) (q : Reg) : (s.draw).get q = s.get q := by
  cases q <;> rfl

/-! ## `State.resetEngine` -/

@[simp] theorem State.resetEngine_status (s : State) : (s.resetEngine).status = Status.zero := rfl
@[simp] theorem State.resetEngine_src (s : State) : (s.resetEngine).src = none := rfl
@[simp] theorem State.resetEngine_slen (s : State) : (s.resetEngine).slen = none := rfl
@[simp] theorem State.resetEngine_pos (s : State) : (s.resetEngine).pos = none := rfl
@[simp] theorem State.resetEngine_dst (s : State) : (s.resetEngine).dst = none := rfl
@[simp] theorem State.resetEngine_dcap (s : State) : (s.resetEngine).dcap = none := rfl
@[simp] theorem State.resetEngine_didx (s : State) : (s.resetEngine).didx = none := rfl
@[simp] theorem State.resetEngine_cp (s : State) : (s.resetEngine).cp = none := rfl
@[simp] theorem State.resetEngine_cnt (s : State) : (s.resetEngine).cnt = none := rfl
@[simp] theorem State.resetEngine_params (s : State) : (s.resetEngine).params = s.params := rfl
@[simp] theorem State.resetEngine_m16 (s : State) : (s.resetEngine).m16 = s.m16 := rfl
@[simp] theorem State.resetEngine_m8 (s : State) : (s.resetEngine).m8 = s.m8 := rfl
@[simp] theorem State.resetEngine_script (s : State) : (s.resetEngine).script = s.script := rfl
@[simp] theorem State.resetEngine_seen (s : State) : (s.resetEngine).seen = s.seen := rfl
@[simp] theorem State.resetEngine_draws (s : State) : (s.resetEngine).draws = s.draws := rfl
@[simp] theorem State.resetEngine_get (s : State) (q : Reg) : s.resetEngine.get q = none := by
  cases q <;> rfl

/-! ## `State.set`: what it leaves, and what it sets -/

@[simp] theorem State.set_status (s : State) (r : Reg) (v : Word) : (s.set r v).status = s.status := by
  cases r <;> rfl
@[simp] theorem State.set_params (s : State) (r : Reg) (v : Word) : (s.set r v).params = s.params := by
  cases r <;> rfl
@[simp] theorem State.set_m16 (s : State) (r : Reg) (v : Word) : (s.set r v).m16 = s.m16 := by
  cases r <;> rfl
@[simp] theorem State.set_m8 (s : State) (r : Reg) (v : Word) : (s.set r v).m8 = s.m8 := by
  cases r <;> rfl
@[simp] theorem State.set_script (s : State) (r : Reg) (v : Word) : (s.set r v).script = s.script := by
  cases r <;> rfl
@[simp] theorem State.set_seen (s : State) (r : Reg) (v : Word) : (s.set r v).seen = s.seen := by
  cases r <;> rfl
@[simp] theorem State.set_draws (s : State) (r : Reg) (v : Word) : (s.set r v).draws = s.draws := by
  cases r <;> rfl

theorem State.get_set (s : State) (r q : Reg) (v : Word) :
    (s.set r v).get q = if q = r then some v else s.get q := by
  cases r <;> cases q <;> rfl

@[simp] theorem State.get_set_same (s : State) (r : Reg) (v : Word) : (s.set r v).get r = some v := by
  simp [State.get_set]

@[simp] theorem State.get_set_of_ne (s : State) (r q : Reg) (v : Word) (h : q ≠ r) :
    (s.set r v).get q = s.get q := by
  simp [State.get_set, h]

/-! ## Registers by name -/

@[simp] theorem State.get_src (s : State) : s.get .src = s.src := rfl
@[simp] theorem State.get_slen (s : State) : s.get .slen = s.slen := rfl
@[simp] theorem State.get_pos (s : State) : s.get .pos = s.pos := rfl
@[simp] theorem State.get_dst (s : State) : s.get .dst = s.dst := rfl
@[simp] theorem State.get_dcap (s : State) : s.get .dcap = s.dcap := rfl
@[simp] theorem State.get_didx (s : State) : s.get .didx = s.didx := rfl
@[simp] theorem State.get_cp (s : State) : s.get .cp = s.cp := rfl
@[simp] theorem State.get_cnt (s : State) : s.get .cnt = s.cnt := rfl
theorem State.set_src_eq (s : State) (v : Word) : s.set .src v = { s with src := some v } := rfl
theorem State.set_slen_eq (s : State) (v : Word) : s.set .slen v = { s with slen := some v } := rfl
theorem State.set_pos_eq (s : State) (v : Word) : s.set .pos v = { s with pos := some v } := rfl
theorem State.set_dst_eq (s : State) (v : Word) : s.set .dst v = { s with dst := some v } := rfl
theorem State.set_dcap_eq (s : State) (v : Word) : s.set .dcap v = { s with dcap := some v } := rfl
theorem State.set_didx_eq (s : State) (v : Word) : s.set .didx v = { s with didx := some v } := rfl
theorem State.set_cp_eq (s : State) (v : Word) : s.set .cp v = { s with cp := some v } := rfl
theorem State.set_cnt_eq (s : State) (v : Word) : s.set .cnt v = { s with cnt := some v } := rfl

/-- Two states with the same fields are the same state, the registers taken together. -/
theorem State.ext_get {s t : State} (h0 : s.status = t.status) (hr : ∀ q, s.get q = t.get q)
    (hp : s.params = t.params) (h16 : s.m16 = t.m16) (h8 : s.m8 = t.m8) (hs : s.script = t.script)
    (hn : s.seen = t.seen) (hd : s.draws = t.draws) : s = t := by
  have r1 := hr .src
  have r2 := hr .slen
  have r3 := hr .pos
  have r4 := hr .dst
  have r5 := hr .dcap
  have r6 := hr .didx
  have r7 := hr .cp
  have r8 := hr .cnt
  cases s
  cases t
  simp_all [State.get]

/-! ## STATUS -/

@[simp] theorem Status.begin_fault (st : Status) : st.begin.fault = st.fault := rfl
@[simp] theorem Status.begin_cause (st : Status) : st.begin.cause = st.cause := rfl
@[simp] theorem Status.begin_busy (st : Status) : st.begin.busy = true := rfl
@[simp] theorem Status.finish_fault (st : Status) : st.finish.fault = st.fault := rfl
@[simp] theorem Status.finish_cause (st : Status) : st.finish.cause = st.cause := rfl
@[simp] theorem Status.finish_busy (st : Status) : st.finish.busy = false := rfl
@[simp] theorem Status.record_fault (st : Status) (c : Cause) : (st.record c).fault = true := rfl
@[simp] theorem Status.record_cause (st : Status) (c : Cause) : (st.record c).cause = c.code := rfl
@[simp] theorem Status.record_busy (st : Status) (c : Cause) : (st.record c).busy = false := rfl
@[simp] theorem Status.record_finish (st : Status) (c : Cause) :
    (st.record c).finish = st.record c := rfl

/-- A recorded fault is a legal value of STATUS, whatever it was before. -/
theorem Status.record_legal (st : Status) (c : Cause) : (st.record c).legal = true := by
  cases c <;> rfl

end Sys2Proof.Machine
end

