-- ==== Sys2Proof/Laws/Operands.lean ====
section
/-! SUPPORT. Sys2Proof/Laws/Operands.lean: what a register read, a check and the ends of a command can
do, said once. -/

namespace Sys2Proof.Machine

/-! ## Reading a register -/

theorem readReg_of_some {r : Reg} {s : State} {v : Word} (k : Word → Result) (h : s.get r = some v) :
    readReg r s k = k v := by
  simp [readReg, h]

theorem readReg_of_none {r : Reg} {s : State} (k : Word → Result) (h : s.get r = none) :
    readReg r s k = raiseFault .unwritten s := by
  simp [readReg, h]

/-- A register read goes on with the register's value, or raises UNWRITTEN. -/
theorem readReg_cases (r : Reg) (s : State) (k : Word → Result) :
    (∃ v, s.get r = some v ∧ readReg r s k = k v) ∨
    (s.get r = none ∧ readReg r s k = raiseFault .unwritten s) := by
  cases h : s.get r with
  | none => exact .inr ⟨rfl, readReg_of_none k h⟩
  | some v => exact .inl ⟨v, rfl, readReg_of_some k h⟩

/-! ## Checks -/

@[simp] theorem require_true (c : Cause) (s : State) (k : Result) : require true c s k = k := rfl

@[simp] theorem require_false (c : Cause) (s : State) (k : Result) :
    require false c s k = raiseFault c s := rfl

/-- A check goes on, or raises its fault. -/
theorem require_cases (ok : Bool) (c : Cause) (s : State) (k : Result) :
    (ok = true ∧ require ok c s k = k) ∨ (ok = false ∧ require ok c s k = raiseFault c s) := by
  cases ok
  · exact .inr ⟨rfl, rfl⟩
  · exact .inl ⟨rfl, rfl⟩

theorem requireCodepoint_of_le {c : Word} (s : State) (k : Result) (h : c.toNat ≤ maxCodepoint) :
    requireCodepoint c s k = k := by
  simp [requireCodepoint, h]

theorem requireCodepoint_of_lt {c : Word} (s : State) (k : Result) (h : maxCodepoint < c.toNat) :
    requireCodepoint c s k = raiseFault .cpDomain s := by
  simp [requireCodepoint, Nat.not_le.2 h]

theorem requireAdmitted16_of {b n : Word} {s : State} (k : Result)
    (h : admitted s.params.admit16 b.toNat n.toNat = true) : requireAdmitted16 b n s k = k := by
  simp [requireAdmitted16, h]

theorem requireAdmitted8_of {b n : Word} {s : State} (k : Result)
    (h : admitted s.params.admit8 b.toNat n.toNat = true) : requireAdmitted8 b n s k = k := by
  simp [requireAdmitted8, h]

/-! ## Every command answers a next state -/

/-- A command that either raises a fault or goes on to `k` has `P` when both have. -/
theorem readReg_induction {P : Result → Prop} {r : Reg} {s : State} {k : Word → Result}
    (hf : P (raiseFault .unwritten s)) (hk : ∀ v, s.get r = some v → P (k v)) : P (readReg r s k) := by
  rcases readReg_cases r s k with ⟨v, hv, h⟩ | ⟨_, h⟩ <;> rw [h]
  · exact hk v hv
  · exact hf

theorem require_induction {P : Result → Prop} {ok : Bool} {c : Cause} {s : State} {k : Result}
    (hf : P (raiseFault c s)) (hk : ok = true → P k) : P (require ok c s k) := by
  rcases require_cases ok c s k with ⟨hok, h⟩ | ⟨_, h⟩ <;> rw [h]
  · exact hk hok
  · exact hf

end Sys2Proof.Machine
end

