-- ==== Sys2Proof/Laws/Meanings.lean ====
section
/-! SUPPORT. Sys2Proof/Laws/Meanings.lean: for each command, that it completes when its operands are
written and its checks pass (`_completes`), and that otherwise it raises one fault (`_cases`): the
inversion a proof about the command cites instead of unfolding its meaning. -/

namespace Sys2Proof.Machine

theorem execDec16_completes {s : State} {src n p : Word}
    (h1 : s.src = some src)
    (h2 : s.slen = some n)
    (h3 : s.pos = some p)
    (k1 : p.toNat < n.toNat)
    (a1 : admitted s.params.admit16 src.toNat n.toNat = true) :
    execDec16 s =
      finishDecode s (utf16Decode (source16 s.m16 src) n.toNat p.toNat) := by
  simp [execDec16, readReg, requireAdmitted16, h1, h2, h3, k1, a1]

theorem execDec16_cases (s : State) :
    (∃ c, execDec16 s = raiseFault c s) ∨
    ∃ src n p, s.src = some src ∧
      s.slen = some n ∧
      s.pos = some p ∧
      p.toNat < n.toNat ∧
      admitted s.params.admit16 src.toNat n.toNat = true ∧
      execDec16 s =
        finishDecode s (utf16Decode (source16 s.m16 src) n.toNat p.toNat) := by
  cases h1 : s.src with
  | none => exact .inl ⟨.unwritten, by simp [execDec16, readReg, h1]⟩
  | some src =>
    cases h2 : s.slen with
    | none => exact .inl ⟨.unwritten, by simp [execDec16, readReg, h1, h2]⟩
    | some n =>
      cases h3 : s.pos with
      | none => exact .inl ⟨.unwritten, by simp [execDec16, readReg, h1, h2, h3]⟩
      | some p =>
        by_cases k1 : p.toNat < n.toNat
        swap
        · exact .inl ⟨.posRange, by simp [execDec16, readReg, h1, h2, h3, k1]⟩
        by_cases a1 : admitted s.params.admit16 src.toNat n.toNat = true
        swap
        · exact .inl ⟨.access, by simp [execDec16, readReg, requireAdmitted16, h1, h2, h3,
            k1, a1]⟩
        exact .inr ⟨src, n, p, rfl, rfl, rfl, k1, a1,
          execDec16_completes h1 h2 h3 k1 a1⟩

theorem execDec8_completes {s : State} {src n p : Word}
    (h1 : s.src = some src)
    (h2 : s.slen = some n)
    (h3 : s.pos = some p)
    (k1 : p.toNat < n.toNat)
    (a1 : admitted s.params.admit8 src.toNat n.toNat = true) :
    execDec8 s =
      finishDecode s (utf8Decode s.params.failPos (source8 s.m8 src) n.toNat p.toNat) := by
  simp [execDec8, readReg, requireAdmitted8, h1, h2, h3, k1, a1]

theorem execDec8_cases (s : State) :
    (∃ c, execDec8 s = raiseFault c s) ∨
    ∃ src n p, s.src = some src ∧
      s.slen = some n ∧
      s.pos = some p ∧
      p.toNat < n.toNat ∧
      admitted s.params.admit8 src.toNat n.toNat = true ∧
      execDec8 s =
        finishDecode s (utf8Decode s.params.failPos (source8 s.m8 src) n.toNat p.toNat) := by
  cases h1 : s.src with
  | none => exact .inl ⟨.unwritten, by simp [execDec8, readReg, h1]⟩
  | some src =>
    cases h2 : s.slen with
    | none => exact .inl ⟨.unwritten, by simp [execDec8, readReg, h1, h2]⟩
    | some n =>
      cases h3 : s.pos with
      | none => exact .inl ⟨.unwritten, by simp [execDec8, readReg, h1, h2, h3]⟩
      | some p =>
        by_cases k1 : p.toNat < n.toNat
        swap
        · exact .inl ⟨.posRange, by simp [execDec8, readReg, h1, h2, h3, k1]⟩
        by_cases a1 : admitted s.params.admit8 src.toNat n.toNat = true
        swap
        · exact .inl ⟨.access, by simp [execDec8, readReg, requireAdmitted8, h1, h2, h3, k1, a1]⟩
        exact .inr ⟨src, n, p, rfl, rfl, rfl, k1, a1,
          execDec8_completes h1 h2 h3 k1 a1⟩

theorem execEnc16_completes {s : State} {c dst cap i : Word}
    (h1 : s.cp = some c)
    (h2 : s.dst = some dst)
    (h3 : s.dcap = some cap)
    (h4 : s.didx = some i)
    (k1 : c.toNat ≤ maxCodepoint)
    (a1 : admitted s.params.admit16 dst.toNat cap.toNat = true) :
    execEnc16 s =
      finishCount s (enc16At dst.toNat cap.toNat c i.toNat s.startRun) := by
  simp [execEnc16, readReg, requireCodepoint, requireAdmitted16, h1, h2, h3, h4, k1, a1]

theorem execEnc16_cases (s : State) :
    (∃ c, execEnc16 s = raiseFault c s) ∨
    ∃ c dst cap i, s.cp = some c ∧
      s.dst = some dst ∧
      s.dcap = some cap ∧
      s.didx = some i ∧
      c.toNat ≤ maxCodepoint ∧
      admitted s.params.admit16 dst.toNat cap.toNat = true ∧
      execEnc16 s =
        finishCount s (enc16At dst.toNat cap.toNat c i.toNat s.startRun) := by
  cases h1 : s.cp with
  | none => exact .inl ⟨.unwritten, by simp [execEnc16, readReg, h1]⟩
  | some c =>
    cases h2 : s.dst with
    | none => exact .inl ⟨.unwritten, by simp [execEnc16, readReg, h1, h2]⟩
    | some dst =>
      cases h3 : s.dcap with
      | none => exact .inl ⟨.unwritten, by simp [execEnc16, readReg, h1, h2, h3]⟩
      | some cap =>
        cases h4 : s.didx with
        | none => exact .inl ⟨.unwritten, by simp [execEnc16, readReg, h1, h2, h3, h4]⟩
        | some i =>
          by_cases k1 : c.toNat ≤ maxCodepoint
          swap
          · exact .inl ⟨.cpDomain, by simp [execEnc16, readReg, requireCodepoint, h1, h2, h3,
              h4, k1]⟩
          by_cases a1 : admitted s.params.admit16 dst.toNat cap.toNat = true
          swap
          · exact .inl ⟨.access, by simp [execEnc16, readReg, requireCodepoint,
              requireAdmitted16, h1, h2, h3, h4, k1, a1]⟩
          exact .inr ⟨c, dst, cap, i, rfl, rfl, rfl, rfl, k1, a1,
            execEnc16_completes h1 h2 h3 h4 k1 a1⟩

theorem execLen16_completes {s : State} {c : Word}
    (h1 : s.cp = some c)
    (k1 : c.toNat ≤ maxCodepoint) :
    execLen16 s =
      .next (s.set .cnt (toWord (utf16Len c))) := by
  simp [execLen16, lengthCommand, readReg, requireCodepoint, h1, k1]

theorem execLen16_cases (s : State) :
    (∃ c, execLen16 s = raiseFault c s) ∨
    ∃ c, s.cp = some c ∧
      c.toNat ≤ maxCodepoint ∧
      execLen16 s =
        .next (s.set .cnt (toWord (utf16Len c))) := by
  cases h1 : s.cp with
  | none => exact .inl ⟨.unwritten, by simp [execLen16, lengthCommand, readReg, h1]⟩
  | some c =>
    by_cases k1 : c.toNat ≤ maxCodepoint
    swap
    · exact .inl ⟨.cpDomain, by simp [execLen16, lengthCommand, readReg, requireCodepoint,
        h1, k1]⟩
    exact .inr ⟨c, rfl, k1,
      execLen16_completes h1 k1⟩

theorem execEnc8_completes {s : State} {c dst cap i : Word}
    (h1 : s.cp = some c)
    (h2 : s.dst = some dst)
    (h3 : s.dcap = some cap)
    (h4 : s.didx = some i)
    (k1 : c.toNat ≤ maxCodepoint)
    (a1 : admitted s.params.admit8 dst.toNat cap.toNat = true) :
    execEnc8 s =
      finishCount s (enc8At dst.toNat cap.toNat c i.toNat s.startRun) := by
  simp [execEnc8, readReg, requireCodepoint, requireAdmitted8, h1, h2, h3, h4, k1, a1]

theorem execEnc8_cases (s : State) :
    (∃ c, execEnc8 s = raiseFault c s) ∨
    ∃ c dst cap i, s.cp = some c ∧
      s.dst = some dst ∧
      s.dcap = some cap ∧
      s.didx = some i ∧
      c.toNat ≤ maxCodepoint ∧
      admitted s.params.admit8 dst.toNat cap.toNat = true ∧
      execEnc8 s =
        finishCount s (enc8At dst.toNat cap.toNat c i.toNat s.startRun) := by
  cases h1 : s.cp with
  | none => exact .inl ⟨.unwritten, by simp [execEnc8, readReg, h1]⟩
  | some c =>
    cases h2 : s.dst with
    | none => exact .inl ⟨.unwritten, by simp [execEnc8, readReg, h1, h2]⟩
    | some dst =>
      cases h3 : s.dcap with
      | none => exact .inl ⟨.unwritten, by simp [execEnc8, readReg, h1, h2, h3]⟩
      | some cap =>
        cases h4 : s.didx with
        | none => exact .inl ⟨.unwritten, by simp [execEnc8, readReg, h1, h2, h3, h4]⟩
        | some i =>
          by_cases k1 : c.toNat ≤ maxCodepoint
          swap
          · exact .inl ⟨.cpDomain, by simp [execEnc8, readReg, requireCodepoint, h1, h2, h3,
              h4, k1]⟩
          by_cases a1 : admitted s.params.admit8 dst.toNat cap.toNat = true
          swap
          · exact .inl ⟨.access, by simp [execEnc8, readReg, requireCodepoint,
              requireAdmitted8, h1, h2, h3, h4, k1, a1]⟩
          exact .inr ⟨c, dst, cap, i, rfl, rfl, rfl, rfl, k1, a1,
            execEnc8_completes h1 h2 h3 h4 k1 a1⟩

theorem execLen8_completes {s : State} {c : Word}
    (h1 : s.cp = some c)
    (k1 : c.toNat ≤ maxCodepoint) :
    execLen8 s =
      .next (s.set .cnt (toWord (utf8MinLen c))) := by
  simp [execLen8, lengthCommand, readReg, requireCodepoint, h1, k1]

theorem execLen8_cases (s : State) :
    (∃ c, execLen8 s = raiseFault c s) ∨
    ∃ c, s.cp = some c ∧
      c.toNat ≤ maxCodepoint ∧
      execLen8 s =
        .next (s.set .cnt (toWord (utf8MinLen c))) := by
  cases h1 : s.cp with
  | none => exact .inl ⟨.unwritten, by simp [execLen8, lengthCommand, readReg, h1]⟩
  | some c =>
    by_cases k1 : c.toNat ≤ maxCodepoint
    swap
    · exact .inl ⟨.cpDomain, by simp [execLen8, lengthCommand, readReg, requireCodepoint, h1, k1]⟩
    exact .inr ⟨c, rfl, k1,
      execLen8_completes h1 k1⟩

theorem execEncvis_completes {s : State} {c dst cap i : Word}
    (h1 : s.cp = some c)
    (h2 : s.dst = some dst)
    (h3 : s.dcap = some cap)
    (h4 : s.didx = some i)
    (k1 : c.toNat ≤ maxCodepoint)
    (a1 : admitted s.params.admit8 dst.toNat cap.toNat = true) :
    execEncvis s =
      finishCount s (encVisAt s.params.encTable dst.toNat cap.toNat c i.toNat s.startRun) := by
  simp [execEncvis, readReg, requireCodepoint, requireAdmitted8, h1, h2, h3, h4, k1, a1]

theorem execEncvis_cases (s : State) :
    (∃ c, execEncvis s = raiseFault c s) ∨
    ∃ c dst cap i, s.cp = some c ∧
      s.dst = some dst ∧
      s.dcap = some cap ∧
      s.didx = some i ∧
      c.toNat ≤ maxCodepoint ∧
      admitted s.params.admit8 dst.toNat cap.toNat = true ∧
      execEncvis s =
        finishCount s (encVisAt s.params.encTable dst.toNat cap.toNat c i.toNat s.startRun) := by
  cases h1 : s.cp with
  | none => exact .inl ⟨.unwritten, by simp [execEncvis, readReg, h1]⟩
  | some c =>
    cases h2 : s.dst with
    | none => exact .inl ⟨.unwritten, by simp [execEncvis, readReg, h1, h2]⟩
    | some dst =>
      cases h3 : s.dcap with
      | none => exact .inl ⟨.unwritten, by simp [execEncvis, readReg, h1, h2, h3]⟩
      | some cap =>
        cases h4 : s.didx with
        | none => exact .inl ⟨.unwritten, by simp [execEncvis, readReg, h1, h2, h3, h4]⟩
        | some i =>
          by_cases k1 : c.toNat ≤ maxCodepoint
          swap
          · exact .inl ⟨.cpDomain, by simp [execEncvis, readReg, requireCodepoint, h1, h2,
              h3, h4, k1]⟩
          by_cases a1 : admitted s.params.admit8 dst.toNat cap.toNat = true
          swap
          · exact .inl ⟨.access, by simp [execEncvis, readReg, requireCodepoint,
              requireAdmitted8, h1, h2, h3, h4, k1, a1]⟩
          exact .inr ⟨c, dst, cap, i, rfl, rfl, rfl, rfl, k1, a1,
            execEncvis_completes h1 h2 h3 h4 k1 a1⟩

theorem execLenvis_completes {s : State} {c : Word}
    (h1 : s.cp = some c)
    (k1 : c.toNat ≤ maxCodepoint) :
    execLenvis s =
      .next (s.set .cnt (toWord (visLen c))) := by
  simp [execLenvis, lengthCommand, readReg, requireCodepoint, h1, k1]

theorem execLenvis_cases (s : State) :
    (∃ c, execLenvis s = raiseFault c s) ∨
    ∃ c, s.cp = some c ∧
      c.toNat ≤ maxCodepoint ∧
      execLenvis s =
        .next (s.set .cnt (toWord (visLen c))) := by
  cases h1 : s.cp with
  | none => exact .inl ⟨.unwritten, by simp [execLenvis, lengthCommand, readReg, h1]⟩
  | some c =>
    by_cases k1 : c.toNat ≤ maxCodepoint
    swap
    · exact .inl ⟨.cpDomain, by simp [execLenvis, lengthCommand, readReg, requireCodepoint,
        h1, k1]⟩
    exact .inr ⟨c, rfl, k1,
      execLenvis_completes h1 k1⟩

theorem execFold_completes {s : State} {src n : Word}
    (h1 : s.src = some src)
    (h2 : s.slen = some n)
    (a1 : admitted s.params.admit8 src.toNat n.toNat = true) :
    execFold s =
      .next (s.endRun (foldPass s.params.caseTable n.toNat src.toNat s.startRun)) := by
  simp [execFold, readReg, requireAdmitted8, h1, h2, a1]

theorem execFold_cases (s : State) :
    (∃ c, execFold s = raiseFault c s) ∨
    ∃ src n, s.src = some src ∧
      s.slen = some n ∧
      admitted s.params.admit8 src.toNat n.toNat = true ∧
      execFold s =
        .next (s.endRun (foldPass s.params.caseTable n.toNat src.toNat s.startRun)) := by
  cases h1 : s.src with
  | none => exact .inl ⟨.unwritten, by simp [execFold, readReg, h1]⟩
  | some src =>
    cases h2 : s.slen with
    | none => exact .inl ⟨.unwritten, by simp [execFold, readReg, h1, h2]⟩
    | some n =>
      by_cases a1 : admitted s.params.admit8 src.toNat n.toNat = true
      swap
      · exact .inl ⟨.access, by simp [execFold, readReg, requireAdmitted8, h1, h2, a1]⟩
      exact .inr ⟨src, n, rfl, rfl, a1,
        execFold_completes h1 h2 a1⟩

theorem execCvt16to8_completes {s : State} {src n dst cap : Word}
    (h1 : s.src = some src)
    (h2 : s.slen = some n)
    (h3 : s.dst = some dst)
    (h4 : s.dcap = some cap)
    (a1 : admitted s.params.admit16 src.toNat n.toNat = true)
    (a2 : admitted s.params.admit8 dst.toNat cap.toNat = true) :
    execCvt16to8 s =
      finishCount s (convert (decodeSource16 src n) (enc8At dst.toNat cap.toNat) n.toNat s.startRun) := by
  simp [execCvt16to8, readReg, requireAdmitted16, requireAdmitted8, h1, h2, h3, h4, a1, a2]

theorem execCvt16to8_cases (s : State) :
    (∃ c, execCvt16to8 s = raiseFault c s) ∨
    ∃ src n dst cap, s.src = some src ∧
      s.slen = some n ∧
      s.dst = some dst ∧
      s.dcap = some cap ∧
      admitted s.params.admit16 src.toNat n.toNat = true ∧
      admitted s.params.admit8 dst.toNat cap.toNat = true ∧
      execCvt16to8 s =
        finishCount s (convert (decodeSource16 src n) (enc8At dst.toNat cap.toNat) n.toNat s.startRun) := by
  cases h1 : s.src with
  | none => exact .inl ⟨.unwritten, by simp [execCvt16to8, readReg, h1]⟩
  | some src =>
    cases h2 : s.slen with
    | none => exact .inl ⟨.unwritten, by simp [execCvt16to8, readReg, h1, h2]⟩
    | some n =>
      cases h3 : s.dst with
      | none => exact .inl ⟨.unwritten, by simp [execCvt16to8, readReg, h1, h2, h3]⟩
      | some dst =>
        cases h4 : s.dcap with
        | none => exact .inl ⟨.unwritten, by simp [execCvt16to8, readReg, h1, h2, h3, h4]⟩
        | some cap =>
          by_cases a1 : admitted s.params.admit16 src.toNat n.toNat = true
          swap
          · exact .inl ⟨.access, by simp [execCvt16to8, readReg, requireAdmitted16, h1, h2,
              h3, h4, a1]⟩
          by_cases a2 : admitted s.params.admit8 dst.toNat cap.toNat = true
          swap
          · exact .inl ⟨.access, by simp [execCvt16to8, readReg, requireAdmitted16,
              requireAdmitted8, h1, h2, h3, h4, a1, a2]⟩
          exact .inr ⟨src, n, dst, cap, rfl, rfl, rfl, rfl, a1, a2,
            execCvt16to8_completes h1 h2 h3 h4 a1 a2⟩

theorem execCvt8to16_completes {s : State} {src n dst cap : Word}
    (h1 : s.src = some src)
    (h2 : s.slen = some n)
    (h3 : s.dst = some dst)
    (h4 : s.dcap = some cap)
    (a1 : admitted s.params.admit8 src.toNat n.toNat = true)
    (a2 : admitted s.params.admit16 dst.toNat cap.toNat = true) :
    execCvt8to16 s =
      finishCount s (convert (decodeSource8 s.params.failPos src n) (enc16At dst.toNat cap.toNat) n.toNat s.startRun) := by
  simp [execCvt8to16, readReg, requireAdmitted16, requireAdmitted8, h1, h2, h3, h4, a1, a2]

theorem execCvt8to16_cases (s : State) :
    (∃ c, execCvt8to16 s = raiseFault c s) ∨
    ∃ src n dst cap, s.src = some src ∧
      s.slen = some n ∧
      s.dst = some dst ∧
      s.dcap = some cap ∧
      admitted s.params.admit8 src.toNat n.toNat = true ∧
      admitted s.params.admit16 dst.toNat cap.toNat = true ∧
      execCvt8to16 s =
        finishCount s (convert (decodeSource8 s.params.failPos src n) (enc16At dst.toNat cap.toNat) n.toNat s.startRun) := by
  cases h1 : s.src with
  | none => exact .inl ⟨.unwritten, by simp [execCvt8to16, readReg, h1]⟩
  | some src =>
    cases h2 : s.slen with
    | none => exact .inl ⟨.unwritten, by simp [execCvt8to16, readReg, h1, h2]⟩
    | some n =>
      cases h3 : s.dst with
      | none => exact .inl ⟨.unwritten, by simp [execCvt8to16, readReg, h1, h2, h3]⟩
      | some dst =>
        cases h4 : s.dcap with
        | none => exact .inl ⟨.unwritten, by simp [execCvt8to16, readReg, h1, h2, h3, h4]⟩
        | some cap =>
          by_cases a1 : admitted s.params.admit8 src.toNat n.toNat = true
          swap
          · exact .inl ⟨.access, by simp [execCvt8to16, readReg, requireAdmitted8, h1, h2,
              h3, h4, a1]⟩
          by_cases a2 : admitted s.params.admit16 dst.toNat cap.toNat = true
          swap
          · exact .inl ⟨.access, by simp [execCvt8to16, readReg, requireAdmitted8,
              requireAdmitted16, h1, h2, h3, h4, a1, a2]⟩
          exact .inr ⟨src, n, dst, cap, rfl, rfl, rfl, rfl, a1, a2,
            execCvt8to16_completes h1 h2 h3 h4 a1 a2⟩

theorem execCvt8tovis_completes {s : State} {src n dst cap : Word}
    (h1 : s.src = some src)
    (h2 : s.slen = some n)
    (h3 : s.dst = some dst)
    (h4 : s.dcap = some cap)
    (k1 : overlap src.toNat n.toNat dst.toNat cap.toNat = false)
    (a1 : admitted s.params.admit8 src.toNat n.toNat = true)
    (a2 : admitted s.params.admit8 dst.toNat cap.toNat = true) :
    execCvt8tovis s =
      finishCount s (convert (decodeSource8 s.params.failPos src n) (encVisAt s.params.encTable dst.toNat cap.toNat) n.toNat s.startRun) := by
  simp [execCvt8tovis, readReg, requireAdmitted8, h1, h2, h3, h4, k1, a1, a2]

theorem execCvt8tovis_cases (s : State) :
    (∃ c, execCvt8tovis s = raiseFault c s) ∨
    ∃ src n dst cap, s.src = some src ∧
      s.slen = some n ∧
      s.dst = some dst ∧
      s.dcap = some cap ∧
      overlap src.toNat n.toNat dst.toNat cap.toNat = false ∧
      admitted s.params.admit8 src.toNat n.toNat = true ∧
      admitted s.params.admit8 dst.toNat cap.toNat = true ∧
      execCvt8tovis s =
        finishCount s (convert (decodeSource8 s.params.failPos src n) (encVisAt s.params.encTable dst.toNat cap.toNat) n.toNat s.startRun) := by
  cases h1 : s.src with
  | none => exact .inl ⟨.unwritten, by simp [execCvt8tovis, readReg, h1]⟩
  | some src =>
    cases h2 : s.slen with
    | none => exact .inl ⟨.unwritten, by simp [execCvt8tovis, readReg, h1, h2]⟩
    | some n =>
      cases h3 : s.dst with
      | none => exact .inl ⟨.unwritten, by simp [execCvt8tovis, readReg, h1, h2, h3]⟩
      | some dst =>
        cases h4 : s.dcap with
        | none => exact .inl ⟨.unwritten, by simp [execCvt8tovis, readReg, h1, h2, h3, h4]⟩
        | some cap =>
          by_cases a1 : admitted s.params.admit8 src.toNat n.toNat = true
          swap
          · exact .inl ⟨.access, by simp [execCvt8tovis, readReg, requireAdmitted8, h1, h2,
              h3, h4, a1]⟩
          by_cases a2 : admitted s.params.admit8 dst.toNat cap.toNat = true
          swap
          · exact .inl ⟨.access, by simp [execCvt8tovis, readReg, requireAdmitted8, h1, h2,
              h3, h4, a1, a2]⟩
          by_cases k1 : overlap src.toNat n.toNat dst.toNat cap.toNat = false
          swap
          · exact .inl ⟨.overlap, by simp [execCvt8tovis, readReg, requireAdmitted8, h1, h2,
              h3, h4, a1, a2, k1]⟩
          exact .inr ⟨src, n, dst, cap, rfl, rfl, rfl, rfl, k1, a1, a2,
            execCvt8tovis_completes h1 h2 h3 h4 k1 a1 a2⟩

theorem execCvt16to8M_completes {s : State} {src n : Word}
    (h1 : s.src = some src)
    (h2 : s.slen = some n)
    (a1 : admitted s.params.admit16 src.toNat n.toNat = true) :
    execCvt16to8M s =
      finishMeasure s (convert (decodeSource16 src n) (measureOnly utf8MinLen) n.toNat s.startRun) := by
  simp [execCvt16to8M, readReg, requireAdmitted16, h1, h2, a1]

theorem execCvt16to8M_cases (s : State) :
    (∃ c, execCvt16to8M s = raiseFault c s) ∨
    ∃ src n, s.src = some src ∧
      s.slen = some n ∧
      admitted s.params.admit16 src.toNat n.toNat = true ∧
      execCvt16to8M s =
        finishMeasure s (convert (decodeSource16 src n) (measureOnly utf8MinLen) n.toNat s.startRun) := by
  cases h1 : s.src with
  | none => exact .inl ⟨.unwritten, by simp [execCvt16to8M, readReg, h1]⟩
  | some src =>
    cases h2 : s.slen with
    | none => exact .inl ⟨.unwritten, by simp [execCvt16to8M, readReg, h1, h2]⟩
    | some n =>
      by_cases a1 : admitted s.params.admit16 src.toNat n.toNat = true
      swap
      · exact .inl ⟨.access, by simp [execCvt16to8M, readReg, requireAdmitted16, h1, h2, a1]⟩
      exact .inr ⟨src, n, rfl, rfl, a1,
        execCvt16to8M_completes h1 h2 a1⟩

theorem execCvt8to16M_completes {s : State} {src n : Word}
    (h1 : s.src = some src)
    (h2 : s.slen = some n)
    (a1 : admitted s.params.admit8 src.toNat n.toNat = true) :
    execCvt8to16M s =
      finishMeasure s (convert (decodeSource8 s.params.failPos src n) (measureOnly utf16Len) n.toNat s.startRun) := by
  simp [execCvt8to16M, readReg, requireAdmitted8, h1, h2, a1]

theorem execCvt8to16M_cases (s : State) :
    (∃ c, execCvt8to16M s = raiseFault c s) ∨
    ∃ src n, s.src = some src ∧
      s.slen = some n ∧
      admitted s.params.admit8 src.toNat n.toNat = true ∧
      execCvt8to16M s =
        finishMeasure s (convert (decodeSource8 s.params.failPos src n) (measureOnly utf16Len) n.toNat s.startRun) := by
  cases h1 : s.src with
  | none => exact .inl ⟨.unwritten, by simp [execCvt8to16M, readReg, h1]⟩
  | some src =>
    cases h2 : s.slen with
    | none => exact .inl ⟨.unwritten, by simp [execCvt8to16M, readReg, h1, h2]⟩
    | some n =>
      by_cases a1 : admitted s.params.admit8 src.toNat n.toNat = true
      swap
      · exact .inl ⟨.access, by simp [execCvt8to16M, readReg, requireAdmitted8, h1, h2, a1]⟩
      exact .inr ⟨src, n, rfl, rfl, a1,
        execCvt8to16M_completes h1 h2 a1⟩

theorem execCvt8tovisM_completes {s : State} {src n : Word}
    (h1 : s.src = some src)
    (h2 : s.slen = some n)
    (a1 : admitted s.params.admit8 src.toNat n.toNat = true) :
    execCvt8tovisM s =
      finishCount s (convert (decodeSource8 s.params.failPos src n) (measureOnly visLen) n.toNat s.startRun) := by
  simp [execCvt8tovisM, readReg, requireAdmitted8, h1, h2, a1]

theorem execCvt8tovisM_cases (s : State) :
    (∃ c, execCvt8tovisM s = raiseFault c s) ∨
    ∃ src n, s.src = some src ∧
      s.slen = some n ∧
      admitted s.params.admit8 src.toNat n.toNat = true ∧
      execCvt8tovisM s =
        finishCount s (convert (decodeSource8 s.params.failPos src n) (measureOnly visLen) n.toNat s.startRun) := by
  cases h1 : s.src with
  | none => exact .inl ⟨.unwritten, by simp [execCvt8tovisM, readReg, h1]⟩
  | some src =>
    cases h2 : s.slen with
    | none => exact .inl ⟨.unwritten, by simp [execCvt8tovisM, readReg, h1, h2]⟩
    | some n =>
      by_cases a1 : admitted s.params.admit8 src.toNat n.toNat = true
      swap
      · exact .inl ⟨.access, by simp [execCvt8tovisM, readReg, requireAdmitted8, h1, h2, a1]⟩
      exact .inr ⟨src, n, rfl, rfl, a1,
        execCvt8tovisM_completes h1 h2 a1⟩

end Sys2Proof.Machine
end

