-- ==== Sys2Proof/Laws/Frame.lean ====
section
/-! SUPPORT. Sys2Proof/Laws/Frame.lean: everything any command can do, said once (`exec_cases`), and
everything the write of a command word can do (`issue_cases`). Proofs about every command cite these. -/

namespace Sys2Proof.Machine

/-- What a command that completes leaves alone, and what it keeps: a property of a space that each
write inside the command's buffer keeps. -/
structure Frame (i : Instr) (s t : State) : Prop where
  status : t.status = s.status
  params : t.params = s.params
  script : t.script = s.script
  seen   : t.seen = s.seen
  draws  : t.draws = s.draws
  regs   : ∀ r, r ∉ writesOf i → t.get r = s.get r
  other16 : writesM16 i = false → t.m16 = s.m16
  other8  : writesM8 i = false → t.m8 = s.m8
  keeps16 : ∀ P : Memory 16 → Prop, P s.m16 →
    (∀ m x v, s.value .dst ≤ x → x < s.value .dst + s.value .dcap →
      admitted s.params.admit16 (s.value .dst) (s.value .dcap) = true → P m → P (m.write x v)) →
    P t.m16
  keeps8 : i ≠ .fold → ∀ P : Memory 8 → Prop, P s.m8 →
    (∀ m x v, s.value .dst ≤ x → x < s.value .dst + s.value .dcap →
      admitted s.params.admit8 (s.value .dst) (s.value .dcap) = true → P m → P (m.write x v)) →
    P t.m8
  keepsFold : i = .fold → ∀ P : Memory 8 → Prop, P s.m8 →
    (∀ m x v, s.value .src ≤ x → x < s.value .src + s.value .slen →
      admitted s.params.admit8 (s.value .src) (s.value .slen) = true → P m → P (m.write x v)) →
    P t.m8

/-- A command that writes registers of `rs` and no memory. -/
theorem Frame.of_registers {i : Instr} {s t : State} (h0 : t.status = s.status)
    (hp : t.params = s.params) (hs : t.script = s.script) (hn : t.seen = s.seen)
    (hd : t.draws = s.draws) (hr : ∀ r, r ∉ writesOf i → t.get r = s.get r) (h16 : t.m16 = s.m16)
    (h8 : t.m8 = s.m8) : Frame i s t :=
  ⟨h0, hp, hs, hn, hd, hr, fun _ => h16, fun _ => h8, fun _ h _ => h16 ▸ h, fun _ _ h _ => h8 ▸ h,
    fun _ _ h _ => h8 ▸ h⟩

theorem frame_finishDecode {i : Instr} (hw : writesOf i = [.cp, .pos]) (s : State) (d : Decoded) :
    Frame i s ((s.set .cp d.cp).set .pos (toWord d.last)) := by
  refine .of_registers (by simp) (by simp) (by simp) (by simp) (by simp) (fun r hr => ?_) (by simp)
    (by simp)
  rw [hw] at hr
  simp only [List.mem_cons, List.not_mem_nil, or_false, not_or] at hr
  simp [hr.1, hr.2]

theorem frame_setCnt {i : Instr} (hw : writesOf i = [.cnt]) (s : State) (v : Word) :
    Frame i s (s.set .cnt v) := by
  refine .of_registers (by simp) (by simp) (by simp) (by simp) (by simp) (fun r hr => ?_) (by simp)
    (by simp)
  rw [hw] at hr
  simp only [List.mem_cons, List.not_mem_nil, or_false] at hr
  simp [hr]

/-- A command that counts and leaves both spaces alone. -/
theorem frame_count_none {i : Instr} (hw : writesOf i = [.cnt]) (s : State) (rt : Run × Nat)
    (h16 : rt.1.m16 = s.m16) (h8 : rt.1.m8 = s.m8) :
    Frame i s ((s.endRun rt.1).set .cnt (toWord rt.2)) := by
  refine .of_registers (by simp) (by simp) (by simp) (by simp) (by simp) (fun r hr => ?_)
    (by simpa) (by simpa)
  rw [hw] at hr
  simp only [List.mem_cons, List.not_mem_nil, or_false] at hr
  simp [hr]

/-- A command that counts and writes a destination in M16. -/
theorem frame_count_m16 {i : Instr} (hw : writesOf i = [.cnt]) (h16 : writesM16 i = true) {s : State}
    {dst cap : Word} (hd : s.dst = some dst) (hc : s.dcap = some cap)
    (ha : admitted s.params.admit16 dst.toNat cap.toNat = true) {rt : Run × Nat} (h8 : rt.1.m8 = s.m8)
    (hk : ∀ P : Memory 16 → Prop, P s.m16 →
      (∀ m x v, dst.toNat ≤ x → x < dst.toNat + cap.toNat → P m → P (m.write x v)) → P rt.1.m16) :
    Frame i s ((s.endRun rt.1).set .cnt (toWord rt.2)) := by
  have hd' : s.value .dst = dst.toNat := by simp [State.value, hd]
  have hc' : s.value .dcap = cap.toNat := by simp [State.value, hc]
  have h8' : ((s.endRun rt.1).set .cnt (toWord rt.2)).m8 = s.m8 := by simpa
  refine ⟨by simp, by simp, by simp, by simp, by simp, fun r hr => ?_, fun h => ?_, fun _ => h8',
    fun P h0 hP => ?_, fun _ _ h _ => h8' ▸ h, fun _ _ h _ => h8' ▸ h⟩
  · rw [hw] at hr
    simp only [List.mem_cons, List.not_mem_nil, or_false] at hr
    simp [hr]
  · rw [h16] at h; cases h
  · rw [hd', hc'] at hP
    exact hk P h0 (fun m x v h1 h2 hm => hP m x v h1 h2 ha hm)

/-- A command that counts and writes a destination in M8. -/
theorem frame_count_m8 {i : Instr} (hw : writesOf i = [.cnt]) (h8 : writesM8 i = true)
    (hf : i ≠ .fold) {s : State} {dst cap : Word} (hd : s.dst = some dst) (hc : s.dcap = some cap)
    (ha : admitted s.params.admit8 dst.toNat cap.toNat = true) {rt : Run × Nat}
    (h16 : rt.1.m16 = s.m16)
    (hk : ∀ P : Memory 8 → Prop, P s.m8 →
      (∀ m x v, dst.toNat ≤ x → x < dst.toNat + cap.toNat → P m → P (m.write x v)) → P rt.1.m8) :
    Frame i s ((s.endRun rt.1).set .cnt (toWord rt.2)) := by
  have hd' : s.value .dst = dst.toNat := by simp [State.value, hd]
  have hc' : s.value .dcap = cap.toNat := by simp [State.value, hc]
  have h16' : ((s.endRun rt.1).set .cnt (toWord rt.2)).m16 = s.m16 := by simpa
  refine ⟨by simp, by simp, by simp, by simp, by simp, fun r hr => ?_, fun _ => h16', fun h => ?_,
    fun _ h _ => h16' ▸ h, fun _ P h0 hP => ?_, fun h => absurd h hf⟩
  · rw [hw] at hr
    simp only [List.mem_cons, List.not_mem_nil, or_false] at hr
    simp [hr]
  · rw [h8] at h; cases h
  · rw [hd', hc'] at hP
    exact hk P h0 (fun m x v h1 h2 hm => hP m x v h1 h2 ha hm)

/-- The measuring loop leaves both spaces alone. -/
theorem measure_memory (dec : Run → Nat → Decoded) (len : Word → Nat) (n : Nat) (r : Run) :
    (convert dec (measureOnly len) n r).1.m16 = r.m16 ∧
    (convert dec (measureOnly len) n r).1.m8 = r.m8 :=
  convertFrom_keeps (P := fun q => q.m16 = r.m16 ∧ q.m8 = r.m8) (fun _ _ h => h) (fun _ _ _ h => h)
    n 0 0 r ⟨rfl, rfl⟩

/-- EVERYTHING A COMMAND CAN DO: it raises one fault, or it completes within its frame. -/
theorem exec_cases (i : Instr) (s : State) :
    (∃ c, exec i s = raiseFault c s) ∨ ∃ t, exec i s = .next t ∧ Frame i s t := by
  cases i with
  | dec16 =>
    rcases execDec16_cases s with h | ⟨src, n, p, h1, h2, h3, k1, a1, e⟩
    · exact .inl h
    · exact .inr ⟨_, e, frame_finishDecode rfl _ _⟩
  | dec8 =>
    rcases execDec8_cases s with h | ⟨src, n, p, h1, h2, h3, k1, a1, e⟩
    · exact .inl h
    · exact .inr ⟨_, e, frame_finishDecode rfl _ _⟩
  | enc16 =>
    rcases execEnc16_cases s with h | ⟨c, dst, cap, i, h1, h2, h3, h4, k1, a1, e⟩
    · exact .inl h
    · exact .inr ⟨_, e, frame_count_m16 rfl rfl h2 h3 a1 (enc16At_m8 _ _ _ _ _)
        (fun _ h hw => enc16At_keeps hw _ _ _ h)⟩
  | enc8 =>
    rcases execEnc8_cases s with h | ⟨c, dst, cap, i, h1, h2, h3, h4, k1, a1, e⟩
    · exact .inl h
    · exact .inr ⟨_, e, frame_count_m8 rfl rfl (by decide) h2 h3 a1 (enc8At_m16 _ _ _ _ _)
        (fun _ h hw => enc8At_keeps hw _ _ _ h)⟩
  | encvis =>
    rcases execEncvis_cases s with h | ⟨c, dst, cap, i, h1, h2, h3, h4, k1, a1, e⟩
    · exact .inl h
    · exact .inr ⟨_, e, frame_count_m8 rfl rfl (by decide) h2 h3 a1 (encVisAt_m16 _ _ _ _ _ _)
        (fun _ h hw => encVisAt_keeps hw _ _ _ h)⟩
  | len16 =>
    rcases execLen16_cases s with h | ⟨c, h1, k1, e⟩
    · exact .inl h
    · exact .inr ⟨_, e, frame_setCnt rfl _ _⟩
  | len8 =>
    rcases execLen8_cases s with h | ⟨c, h1, k1, e⟩
    · exact .inl h
    · exact .inr ⟨_, e, frame_setCnt rfl _ _⟩
  | lenvis =>
    rcases execLenvis_cases s with h | ⟨c, h1, k1, e⟩
    · exact .inl h
    · exact .inr ⟨_, e, frame_setCnt rfl _ _⟩
  | fold =>
    rcases execFold_cases s with h | ⟨src, n, h1, h2, a1, e⟩
    · exact .inl h
    · refine .inr ⟨_, e, ?_⟩
      have hs : s.value .src = src.toNat := by simp [State.value, h1]
      have hn : s.value .slen = n.toNat := by simp [State.value, h2]
      refine ⟨by simp, by simp, by simp, by simp, by simp, fun r _ => by simp, fun _ => by simp,
        fun h => (by cases h), fun _ h _ => by simpa using h, fun h => absurd rfl h, fun _ P h0 hP => ?_⟩
      rw [hs, hn] at hP
      exact foldPass_keeps _ _ _ h0 (fun m x v g1 g2 hm => hP m x v g1 g2 a1 hm)
  | cvt16to8 =>
    rcases execCvt16to8_cases s with h | ⟨src, n, dst, cap, h1, h2, h3, h4, a1, a2, e⟩
    · exact .inl h
    · exact .inr ⟨_, e, frame_count_m8 rfl rfl (by decide) h3 h4 a2
        (convertFrom_keeps (P := fun r => r.m16 = s.m16) (fun _ _ h => h) (fun _ _ _ h => by simpa)
          _ _ _ _ rfl)
        (fun P h hw => convertFrom_keeps (P := fun r => P r.m8) (fun _ _ h => h)
          (fun _ _ _ h => enc8At_keeps hw _ _ _ h) _ _ _ _ h)⟩
  | cvt8to16 =>
    rcases execCvt8to16_cases s with h | ⟨src, n, dst, cap, h1, h2, h3, h4, a1, a2, e⟩
    · exact .inl h
    · exact .inr ⟨_, e, frame_count_m16 rfl rfl h3 h4 a2
        (convertFrom_keeps (P := fun r => r.m8 = s.m8) (fun _ _ h => h) (fun _ _ _ h => by simpa)
          _ _ _ _ rfl)
        (fun P h hw => convertFrom_keeps (P := fun r => P r.m16) (fun _ _ h => h)
          (fun _ _ _ h => enc16At_keeps hw _ _ _ h) _ _ _ _ h)⟩
  | cvt8tovis =>
    rcases execCvt8tovis_cases s with h | ⟨src, n, dst, cap, h1, h2, h3, h4, k1, a1, a2, e⟩
    · exact .inl h
    · exact .inr ⟨_, e, frame_count_m8 rfl rfl (by decide) h3 h4 a2
        (convertFrom_keeps (P := fun r => r.m16 = s.m16) (fun _ _ h => h) (fun _ _ _ h => by simpa)
          _ _ _ _ rfl)
        (fun P h hw => convertFrom_keeps (P := fun r => P r.m8) (fun _ _ h => h)
          (fun _ _ _ h => encVisAt_keeps hw _ _ _ h) _ _ _ _ h)⟩
  | cvt16to8M =>
    rcases execCvt16to8M_cases s with h | ⟨src, n, h1, h2, a1, e⟩
    · exact .inl h
    · obtain ⟨h16, h8⟩ := measure_memory (decodeSource16 src n) utf8MinLen n.toNat s.startRun
      rcases require_cases _ .countOverflow s (finishCount s _) with ⟨_, h⟩ | ⟨_, h⟩
      · exact .inr ⟨_, e.trans h, frame_count_none rfl _ _ h16 h8⟩
      · exact .inl ⟨_, e.trans h⟩
  | cvt8to16M =>
    rcases execCvt8to16M_cases s with h | ⟨src, n, h1, h2, a1, e⟩
    · exact .inl h
    · obtain ⟨h16, h8⟩ :=
        measure_memory (decodeSource8 s.params.failPos src n) utf16Len n.toNat s.startRun
      rcases require_cases _ .countOverflow s (finishCount s _) with ⟨_, h⟩ | ⟨_, h⟩
      · exact .inr ⟨_, e.trans h, frame_count_none rfl _ _ h16 h8⟩
      · exact .inl ⟨_, e.trans h⟩
  | cvt8tovisM =>
    rcases execCvt8tovisM_cases s with h | ⟨src, n, h1, h2, a1, e⟩
    · exact .inl h
    · obtain ⟨h16, h8⟩ :=
        measure_memory (decodeSource8 s.params.failPos src n) visLen n.toNat s.startRun
      exact .inr ⟨_, e, frame_count_none rfl _ _ h16 h8⟩

/-- EVERYTHING A WRITE TO CMD CAN DO (30_encoding.md R45): nothing, one fault, or a whole command. -/
theorem issue_cases (v : Word) (s : State) :
    issue v s = .next s ∨ (∃ c, issue v s = .next (s.recordFault c)) ∨
    (s.status.fault = false ∧ ∃ i t, decode v = some i ∧ exec i s.begin = .next t ∧
      Frame i s.begin t ∧ issue v s = .next t.finish) := by
  unfold issue
  split
  · exact .inl rfl
  · next hf =>
    cases hd : decode v with
    | none => exact .inr (.inl ⟨_, rfl⟩)
    | some i =>
      simp only
      rcases exec_cases i s.begin with ⟨c, h⟩ | ⟨t, h, hfr⟩
      · exact .inr (.inl ⟨c, by rw [h]; rfl⟩)
      · exact .inr (.inr ⟨by simpa using hf, i, t, rfl, h, hfr, by rw [h]; rfl⟩)

/-- A write to CMD always answers a next state. -/
theorem issue_next (v : Word) (s : State) : ∃ t, issue v s = .next t := by
  rcases issue_cases v s with h | ⟨_, h⟩ | ⟨_, _, _, _, _, _, h⟩ <;> exact ⟨_, h⟩

end Sys2Proof.Machine
end

