-- ==== Sys2Proof/Laws/PerInstr.lean ====
section
/-! SUPPORT. Sys2Proof/Laws/PerInstr.lean: per instruction, that its word is well formed, that decoding
its word gives it back, and that its mnemonic names it (30_encoding.md R47, R54, R55). -/

namespace Sys2Proof.Laws.Encoding

/-- The word of `i` is legal, means `i`, and so does its mnemonic. -/
def Statement (i : Sys2Proof.Instr) : Prop :=
  i.wellFormed = true ∧ Sys2Proof.decode (Sys2Proof.encode i) = some i ∧
  Sys2Proof.fieldsOf (Sys2Proof.encode i) = i.fields ∧ Sys2Proof.ofMnemonic i.mnemonic = some i

theorem dec16 : Statement .dec16 := ⟨rfl, rfl, rfl, rfl⟩
theorem dec8 : Statement .dec8 := ⟨rfl, rfl, rfl, rfl⟩
theorem enc16 : Statement .enc16 := ⟨rfl, rfl, rfl, rfl⟩
theorem len16 : Statement .len16 := ⟨rfl, rfl, rfl, rfl⟩
theorem enc8 : Statement .enc8 := ⟨rfl, rfl, rfl, rfl⟩
theorem len8 : Statement .len8 := ⟨rfl, rfl, rfl, rfl⟩
theorem encvis : Statement .encvis := ⟨rfl, rfl, rfl, rfl⟩
theorem lenvis : Statement .lenvis := ⟨rfl, rfl, rfl, rfl⟩
theorem fold : Statement .fold := ⟨rfl, rfl, rfl, rfl⟩
theorem cvt16to8 : Statement .cvt16to8 := ⟨rfl, rfl, rfl, rfl⟩
theorem cvt8to16 : Statement .cvt8to16 := ⟨rfl, rfl, rfl, rfl⟩
theorem cvt8tovis : Statement .cvt8tovis := ⟨rfl, rfl, rfl, rfl⟩
theorem cvt16to8M : Statement .cvt16to8M := ⟨rfl, rfl, rfl, rfl⟩
theorem cvt8to16M : Statement .cvt8to16M := ⟨rfl, rfl, rfl, rfl⟩
theorem cvt8tovisM : Statement .cvt8tovisM := ⟨rfl, rfl, rfl, rfl⟩

end Sys2Proof.Laws.Encoding
end

