-- ==== Sys2Proof/Laws/Tables.lean ====
section
/-! SUPPORT. Sys2Proof/Laws/Tables.lean: first-match lookup in a table whose keys are distinct
(44_viscii_encoder.md R106, 45_case_folder.md R121). -/

namespace Sys2Proof.Machine

theorem nodup_of_distinctKeys (ks : List Nat) (h : distinctKeys ks = true) : ks.Nodup := by
  induction ks with
  | nil => exact List.nodup_nil
  | cons k ks ih =>
    simp only [distinctKeys, Bool.and_eq_true, List.all_eq_true] at h
    refine List.nodup_cons.2 ⟨fun hm => ?_, ih h.2⟩
    have := h.1 k hm
    simp at this

theorem visLookup_of_mem {rows : List EncRow} (hn : (rows.map (fun r => r.cp.toNat)).Nodup)
    {row : EncRow} (h : row ∈ rows) : visLookup rows row.cp = some row.byte := by
  induction rows with
  | nil => simp at h
  | cons r rs ih =>
    simp only [List.map_cons, List.nodup_cons] at hn
    simp only [visLookup]
    rcases List.mem_cons.1 h with rfl | h
    · simp
    · have : r.cp ≠ row.cp := fun e => hn.1 (by rw [e]; exact List.mem_map.2 ⟨row, h, rfl⟩)
      rw [if_neg this]
      exact ih hn.2 h

theorem visLookup_of_not_mem {rows : List EncRow} {c : Word} (h : ∀ row ∈ rows, row.cp ≠ c) :
    visLookup rows c = none := by
  induction rows with
  | nil => rfl
  | cons r rs ih =>
    simp only [visLookup]
    rw [if_neg (h r (by simp))]
    exact ih (fun row hr => h row (by simp [hr]))

theorem caseLookup_of_mem {rows : List CaseRow} (hn : (rows.map (fun r => r.lower.toNat)).Nodup)
    {row : CaseRow} (h : row ∈ rows) : caseLookup rows row.lower = some row.upper := by
  induction rows with
  | nil => simp at h
  | cons r rs ih =>
    simp only [List.map_cons, List.nodup_cons] at hn
    simp only [caseLookup]
    rcases List.mem_cons.1 h with rfl | h
    · simp
    · have : r.lower ≠ row.lower := fun e => hn.1 (by rw [e]; exact List.mem_map.2 ⟨row, h, rfl⟩)
      rw [if_neg this]
      exact ih hn.2 h

theorem caseLookup_of_not_mem {rows : List CaseRow} {b : Byte} (h : ∀ row ∈ rows, row.lower ≠ b) :
    caseLookup rows b = none := by
  induction rows with
  | nil => rfl
  | cons r rs ih =>
    simp only [caseLookup]
    rw [if_neg (h r (by simp))]
    exact ih (fun row hr => h row (by simp [hr]))

end Sys2Proof.Machine
end

