-- ==== Sys2Proof/Laws/Walk.lean ====
section
/-! SUPPORT. Sys2Proof/Laws/Walk.lean: each conversion's loop is the emission of the text its source
decodes to at the start (46_conversions.md R130), and what one decode of UTF-8 can find. -/

namespace Sys2Proof.Machine

/-! ## The five loops -/

theorem convert16_write (s : State) (src n dst cap : Word) :
    convert (decodeSource16 src n) (enc8At dst.toNat cap.toNat) n.toNat s.startRun =
      emitAll (enc8At dst.toNat cap.toNat)
        (decodedFrom (utf16Decode (source16 s.m16 src) n.toNat) n.toNat n.toNat 0) 0 s.startRun :=
  convertFrom_eq_emitAll (I := fun _ r => r.m16 = s.m16)
    (fun t r i h hi => by simp [decodeSource16, h]) (fun t r c u h => by simpa) _ _ _ _ rfl

theorem convert8_write (s : State) (fp : FailPos) (src n dst cap : Word) :
    convert (decodeSource8 fp src n) (enc16At dst.toNat cap.toNat) n.toNat s.startRun =
      emitAll (enc16At dst.toNat cap.toNat)
        (decodedFrom (utf8Decode fp (source8 s.m8 src) n.toNat) n.toNat n.toNat 0) 0 s.startRun :=
  convertFrom_eq_emitAll (I := fun _ r => r.m8 = s.m8)
    (fun t r i h hi => by simp [decodeSource8, h]) (fun t r c u h => by simpa) _ _ _ _ rfl

theorem convert16_measure (s : State) (len : Word → Nat) (src n : Word) :
    convert (decodeSource16 src n) (measureOnly len) n.toNat s.startRun =
      emitAll (measureOnly len)
        (decodedFrom (utf16Decode (source16 s.m16 src) n.toNat) n.toNat n.toNat 0) 0 s.startRun :=
  convertFrom_eq_emitAll (I := fun _ r => r.m16 = s.m16)
    (fun t r i h hi => by simp [decodeSource16, h]) (fun t r c u h => h) _ _ _ _ rfl

theorem convert8_measure (s : State) (fp : FailPos) (len : Word → Nat) (src n : Word) :
    convert (decodeSource8 fp src n) (measureOnly len) n.toNat s.startRun =
      emitAll (measureOnly len)
        (decodedFrom (utf8Decode fp (source8 s.m8 src) n.toNat) n.toNat n.toNat 0) 0 s.startRun :=
  convertFrom_eq_emitAll (I := fun _ r => r.m8 = s.m8)
    (fun t r i h hi => by simp [decodeSource8, h]) (fun t r c u h => h) _ _ _ _ rfl

/-- CVT8TOVIS reads and writes one space: where the ranges share no unit, no emission changes a byte
of the source (46_conversions.md R140). -/
theorem convert8_writeVis (s : State) (fp : FailPos) (tab : EncTable) (src n dst cap : Word)
    (ho : ∀ x, src.toNat ≤ x → x < src.toNat + n.toNat → x < dst.toNat ∨ dst.toNat + cap.toNat ≤ x) :
    convert (decodeSource8 fp src n) (encVisAt tab dst.toNat cap.toNat) n.toNat s.startRun =
      emitAll (encVisAt tab dst.toNat cap.toNat)
        (decodedFrom (utf8Decode fp (source8 s.m8 src) n.toNat) n.toNat n.toNat 0) 0 s.startRun := by
  refine convertFrom_eq_emitAll
    (I := fun _ r => ∀ k, k < n.toNat → source8 r.m8 src k = source8 s.m8 src k)
    (fun t r i h hi => ?_) (fun t r c u h k hk => ?_) _ _ _ _ (fun _ _ => rfl)
  · unfold decodeSource8
    exact utf8Decode_congr hi (fun k hk => h k hk)
  rw [← h k hk]
  refine encVisAt_keeps (P := fun m => source8 m src k = source8 r.m8 src k)
    (fun m x v h1 h2 hm => ?_) c t (r.countReads u) rfl
  rw [← hm]
  have := ho (src.toNat + k) (by omega) (by omega)
  exact Memory.read_write_of_ne _ _ (by omega)

theorem decodedFrom_congr {d d' : Nat → Decoded} {n : Nat} (h : ∀ i < n, d i = d' i) (fuel i : Nat) :
    decodedFrom d n fuel i = decodedFrom d' n fuel i := by
  induction fuel generalizing i with
  | zero => rfl
  | succ f ih =>
    simp only [decodedFrom]
    split
    · next hi => rw [h i hi, ih]
    · rfl

/-! ## The counts of an emission -/

theorem emitAll_reads {emit : Word → Nat → Run → Run × Nat}
    (h : ∀ c t r, (emit c t r).1.reads = r.reads) (ds : List Decoded) (t : Nat) (r : Run) :
    (emitAll emit ds t r).1.reads = r.reads + (ds.map (·.units)).sum := by
  induction ds generalizing t r with
  | nil => rfl
  | cons d ds ih =>
    simp only [emitAll, List.map_cons, List.sum_cons]
    rw [ih, h, Run.countReads_reads]
    omega

theorem emitAll_writes {emit : Word → Nat → Run → Run × Nat} {len : Word → Nat}
    (h : ∀ c t r, (emit c t r).1.writes ≤ r.writes + len c) (ds : List Decoded) (t : Nat) (r : Run) :
    (emitAll emit ds t r).1.writes ≤ r.writes + (ds.map (fun d => len d.cp)).sum := by
  induction ds generalizing t r with
  | nil => exact Nat.le_refl _
  | cons d ds ih =>
    simp only [emitAll, List.map_cons, List.sum_cons]
    have h1 := ih (t + (emit d.cp t (r.countReads d.units)).2) (emit d.cp t (r.countReads d.units)).1
    have h2 := h d.cp t (r.countReads d.units)
    simp only [Run.countReads_writes] at h2
    omega

/-- The lengths of the characters add up to the length of the whole output. -/
theorem sum_len_eq_fullOutput {α : Type} {units : Word → List α} {len : Word → Nat}
    (h : ∀ c, (units c).length = len c) (ds : List Decoded) :
    (ds.map (fun d => len d.cp)).sum = (fullOutput units (ds.map (·.cp))).length := by
  induction ds with
  | nil => rfl
  | cons d ds ih =>
    simp [fullOutput, h] at ih ⊢
    omega

/-! ## One decode of UTF-8 -/

theorem utf8MinLen_cases (c : Word) :
    (utf8MinLen c = 1 ∧ c.toNat ≤ 0x7F) ∨
    (utf8MinLen c = 2 ∧ 0x7F < c.toNat ∧ c.toNat ≤ 0x7FF) ∨
    (utf8MinLen c = 3 ∧ 0x7FF < c.toNat ∧ c.toNat ≤ 0xFFFF) ∨
    (utf8MinLen c = 4 ∧ 0xFFFF < c.toNat) := by
  unfold utf8MinLen; split_ifs <;> omega

/-- A leading byte is of one of four forms, or it is none (41_utf8_decoder.md R70). -/
theorem leadClass_cases (b : Byte) :
    (b.toNat ≤ 0x7F ∧ ∃ c, leadClass b = some (1, c) ∧ c.toNat = b.toNat) ∨
    (0xC0 ≤ b.toNat ∧ b.toNat ≤ 0xDF ∧ ∃ c, leadClass b = some (2, c) ∧ c.toNat = b.toNat - 0xC0) ∨
    (0xE0 ≤ b.toNat ∧ b.toNat ≤ 0xEF ∧ ∃ c, leadClass b = some (3, c) ∧ c.toNat = b.toNat - 0xE0) ∨
    (0xF0 ≤ b.toNat ∧ b.toNat ≤ 0xF7 ∧ ∃ c, leadClass b = some (4, c) ∧ c.toNat = b.toNat - 0xF0) ∨
    (((0x80 ≤ b.toNat ∧ b.toNat ≤ 0xBF) ∨ 0xF7 < b.toNat) ∧ leadClass b = none) := by
  rw [leadClass_eq]
  have := b.isLt
  split_ifs with h1 h2 h3 h4 h5
  · exact .inl ⟨h1, _, rfl, by simp; omega⟩
  · exact .inr (.inr (.inr (.inr ⟨by omega, rfl⟩)))
  · exact .inr (.inl ⟨by omega, h3, _, rfl, by simp; omega⟩)
  · exact .inr (.inr (.inl ⟨by omega, h4, _, rfl, by simp; omega⟩))
  · exact .inr (.inr (.inr (.inl ⟨by omega, h5, _, rfl, by simp; omega⟩)))
  · exact .inr (.inr (.inr (.inr ⟨by omega, rfl⟩)))

/-- A continuation byte folded into the value, as arithmetic (41_utf8_decoder.md R73). -/
theorem foldContinuation_of_isCont {c : Word} {d : Byte} (h : c.toNat < 2 ^ 26)
    (hd : isCont d = true) :
    ((c <<< 6) ||| (d.extractLsb' 0 6).setWidth 32).toNat = c.toNat * 64 + (d.toNat - 0x80) ∧
    0x80 ≤ d.toNat ∧ d.toNat ≤ 0xBF := by
  rw [foldContinuation_toNat _ _ h]
  rw [isCont_eq, decide_eq_true_eq] at hd
  omega

/-- The checks after assembly give a substitution, or a scalar value of exactly that length
(41_utf8_decoder.md R73). -/
theorem utf8Validate_cases (fp : FailPos) (p len j : Nat) (c : Word) :
    utf8Validate fp p len j c = ⟨replacement, failPosition fp p j, j - p + 1⟩ ∨
    (utf8MinLen c = len ∧ scalarValue c = true ∧ utf8Validate fp p len j c = ⟨c, j, j - p + 1⟩) := by
  unfold utf8Validate
  split_ifs with h1 h2 h3
  · exact .inl rfl
  · exact .inl rfl
  · exact .inl rfl
  · refine .inr ⟨by simpa using h1, ?_, rfl⟩
    simp only [scalarValue, Bool.and_eq_true, decide_eq_true_eq, Bool.not_eq_true',
      Bool.and_eq_false_iff, decide_eq_false_iff_not]
    omega

/-- Where the loop over the continuation bytes ends under CONSUMED (41_utf8_decoder.md R75): it has
accepted `m` of the `k` bytes it looked for, and it stopped for one of three reasons. -/
theorem utf8Continue_consumed_last (rd : Nat → Byte) (n p len k j : Nat) (c : Word) (hj : j < n) :
    ∃ m ≤ k, (utf8Continue .consumed rd n p len k j c).last = j + m ∧
      (∀ i, 1 ≤ i → i ≤ m → j + i < n ∧ isCont (rd (j + i)) = true) ∧
      (m = k ∨ n ≤ j + m + 1 ∨ isCont (rd (j + m + 1)) = false) := by
  induction k generalizing j c with
  | zero =>
    refine ⟨0, le_refl _, ?_, by omega, .inl rfl⟩
    rcases utf8Validate_cases .consumed p len j c with h | ⟨_, _, h⟩ <;>
      simp [utf8Continue, h, failPosition]
  | succ k ih =>
    simp only [utf8Continue]
    split_ifs with h1 h2
    · exact ⟨0, by omega, rfl, by omega, .inr (.inl h1)⟩
    · exact ⟨0, by omega, rfl, by omega, .inr (.inr (by simpa using h2))⟩
    · obtain ⟨m, hm, hlast, hrun, hstop⟩ :=
        ih (j + 1) ((c <<< 6) ||| ((rd (j + 1)).extractLsb' 0 6).setWidth 32) (by omega)
      refine ⟨m + 1, by omega, by omega, fun i hi hi' => ?_, ?_⟩
      · by_cases hi1 : i = 1
        · subst hi1
          exact ⟨by omega, by simpa using h2⟩
        · have := hrun (i - 1) (by omega) (by omega)
          rwa [show j + 1 + (i - 1) = j + i by omega] at this
      · rw [show j + 1 + m + 1 = j + (m + 1) + 1 by omega] at hstop
        exact hstop.imp_left (by omega)

theorem utf8Validate_ok {fp : FailPos} {p len j : Nat} {c : Word} (h1 : utf8MinLen c = len)
    (h2 : scalarValue c = true) : utf8Validate fp p len j c = ⟨c, j, j - p + 1⟩ := by
  simp only [scalarValue, Bool.and_eq_true, decide_eq_true_eq, Bool.not_eq_true',
    Bool.and_eq_false_iff, decide_eq_false_iff_not] at h2
  unfold utf8Validate
  rw [if_neg (by simp [h1]), if_neg (by omega), if_neg (by omega)]

end Sys2Proof.Machine
end

