-- ==== Sys2Proof/Tests/Slice0.lean ====
section
/-! SUPPORT. Sys2Proof/Tests/Slice0.lean: the model's own tests. Expected results come from
spec/95_test_vectors.md (the vector is named at each test) or from the rule named. The `witness_`
theorems show that the hypotheses of the obligations can be met, clause by clause. -/

namespace Sys2Proof.Tests

open Sys2Proof Sys2Proof.Machine

/-! The tests are checked one after another: many kernel evaluations at once need more memory than one
check has. -/
set_option Elab.async false

/-! ## Words: each command's word, bit by bit from 30_encoding.md R46 and R47 -/

theorem test_decode_dec16 : decode 0b00000000000000000000000000000001#32 = some .dec16 := by decide
theorem test_decode_dec8 : decode 0b00000000000000000000000000000010#32 = some .dec8 := by decide
theorem test_decode_enc16 : decode 0b00000000000000000000000000000011#32 = some .enc16 := by decide
theorem test_decode_len16 : decode 0b00000000000000000000000100000011#32 = some .len16 := by decide
theorem test_decode_enc8 : decode 0b00000000000000000000000000000100#32 = some .enc8 := by decide
theorem test_decode_len8 : decode 0b00000000000000000000000100000100#32 = some .len8 := by decide
theorem test_decode_encvis : decode 0b00000000000000000000000000000101#32 = some .encvis := by decide
theorem test_decode_lenvis : decode 0b00000000000000000000000100000101#32 = some .lenvis := by decide
theorem test_decode_fold : decode 0b00000000000000000000000000000110#32 = some .fold := by decide
theorem test_decode_cvt16to8 :
    decode 0b00000000000000000000000000000111#32 = some .cvt16to8 := by decide
theorem test_decode_cvt8to16 :
    decode 0b00000000000000000000000000001000#32 = some .cvt8to16 := by decide
theorem test_decode_cvt8tovis :
    decode 0b00000000000000000000000000001001#32 = some .cvt8tovis := by decide
theorem test_decode_cvt16to8M :
    decode 0b00000000000000000000000100000111#32 = some .cvt16to8M := by decide
theorem test_decode_cvt8to16M :
    decode 0b00000000000000000000000100001000#32 = some .cvt8to16M := by decide
theorem test_decode_cvt8tovisM :
    decode 0b00000000000000000000000100001001#32 = some .cvt8tovisM := by decide

/-- 95_test_vectors.md §2.7: the illegal words of the table. -/
theorem test_decode_illegal :
    [0x00000000#32, 0x00000101#32, 0x00000102#32, 0x00000106#32, 0x0000000A#32, 0x000000FF#32,
      0x000001FF#32, 0x00000200#32, 0x80000001#32, 0xFFFFFFFF#32].map decode =
      List.replicate 10 none := by decide

/-- A row of spec/opcode_table.json as the host asks for it. -/
theorem test_decodeTableWord : decodeTableWord 32 0x109 = some .cvt8tovisM := by decide

/-! ## Ill-formed words and tables are refused -/

theorem test_illFormed_reserved : CmdFields.reservedZero ⟨0x01#8, 0#1, 1#23⟩ = false := by decide
theorem test_illFormed_opcZero : CmdFields.opcKnown ⟨0x00#8, 0#1, 0#23⟩ = false := by decide
theorem test_illFormed_opcHigh : CmdFields.opcKnown ⟨0x0A#8, 1#1, 0#23⟩ = false := by decide
theorem test_illFormed_measure : CmdFields.measureAllowed ⟨0x06#8, 1#1, 0#23⟩ = false := by decide
theorem test_illFormed_any :
    [(⟨0x01#8, 0#1, 1#23⟩ : CmdFields), ⟨0x00#8, 0#1, 0#23⟩, ⟨0xFF#8, 0#1, 0#23⟩,
      ⟨0x02#8, 1#1, 0#23⟩].map CmdFields.wellFormed = List.replicate 4 false := by decide

/-- One row too few, a key twice, a codepoint past the range, the source's row absent (R112). -/
theorem test_illFormed_encTable :
    [defaultEncRows.drop 1,
      defaultEncRows.drop 1 ++ [⟨0x1EC7#32, 0x00#8⟩],
      defaultEncRows.drop 1 ++ [⟨0x110000#32, 0x02#8⟩],
      defaultEncRows.map (fun r => if r.cp = 0x1EC7#32 then ⟨0x1EC7#32, 0xAF#8⟩ else r)].map
      encRowsConform = List.replicate 4 false := by decide +kernel

/-- The same for the case-pair table (R124). -/
theorem test_illFormed_caseTable :
    [defaultCaseRows.drop 1,
      defaultCaseRows.drop 1 ++ [⟨0x02#8, 0xAE#8⟩],
      defaultCaseRows.map (fun r => if r.lower = 0xAE#8 then ⟨0x8F#8, 0xAE#8⟩ else r)].map
      caseRowsConform = List.replicate 3 false := by decide +kernel

/-! ## Helpers -/

/-- The reset state with these registers written and these units in memory. -/
def setup (regs : List (Reg × Word)) (m16 : Memory 16) (m8 : Memory 8) : State :=
  { regs.foldl (fun s a => s.set a.1 a.2) State.reset with m16 := m16, m8 := m8 }

/-- Under the other setting of `P_UTF8_FAIL_POS`. -/
def underLead (s : State) : State := { s with params := { s.params with failPos := .lead } }

/-- With only the units 0x0000..0x0FFF admitted (95_test_vectors.md UF4, CF7). -/
def smallSpaces (s : State) : State :=
  { s with params := { s.params with admit16 := [⟨0, 0x1000⟩], admit8 := [⟨0, 0x1000⟩] } }

/-- The machine's next step on the command word `w`. -/
def stepOn (w : Nat) (s : State) : Result := step (s.withFetchWord 32 w)

/-- STATUS, CP, POS and CNT after a step. -/
def shown (o : Result) : Option (Word × Option Word × Option Word × Option Word) :=
  match o with
  | .next t => some (t.status.word, t.cp, t.pos, t.cnt)
  | _ => none

/-- STATUS, CNT and the whole of M16 after a step. -/
def shown16 (o : Result) : Option (Word × Option Word × Memory 16) :=
  match o with
  | .next t => some (t.status.word, t.cnt, t.m16)
  | _ => none

/-- STATUS, CNT and the whole of M8 after a step. -/
def shown8 (o : Result) : Option (Word × Option Word × Memory 8) :=
  match o with
  | .next t => some (t.status.word, t.cnt, t.m8)
  | _ => none

/-! ## Commands, one step each -/

/-- U8. -/
theorem test_dec16_pair :
    shown (stepOn 0x001 (setup [(.src, 0x10), (.slen, 2), (.pos, 0)]
      [(0x10, 0xD83D#16), (0x11, 0xDE00#16)] [])) =
      some (0#32, some 0x1F600#32, some 1#32, none) := by decide +kernel

/-- U19: a high surrogate and no low one after it. -/
theorem test_dec16_unpaired :
    shown (stepOn 0x001 (setup [(.src, 0x10), (.slen, 2), (.pos, 0)]
      [(0x10, 0xD800#16), (0x11, 0xE000#16)] [])) =
      some (0#32, some 0xFFFD#32, some 0#32, none) := by decide +kernel

/-- B15: the largest codepoint, up to the last unit of the space. -/
theorem test_dec8_fourBytes :
    shown (stepOn 0x002 (setup [(.src, 0xFFFFFFFC), (.slen, 4), (.pos, 0)] []
      [(0xFFFFFFFC, 0xF4#8), (0xFFFFFFFD, 0x8F#8), (0xFFFFFFFE, 0xBF#8), (0xFFFFFFFF, 0xBF#8)])) =
      some (0#32, some 0x10FFFF#32, some 3#32, none) := by decide +kernel

/-- B37, under the two settings. -/
theorem test_dec8_notContinuation :
    [id, underLead].map (fun f => shown (stepOn 0x002 (f (setup [(.src, 0x10), (.slen, 3), (.pos, 0)]
      [] [(0x10, 0xE1#8), (0x11, 0xBB#8), (0x12, 0x41#8)])))) =
      [some (0#32, some 0xFFFD#32, some 1#32, none),
       some (0#32, some 0xFFFD#32, some 0#32, none)] := by decide +kernel

/-- E8, between sentinels. -/
theorem test_enc16_pair :
    shown16 (stepOn 0x003 (setup [(.cp, 0x10FFFF), (.dst, 0x100), (.dcap, 4), (.didx, 2)]
      [(0x101, 0xEEEE#16), (0x102, 0xEEEE#16), (0x104, 0xEEEE#16)] [])) =
      some (0#32, some 2#32,
        [(0x101, 0xEEEE#16), (0x102, 0xDBFF#16), (0x103, 0xDFFF#16), (0x104, 0xEEEE#16)]) := by
  decide +kernel

/-- E9: no room for the pair, nothing written. -/
theorem test_enc16_noRoom :
    shown16 (stepOn 0x003 (setup [(.cp, 0x1F600), (.dst, 0x100), (.dcap, 4), (.didx, 3)]
      [(0x103, 0xEEEE#16)] [])) = some (0#32, some 0#32, [(0x103, 0xEEEE#16)]) := by decide +kernel

/-- §2.3: LEN16 with only CP written. -/
theorem test_len16 :
    [0xFFFF#32, 0x10000#32].map (fun c => shown (stepOn 0x103 (setup [(.cp, c)] [] []))) =
      [some (0#32, some 0xFFFF#32, none, some 1#32),
       some (0#32, some 0x10000#32, none, some 2#32)] := by decide +kernel

/-- F14. -/
theorem test_enc8_fourBytes :
    shown8 (stepOn 0x004 (setup [(.cp, 0x10FFFF), (.dst, 0x100), (.dcap, 8), (.didx, 4)] []
      [(0x103, 0xEE#8), (0x108, 0xEE#8)])) =
      some (0#32, some 4#32, [(0x103, 0xEE#8), (0x104, 0xF4#8), (0x105, 0x8F#8), (0x106, 0xBF#8),
        (0x107, 0xBF#8), (0x108, 0xEE#8)]) := by decide +kernel

/-- F9: a surrogate value is encoded like any other. -/
theorem test_enc8_surrogate :
    shown8 (stepOn 0x004 (setup [(.cp, 0xD800), (.dst, 0x100), (.dcap, 8), (.didx, 0)] [] [])) =
      some (0#32, some 3#32, [(0x100, 0xED#8), (0x101, 0xA0#8), (0x102, 0x80#8)]) := by
  decide +kernel

/-- F4, F7, F12. -/
theorem test_len8 :
    [0x7F#32, 0x80#32, 0x7FF#32, 0x800#32, 0xFFFF#32, 0x10000#32].map
      (fun c => (shown (stepOn 0x104 (setup [(.cp, c)] [] []))).map (·.2.2.2)) =
      [some (some 1#32), some (some 2#32), some (some 2#32), some (some 3#32), some (some 3#32),
       some (some 4#32)] := by decide +kernel

/-- §2.4: CP past the range. -/
theorem test_len8_domain :
    shown (stepOn 0x104 (setup [(.cp, 0x110000)] [] [])) =
      some (0x42#32, some 0x110000#32, none, none) := by decide +kernel

/-- V4, V11, V13, V14: the source's row, a passthrough that a table byte collides with, the last
passthrough, the first fallback. -/
theorem test_encvis :
    [0x1EC7#32, 0xC6#32, 0xFE#32, 0xFF#32].map (fun c =>
      shown8 (stepOn 0x005 (setup [(.cp, c), (.dst, 0x100), (.dcap, 4), (.didx, 0)] [] []))) =
      [some (0#32, some 1#32, [(0x100, 0xAE#8)]), some (0#32, some 1#32, [(0x100, 0xC6#8)]),
       some (0#32, some 1#32, [(0x100, 0xFE#8)]), some (0#32, some 1#32, [(0x100, 0x3F#8)])] := by
  decide +kernel

/-- §2.5: DIDX = DCAP. -/
theorem test_encvis_noRoom :
    shown8 (stepOn 0x005 (setup [(.cp, 0x41), (.dst, 0x100), (.dcap, 4), (.didx, 4)] [] [])) =
      some (0#32, some 0#32, []) := by decide +kernel

/-- §2.5: LENVIS gives 1, past the BMP too. -/
theorem test_lenvis :
    shown (stepOn 0x105 (setup [(.cp, 0x1F600)] [] [])) =
      some (0#32, some 0x1F600#32, none, some 1#32) := by decide +kernel

/-- K1 and its neighbours: the bytes outside the buffer keep their values. -/
theorem test_fold :
    shown8 (stepOn 0x006 (setup [(.src, 0x10), (.slen, 4)] []
      [(0x0F, 0x61#8), (0x10, 0x76#8), (0x11, 0x69#8), (0x12, 0xAE#8), (0x13, 0x74#8),
       (0x14, 0x61#8)])) =
      some (0#32, none, [(0x0F, 0x61#8), (0x10, 0x56#8), (0x11, 0x49#8), (0x12, 0x8E#8),
        (0x13, 0x54#8), (0x14, 0x61#8)]) := by decide +kernel

/-- K2, K3, K5. -/
theorem test_foldByte :
    [0x41#8, 0x5A#8, 0x61#8, 0x7A#8, 0x40#8, 0x5B#8, 0x60#8, 0x7B#8, 0xC6#8, 0xE6#8, 0xF0#8].map
      (foldByte Params.default.caseTable) =
      [0x41#8, 0x5A#8, 0x41#8, 0x5A#8, 0x40#8, 0x5B#8, 0x60#8, 0x7B#8, 0x02#8, 0xFF#8, 0xD0#8] := by
  decide +kernel

/-- C6: the character that does not fit is left out and the walk goes on. -/
theorem test_cvt16to8_gap :
    shown8 (stepOn 0x007 (setup [(.src, 0x10), (.slen, 5), (.dst, 0x200), (.dcap, 4)]
      [(0x10, 0x41#16), (0x11, 0x41#16), (0x12, 0x41#16), (0x13, 0xE9#16), (0x14, 0x42#16)]
      [(0x204, 0xEE#8)])) =
      some (0#32, some 4#32, [(0x200, 0x41#8), (0x201, 0x41#8), (0x202, 0x41#8), (0x203, 0x42#8),
        (0x204, 0xEE#8)]) := by decide +kernel

/-- C2. -/
theorem test_cvt16to8_pair :
    shown8 (stepOn 0x007 (setup [(.src, 0x10), (.slen, 3), (.dst, 0x200), (.dcap, 5)]
      [(0x10, 0xD83D#16), (0x11, 0xDE00#16), (0x12, 0x41#16)] [])) =
      some (0#32, some 5#32, [(0x200, 0xF0#8), (0x201, 0x9F#8), (0x202, 0x98#8), (0x203, 0x80#8),
        (0x204, 0x41#8)]) := by decide +kernel

/-- C6's measure. -/
theorem test_cvt16to8M :
    shown (stepOn 0x107 (setup [(.src, 0x10), (.slen, 5)]
      [(0x10, 0x41#16), (0x11, 0x41#16), (0x12, 0x41#16), (0x13, 0xE9#16), (0x14, 0x42#16)] [])) =
      some (0#32, none, none, some 6#32) := by decide +kernel

/-- C12. -/
theorem test_cvt8to16 :
    shown16 (stepOn 0x008 (setup [(.src, 0x10), (.slen, 5), (.dst, 0x200), (.dcap, 2)] []
      [(0x10, 0xF0#8), (0x11, 0x9F#8), (0x12, 0x98#8), (0x13, 0x80#8), (0x14, 0x41#8)])) =
      some (0#32, some 2#32, [(0x200, 0xD83D#16), (0x201, 0xDE00#16)]) := by decide +kernel

/-- CM4, under the two settings. -/
theorem test_cvt8to16_malformed :
    [id, underLead].map (fun f => shown16 (stepOn 0x008 (f (setup
      [(.src, 0x10), (.slen, 4), (.dst, 0x200), (.dcap, 6)] []
      [(0x10, 0xED#8), (0x11, 0xA0#8), (0x12, 0x80#8), (0x13, 0x41#8)])))) =
      [some (0#32, some 2#32, [(0x200, 0xFFFD#16), (0x201, 0x41#16)]),
       some (0#32, some 4#32, [(0x200, 0xFFFD#16), (0x201, 0xFFFD#16), (0x202, 0xFFFD#16),
         (0x203, 0x41#16)])] := by decide +kernel

/-- CM5's measure, under the two settings. -/
theorem test_cvt8to16M :
    [id, underLead].map (fun f => (shown (stepOn 0x108 (f (setup [(.src, 0x10), (.slen, 4)] []
      [(0x10, 0xF4#8), (0x11, 0x90#8), (0x12, 0x80#8), (0x13, 0x80#8)])))).map (·.2.2.2)) =
      [some (some 1#32), some (some 4#32)] := by decide +kernel

/-- C13, the destination right after the source (CF3). -/
theorem test_cvt8tovis :
    shown8 (stepOn 0x009 (setup [(.src, 0x10), (.slen, 6), (.dst, 0x16), (.dcap, 4)] []
      [(0x10, 0x76#8), (0x11, 0x69#8), (0x12, 0xE1#8), (0x13, 0xBB#8), (0x14, 0x87#8),
       (0x15, 0x74#8)])) =
      some (0#32, some 4#32, [(0x10, 0x76#8), (0x11, 0x69#8), (0x12, 0xE1#8), (0x13, 0xBB#8),
        (0x14, 0x87#8), (0x15, 0x74#8), (0x16, 0x76#8), (0x17, 0x69#8), (0x18, 0xAE#8),
        (0x19, 0x74#8)]) := by decide +kernel

/-- CF2: one shared byte. -/
theorem test_cvt8tovis_overlap :
    shown (stepOn 0x009 (setup [(.src, 0x10), (.slen, 3), (.dst, 0x12), (.dcap, 4)] [] [])) =
      some (0x62#32, none, none, none) := by decide +kernel

/-- C17's measure; CF5: DST and DCAP unwritten. -/
theorem test_cvt8tovisM :
    shown (stepOn 0x109 (setup [(.src, 0x10), (.slen, 3)] []
      [(0x10, 0x41#8), (0x11, 0x42#8), (0x12, 0x43#8)])) =
      some (0#32, none, none, some 3#32) := by decide +kernel

/-! ## Faults -/

/-- UF5: POS_RANGE comes before ACCESS. UF4: ACCESS. -/
theorem test_fault_order :
    [setup [(.src, 0xFFFFFFFF), (.slen, 2), (.pos, 5)] [] [],
     smallSpaces (setup [(.src, 0x0FFF), (.slen, 2), (.pos, 0)] [] [])].map
      (fun s => (shown (stepOn 0x001 s)).map (·.1)) = [some 0x32#32, some 0x52#32] := by
  decide +kernel

/-- §2.7: straight after reset an illegal word gives 0x12 and a legal one 0x22. -/
theorem test_fault_afterReset :
    [0x00000200, 0x00000109].map (fun w => (shown (stepOn w State.reset)).map (·.1)) =
      [some 0x12#32, some 0x22#32] := by decide +kernel

/-- R151: after a fault a command is ignored, and STATUS keeps the first cause. -/
theorem test_fault_sticky :
    shown (stepOn 0x103 { setup [(.cp, 0x41)] [] [] with status := ⟨false, true, 5#4⟩ }) =
      some (0x52#32, some 0x41#32, none, none) := by decide +kernel

/-! ## The host -/

/-- R55 and R57: `ENC8.M` is LEN8, and `measure CVT8TO16` issues 0x108. -/
theorem test_mnemonics :
    ofMnemonic "ENC8.M" = some .len8 ∧ ofMnemonic "enc8" = none ∧
    measureStmt .cvt8to16 = some (.wr .cmd 0x108#32) ∧ measureStmt .fold = none := by
  decide +kernel

/-- §3: the register block. -/
theorem test_ofOffset :
    [0x00, 0x04, 0x24, 0x28, 0x2A].map BlockReg.ofOffset =
      [some .cmd, some .status, some (.op .cnt), some (.unused 0), none] := by decide

/-! ## Witnesses: the hypotheses of the obligations can be met -/

/-- A state in which no command of the host is left and one is, in which a fault is recorded. -/
def faulted : State := { setup [(.cp, 0x41)] [] [] with status := ⟨false, true, 4#4⟩ }

/-- A state whose next host access is `op`. -/
def about (op : HostOp) (s : State) : State := { s with script := [op] }

theorem witness_IllegalWordsAreAllButFifteen :
    decode 0x200#32 = none ∧ decode 0x0A#32 = none ∧ decode 0x00#32 = none ∧ decode 0x101#32 = none ∧
    decode 0x109#32 ≠ none ∧ State.reset.status.fault = false := by decide +kernel

theorem witness_StepIssuesTheCommandWritten :
    (about (.wr .cmd 0x1#32) faulted).script = .wr .cmd 0x1#32 :: [] ∧
    (about (.wr .cmd 0x1#32) faulted).status.busy = false ∧
    (about (.wr .cmd 0x1#32) faulted).status.fault = true ∧
    (about (.wr .cmd 0xA#32) State.reset).script = .wr .cmd 0xA#32 :: [] ∧
    (about (.wr .cmd 0xA#32) State.reset).status.busy = false ∧
    (about (.wr .cmd 0xA#32) State.reset).status.fault = false ∧ decode 0xA#32 = none ∧
    decode 0x9#32 = some .cvt8tovis := by decide +kernel

theorem witness_FetchWordRunsTheCommandItNames :
    State.reset.status.busy = false ∧ State.reset.status.fault = false := by decide

theorem witness_IdleEngineKeepsItsState : State.reset.script = [] := by decide

theorem witness_BusyEngineRefusesTheHost :
    ({ State.reset with status := ⟨true, false, 0#4⟩ } : State).status.busy = true ∧
    HostOp.wr (.op .src) 0#32 ≠ .rd .status ∧ HostOp.wr (.op .src) 0#32 ≠ .reset ∧
    HostOp.rd (.op .src) ≠ .rd .status := by decide

theorem witness_FaultsArePreciseAndSticky :
    faulted.status.fault = true ∧ faulted.status.busy = false ∧ faulted.get .cp = some 0x41#32 ∧
    (∃ t, step (about (.wr .cmd 0x1#32) faulted) = .next t ∧ t.status = faulted.status) ∧
    (∃ t, step (about .reset faulted) = .next t ∧ t.status = ⟨false, false, 0#4⟩) ∧
    (∃ t, step (about (.cmdCutByReset 0x1#32) faulted) = .next t ∧
      t.status = ⟨false, false, 0#4⟩) :=
  ⟨by decide, by decide, by decide, ⟨_, rfl, rfl⟩, ⟨_, rfl, rfl⟩, ⟨_, rfl, rfl⟩⟩

/-- Each cause is reported first somewhere, and a command completes somewhere. -/
theorem witness_FirstFaultInOrderIsReported :
    (State.reset.status.fault = false ∧ decode 0xA#32 = none) ∧
    firstFault .len8 State.reset = some .unwritten ∧
    firstFault .dec16 (setup [(.src, 0), (.slen, 2), (.pos, 2)] [] []) = some .posRange ∧
    firstFault .dec16 (setup [(.src, 0), (.slen, 2), (.pos, 1)] [] []) = none ∧
    firstFault .len8 (setup [(.cp, 0x110000)] [] []) = some .cpDomain ∧
    firstFault .len8 (setup [(.cp, 0x10FFFF)] [] []) = none ∧
    firstFault .fold (setup [(.src, 0xFFFFFFFF), (.slen, 2)] [] []) = some .access ∧
    firstFault .fold (setup [(.src, 0xFFFFFFFF), (.slen, 1)] [] []) = none ∧
    firstFault .enc8 (setup [(.cp, 0x41), (.dst, 0xFFFFFFFF), (.dcap, 2), (.didx, 0)] [] []) =
      some .access ∧
    firstFault .cvt8tovis (setup [(.src, 0x10), (.slen, 3), (.dst, 0x12), (.dcap, 4)] [] []) =
      some .overlap ∧
    firstFault .cvt8tovis (setup [(.src, 0x10), (.slen, 3), (.dst, 0x13), (.dcap, 4)] [] []) =
      none := by decide +kernel

/-- `k` units of 0x0800 from address `a`: each measures 3 bytes. -/
def heavyUnits : Nat → Nat → Memory 16
  | _, 0 => []
  | a, k + 1 => (a, 0x0800#16) :: heavyUnits (a + 1) k

theorem heavyUnits_read (a k x : Nat) (h1 : a ≤ x) (h2 : x < a + k) :
    (heavyUnits a k).read x = 0x0800#16 := by
  induction k generalizing a with
  | zero => omega
  | succ k ih =>
    simp only [heavyUnits, Memory.read]
    split
    · rfl
    · exact ih (a + 1) (by omega) (by omega)

theorem heavyUnits_decode (rd : Nat → Unit16) (n i : Nat) (h : rd i = 0x0800#16) :
    utf16Decode rd n i = ⟨0x0800#32, i, 1⟩ := by
  unfold utf16Decode
  rw [h, if_pos (by decide)]
  rfl

theorem heavyUnits_length (rd : Nat → Unit16) (n : Nat) (h : ∀ i < n, rd i = 0x0800#16) (fuel i : Nat)
    (hf : n ≤ i + fuel) (hi : i ≤ n) :
    (fullOutput utf8Bytes ((decodedFrom (utf16Decode rd n) n fuel i).map (·.cp))).length =
      3 * (n - i) := by
  induction fuel generalizing i with
  | zero =>
    have : n - i = 0 := by omega
    simp [decodedFrom, fullOutput, this]
  | succ f ih =>
    simp only [decodedFrom]
    split
    · next hlt =>
      rw [heavyUnits_decode rd n i (h i hlt)]
      have hb : (utf8Bytes 0x0800#32).length = 3 := by decide
      have := ih (i + 1) (by omega) (by omega)
      simp only [fullOutput] at this
      simp only [fullOutput, List.map_cons, List.flatMap_cons, List.length_append, hb, this]
      omega
    · have : n - i = 0 := by omega
      simp [fullOutput, this]

/-- A source of `n` such units from address 0. -/
def heavyState (n : Nat) : State :=
  setup [(.src, 0#32), (.slen, BitVec.ofNat 32 n)] (heavyUnits 0 n) []

theorem heavyState_total (n : Nat) (hn : n < 2 ^ 32) :
    (fullOutput utf8Bytes (sourceText16 (heavyState n) 0#32 (BitVec.ofNat 32 n))).length = 3 * n := by
  have hm : (BitVec.ofNat 32 n).toNat = n := by rw [BitVec.toNat_ofNat, Nat.mod_eq_of_lt hn]
  simp only [sourceText16, codepointsOf, hm]
  have := heavyUnits_length (source16 (heavyState n).m16 0#32) n
    (fun i hi => heavyUnits_read 0 n _ (by omega) (by simpa using hi)) n 0 (by omega) (by omega)
  simpa using this

theorem heavyState_checked (n : Nat) (hn : n < 2 ^ 32) :
    firstFault .cvt16to8M (heavyState n) = none := by
  have hm : (BitVec.ofNat 32 n).toNat = n := by rw [BitVec.toNat_ofNat, Nat.mod_eq_of_lt hn]
  have hv : (heavyState n).value .slen = n := by
    show ((some (BitVec.ofNat 32 n)).map BitVec.toNat).getD 0 = n
    simpa using hm
  have ha : sourceAdmitted .cvt16to8M (heavyState n) = true := by
    show admitted wholeSpace 0 ((heavyState n).value .slen) = true
    rw [hv]
    have hs : spaceSize = 2 ^ 32 := rfl
    simp only [admitted, wholeSpace, covered, Bool.and_eq_true, decide_eq_true_eq]
    refine ⟨by omega, ?_⟩
    split
    · rfl
    · simp only [Bool.and_eq_true, decide_eq_true_eq]
      omega
  have hu : readsUnwritten .cvt16to8M (heavyState n) = false := rfl
  simp [firstFault, hu, ha, decodesOne, checksCodepoint, destinationAdmitted, buffersOverlap]

/-- COUNT_OVERFLOW is reached: 0xFFFFFFFF units of 0x0800 (95_test_vectors.md §2.8). -/
theorem witness_measuresTooMuch :
    ∃ s : State, firstFault .cvt16to8M s = none ∧ measuresTooMuch .cvt16to8M s ∧
      s.src = some 0#32 ∧ s.slen = some (BitVec.ofNat 32 (2 ^ 32 - 1)) := by
  refine ⟨heavyState (2 ^ 32 - 1), heavyState_checked _ (by omega), ⟨rfl, 0#32, _, rfl, rfl, ?_⟩, rfl, rfl⟩
  rw [heavyState_total _ (by omega)]
  omega

/-- No shared unit and one shared unit, at the edge. -/
theorem witness_OverlapIsASharedUnit :
    overlap 0x10 3 0x13 4 = false ∧ overlap 0x10 3 0x12 4 = true ∧ overlap 0x10 3 0x10 0 = false ∧
    overlap 0x10 0 0x10 4 = false := by decide

theorem witness_RegisterBlockLayout :
    BlockReg.ofOffset 0x24 = some (.op .cnt) ∧ BlockReg.ofOffset 0x28 = some (.unused 0) ∧
    BlockReg.cmd.address Params.default = BlockReg.cmd.address Params.default := by decide +kernel

theorem witness_HostAccessesTheRegisterBlock :
    (setup [(.cp, 0x41)] [] []).status.busy = false ∧
    (setup [(.cp, 0x41)] [] []).get .cp = some 0x41#32 ∧ Reg.cnt ≠ Reg.cp ∧
    (setup [(.cp, 0x41)] [] []).get .cnt = none := by decide +kernel

/-- FAULT = 0 with CAUSE = 0, and FAULT = 1 with the causes 1 and 7. -/
theorem witness_StatusWordShowsItsFields :
    Status.legal ⟨false, false, 0#4⟩ = true ∧ Status.legal ⟨false, true, 1#4⟩ = true ∧
    Status.legal ⟨false, true, 7#4⟩ = true ∧ Status.legal ⟨false, true, 8#4⟩ = false ∧
    Status.legal ⟨false, true, 0#4⟩ = false ∧ Status.legal ⟨false, false, 1#4⟩ = false := by decide

theorem witness_ResetClearsRegistersAndKeepsMemory :
    (about .reset faulted).script = .reset :: [] := by decide +kernel

/-- A command that writes, cut short. -/
theorem witness_CommandCutByResetLeavesOldOrNewUnits :
    (about (.cmdCutByReset 0x4#32) (setup [(.cp, 0x1EC7), (.dst, 0x100), (.dcap, 8), (.didx, 0)] []
      [])).script = .cmdCutByReset 0x4#32 :: [] ∧
    (about (.cmdCutByReset 0x4#32) (setup [(.cp, 0x1EC7), (.dst, 0x100), (.dcap, 8), (.didx, 0)] []
      [])).status.busy = false := by decide +kernel

/-- The lowest and the highest unit that exist, and the first that does not. -/
theorem witness_HostUnitsHoldWhatTheHostWrote :
    State.reset.status.busy = false ∧
    admits State.reset.params.admit16 (0#32).toNat = true ∧
    admits State.reset.params.admit16 (0xFFFFFFFF#32).toNat = true ∧
    admits State.reset.params.admit8 (0xFFFFFFFF#32).toNat = true ∧
    (smallSpaces State.reset).status.busy = false ∧
    admits (smallSpaces State.reset).params.admit16 (0xFFF#32).toNat = true ∧
    admits (smallSpaces State.reset).params.admit16 (0x1000#32).toNat = false ∧
    admits (smallSpaces State.reset).params.admit8 (0x1000#32).toNat = false := by decide +kernel

/-- The empty range, the last unit, and the range that would wrap. -/
theorem witness_AdmittedRangeIsEveryUnitAdmitted :
    admitted [⟨0, 0x1000⟩] 0x5000 0 = true ∧ admitted [⟨0, 2 ^ 32⟩] (2 ^ 32 - 1) 1 = true ∧
    admitted [⟨0, 2 ^ 33⟩] (2 ^ 32 - 1) 2 = false ∧
    admits [⟨0, 2 ^ 33⟩] (2 ^ 32 - 1) = true ∧ admits [⟨0, 2 ^ 33⟩] (2 ^ 32) = false ∧
    admits [⟨8, 16⟩] 8 = true ∧ admits [⟨8, 16⟩] 16 = false ∧
    admitted [⟨8, 16⟩, ⟨0, 8⟩] 0 16 = true ∧ admitted [⟨9, 16⟩, ⟨0, 8⟩] 0 16 = false := by decide

/-- A state in the invariant, with units in both spaces, whose next access is a whole command. -/
def running : State :=
  about (.wr .cmd 0x007#32) (setup [(.src, 0x10), (.slen, 1), (.dst, 0x20), (.dcap, 4)]
    [(0x10, 0xE9#16)] [(0x1F, 0xEE#8)])

theorem running_steps :
    ∃ t, step running = .next t ∧ t.cnt = some 2#32 ∧
      t.m8 = [(0x1F, 0xEE#8), (0x20, 0xC3#8), (0x21, 0xA9#8)] := by
  exact ⟨{ running with
    script := [], cnt := some 2#32
    m8 := [(0x1F, 0xEE#8), (0x20, 0xC3#8), (0x21, 0xA9#8)] }, rfl, rfl, rfl⟩

theorem witness_StepKeepsInvariant : running.inv = true ∧ ∃ t, step running = .next t :=
  ⟨by decide +kernel, let ⟨t, h, _⟩ := running_steps; ⟨t, h⟩⟩

theorem witness_SafeStateStepsToSafeState :
    running.safe = true ∧ (about (.load8 0xFFFFFFFF#32) running).safe = true := by decide +kernel

theorem witness_ParametersNeverChange : ∃ t, step running = .next t :=
  let ⟨t, h, _⟩ := running_steps; ⟨t, h⟩

/-- A command that completes, and a register it does not write. -/
theorem witness_CommandsWriteOnlyTheirRegisters :
    (∃ t, exec .len8 (setup [(.cp, 0x41)] [] []) = .next t) ∧ Reg.pos ∉ writesOf .len8 :=
  ⟨⟨_, rfl⟩, by decide⟩

/-- Two states that agree on what LEN8 reads, and on nothing else. -/
theorem witness_CommandsDependOnlyOnRegistersRead :
    (∀ r ∈ readsOf .len8, (setup [(.cp, 0x41), (.pos, 1)] [] []).get r =
      (setup [(.cp, 0x41), (.dst, 2)] [] []).get r) ∧
    (setup [(.cp, 0x41), (.pos, 1)] [] []).params = (setup [(.cp, 0x41), (.dst, 2)] [] []).params ∧
    (setup [(.cp, 0x41), (.pos, 1)] [] []).status = (setup [(.cp, 0x41), (.dst, 2)] [] []).status ∧
    (setup [(.cp, 0x41), (.pos, 1)] [] []).m16 = (setup [(.cp, 0x41), (.dst, 2)] [] []).m16 ∧
    (setup [(.cp, 0x41), (.pos, 1)] [] []).m8 = (setup [(.cp, 0x41), (.dst, 2)] [] []).m8 := by
  decide +kernel

/-- The destination 0x100..0x103 of ENC16 and the buffer 0x10 of FOLD, with the units beside them. -/
theorem witness_CommandsChangeOnlyTheirBuffers :
    (∃ t, exec .enc16 (setup [(.cp, 0x41), (.dst, 0x100), (.dcap, 4), (.didx, 0)] [] []) = .next t) ∧
    (0xFF < (setup [(.cp, 0x41), (.dst, 0x100), (.dcap, 4), (.didx, 0)] [] []).value .dst ∧
      (setup [(.cp, 0x41), (.dst, 0x100), (.dcap, 4), (.didx, 0)] [] []).value .dst +
        (setup [(.cp, 0x41), (.dst, 0x100), (.dcap, 4), (.didx, 0)] [] []).value .dcap ≤ 0x104) ∧
    (∃ t, exec .fold (setup [(.src, 0x10), (.slen, 1)] [] [(0x10, 0x61#8)]) = .next t) ∧
    (setup [(.src, 0x10), (.slen, 1)] [] [(0x10, 0x61#8)]).value .src +
      (setup [(.src, 0x10), (.slen, 1)] [] [(0x10, 0x61#8)]).value .slen ≤ 0x11 ∧
    writesM16 .fold = false ∧ writesM8 .enc16 = false :=
  ⟨⟨_, rfl⟩, by decide +kernel, ⟨_, rfl⟩, by decide +kernel, rfl, rfl⟩

theorem witness_HostOrderAndBaseAreNotRead : ∃ t, step running = .next t :=
  let ⟨t, h, _⟩ := running_steps; ⟨t, h⟩

/-- The five cases of DEC16 at the edges of their ranges. -/
theorem witness_Dec16HasFiveOutcomes :
    (setup [(.src, 0x10), (.slen, 2), (.pos, 0)] [] []).src = some 0x10#32 ∧
    (setup [(.src, 0x10), (.slen, 2), (.pos, 0)] [] []).slen = some 2#32 ∧
    (setup [(.src, 0x10), (.slen, 2), (.pos, 0)] [] []).pos = some 0#32 ∧
    (0#32).toNat < (2#32).toNat ∧
    admitted (setup [(.src, 0x10), (.slen, 2), (.pos, 0)] [] []).params.admit16 (0x10#32).toNat
      (2#32).toNat = true ∧
    ((0xD7FF#16).toNat < 0xD800 ∧ 0xDFFF < (0xE000#16).toNat) ∧
    (0xDC00 ≤ (0xDC00#16).toNat ∧ (0xDFFF#16).toNat ≤ 0xDFFF) ∧
    (0xD800 ≤ (0xD800#16).toNat ∧ (0xDBFF#16).toNat ≤ 0xDBFF) ∧
    (1#32).toNat + 1 = (2#32).toNat ∧ (0#32).toNat + 1 < (2#32).toNat := by decide +kernel

theorem witness_Utf16DecodeStaysInsideItsSource :
    (0 < 1) ∧ ∀ k, 0 ≤ k → k < 0 + (utf16Decode (fun _ => 0xD800#16) 1 0).units →
      (fun i => if i = 0 then 0xD800#16 else 0xDC00#16) k = (fun _ => 0xD800#16) k := by
  refine ⟨by decide, fun k _ h => ?_⟩
  have : k = 0 := by
    have : (utf16Decode (fun _ => 0xD800#16) 1 0).units = 1 := by decide
    omega
  simp [this]

theorem witness_Dec8WritesWhatTheWalkYields :
    (setup [(.src, 0x10), (.slen, 1), (.pos, 0)] [] []).src = some 0x10#32 ∧
    (setup [(.src, 0x10), (.slen, 1), (.pos, 0)] [] []).slen = some 1#32 ∧
    (setup [(.src, 0x10), (.slen, 1), (.pos, 0)] [] []).pos = some 0#32 ∧
    (0#32).toNat < (1#32).toNat ∧
    admitted (setup [(.src, 0x10), (.slen, 1), (.pos, 0)] [] []).params.admit8 (0x10#32).toNat
      (1#32).toNat = true := by decide +kernel

/-- Bytes of U+10FFFF; and a source that holds no character's bytes: 0xFF is no byte of UTF-8. -/
theorem witness_Utf8DecodeAcceptsExactlyTheEncodersBytes :
    (scalarValue 0x10FFFF#32 = true ∧ 0 + utf8MinLen 0x10FFFF#32 ≤ 4 ∧
      ∀ k < utf8MinLen 0x10FFFF#32,
        [0xF4#8, 0x8F#8, 0xBF#8, 0xBF#8].getD (0 + k) 0 = (utf8Bytes 0x10FFFF#32).getD k 0) ∧
    (∀ c : Word, scalarValue c = true → 0 + utf8MinLen c ≤ 1 →
      ∃ k < utf8MinLen c, (fun _ : Nat => 0xFF#8) (0 + k) ≠ (utf8Bytes c).getD k 0) := by
  refine ⟨by decide +kernel, fun c _ h => ⟨0, utf8MinLen_pos c, fun h0 => ?_⟩⟩
  have hc : c.toNat ≤ 0x7F := by
    unfold utf8MinLen at h
    split_ifs at h <;> omega
  have hl : utf8MinLen c = 1 := by simp [utf8MinLen, hc]
  have h1 := (leadByte_toNat c).1 (by omega)
  have h2 : (0xFF#8).toNat = c.toNat := by
    rw [← h1]
    exact congrArg BitVec.toNat (by simpa [utf8Bytes, hl, utf8Fill] using h0)
  have h3 : (0xFF#8).toNat = 255 := rfl
  omega

/-- The second hypothesis is met by a sequence of three that the end of the source cuts after two, of
which both are accepted so far: LEAD ends at 0 and CONSUMED at 1 (41_utf8_decoder.md R75, case T). -/
theorem witness_Utf8DecodeStaysInsideItsSource :
    (0 < 4 ∧ (utf8Decode .consumed (fun _ => 0xF4#8) 4 0).units = 2) ∧
    (∀ c : Word, scalarValue c = true → 0 + utf8MinLen c ≤ 2 →
      ∃ k < utf8MinLen c, [0xE1#8, 0xBB#8].getD (0 + k) 0 ≠ (utf8Bytes c).getD k 0) ∧
    ([0xE1#8, 0xBB#8].map announcedContinuations = [2, 0] ∧
      (utf8Decode .lead (fun k => [0xE1#8, 0xBB#8].getD k 0) 2 0).last = 0 ∧
      (utf8Decode .consumed (fun k => [0xE1#8, 0xBB#8].getD k 0) 2 0).last = 1) := by
  refine ⟨by decide, fun c _ h => ⟨0, utf8MinLen_pos c, fun h0 => ?_⟩, by decide +kernel⟩
  have h3 : (0xE1#8).toNat = 225 := rfl
  have h4 : (c >>> 6).toNat = c.toNat / 64 := by simp [Nat.shiftRight_eq_div_pow]
  have h1 := (leadByte_toNat c).1
  have h2 := (leadByte_toNat (c >>> 6)).2.1
  unfold utf8MinLen at h
  split_ifs at h with k1 k2
  · have hl : utf8MinLen c = 1 := by simp [utf8MinLen, k1]
    have := congrArg BitVec.toNat (show 0xE1#8 = _ by simpa [utf8Bytes, hl, utf8Fill] using h0)
    omega
  · have hl : utf8MinLen c = 2 := by simp [utf8MinLen, k1, k2]
    have := congrArg BitVec.toNat (show 0xE1#8 = _ by simpa [utf8Bytes, hl, utf8Fill] using h0)
    omega
  · omega
  · omega

/-- The edges of the lengths. -/
theorem witness_LengthCommandsCount :
    (setup [(.cp, 0x10FFFF)] [] []).cp = some 0x10FFFF#32 ∧ (0x10FFFF#32).toNat ≤ 0x10FFFF ∧
    (0xFFFF#32).toNat ≤ 0xFFFF ∧ ¬ (0x10000#32).toNat ≤ 0xFFFF ∧ ¬ (0x80#32).toNat ≤ 0x7F ∧
    ¬ (0x800#32).toNat ≤ 0x7FF := by decide +kernel

/-- One unit that just fits, a pair that just fits, and a pair that does not. -/
theorem witness_Enc16WritesUnitsOrNothing :
    (∀ c i : Word, (setup [(.cp, c), (.dst, 0x100), (.dcap, 4), (.didx, i)] [] []).cp = some c ∧
      (setup [(.cp, c), (.dst, 0x100), (.dcap, 4), (.didx, i)] [] []).dst = some 0x100#32 ∧
      (setup [(.cp, c), (.dst, 0x100), (.dcap, 4), (.didx, i)] [] []).dcap = some 4#32 ∧
      (setup [(.cp, c), (.dst, 0x100), (.dcap, 4), (.didx, i)] [] []).didx = some i ∧
      (setup [(.cp, c), (.dst, 0x100), (.dcap, 4), (.didx, i)] [] []).params = Params.default) ∧
    admitted Params.default.admit16 (0x100#32).toNat (4#32).toNat = true ∧
    ((0xFFFF#32).toNat ≤ 0xFFFF ∧ (3#32).toNat + 1 ≤ (4#32).toNat) ∧
    (0xFFFF < (0x10000#32).toNat ∧ (0x10000#32).toNat ≤ 0x10FFFF ∧
      (2#32).toNat + 2 ≤ (4#32).toNat) ∧
    (4#32).toNat < (3#32).toNat + utf16Len 0x10000#32 :=
  ⟨fun _ _ => ⟨rfl, rfl, rfl, rfl, rfl⟩, by decide +kernel, by decide, by decide, by decide⟩

/-- The operands of ENC8 and ENCVIS, where they just fit and where they do not. -/
theorem witness_Enc8AndEncvisWriteOrDoNot :
    (∀ c i : Word, (setup [(.cp, c), (.dst, 0x100), (.dcap, 4), (.didx, i)] [] []).cp = some c ∧
      (setup [(.cp, c), (.dst, 0x100), (.dcap, 4), (.didx, i)] [] []).dst = some 0x100#32 ∧
      (setup [(.cp, c), (.dst, 0x100), (.dcap, 4), (.didx, i)] [] []).dcap = some 4#32 ∧
      (setup [(.cp, c), (.dst, 0x100), (.dcap, 4), (.didx, i)] [] []).didx = some i ∧
      (setup [(.cp, c), (.dst, 0x100), (.dcap, 4), (.didx, i)] [] []).params = Params.default) ∧
    admitted Params.default.admit8 (0x100#32).toNat (4#32).toNat = true ∧
    (0x10FFFF#32).toNat ≤ 0x10FFFF ∧ (0#32).toNat + utf8MinLen 0x10FFFF#32 ≤ (4#32).toNat ∧
    (4#32).toNat < (1#32).toNat + utf8MinLen 0x10FFFF#32 ∧
    (3#32).toNat < (4#32).toNat ∧ (4#32).toNat ≤ (4#32).toNat :=
  ⟨fun _ _ => ⟨rfl, rfl, rfl, rfl, rfl⟩, by decide +kernel, by decide, by decide, by decide,
    by decide, by decide⟩

/-- The greatest codepoint, with the least room that is enough, in either space. -/
theorem witness_EncodersWriteAsManyUnitsAsTheirLengthsCount :
    (setup [(.cp, 0x10FFFF), (.dst, 0x100), (.dcap, 8), (.didx, 4)] [] []).cp =
      some 0x10FFFF#32 ∧
    (0x10FFFF#32).toNat ≤ 0x10FFFF ∧
    (setup [(.cp, 0x10FFFF), (.dst, 0x100), (.dcap, 8), (.didx, 4)] [] []).dst = some 0x100#32 ∧
    (setup [(.cp, 0x10FFFF), (.dst, 0x100), (.dcap, 8), (.didx, 4)] [] []).dcap = some 8#32 ∧
    (setup [(.cp, 0x10FFFF), (.dst, 0x100), (.dcap, 8), (.didx, 4)] [] []).didx = some 4#32 ∧
    admitted Params.default.admit16 (0x100#32).toNat (8#32).toNat = true ∧
    admitted Params.default.admit8 (0x100#32).toNat (8#32).toNat = true ∧
    (4#32).toNat + utf16Len 0x10FFFF#32 ≤ (8#32).toNat ∧
    (4#32).toNat + utf8MinLen 0x10FFFF#32 ≤ (8#32).toNat := by decide +kernel

/-- The edges of the four lengths. -/
theorem witness_Utf8BytesFollowTheTemplates :
    [0x7F#32, 0x80#32, 0x7FF#32, 0x800#32, 0xD800#32, 0xFFFF#32, 0x10000#32, 0x10FFFF#32].all
      (fun c => decide (c.toNat ≤ 0x10FFFF)) = true := by decide

/-- A codepoint of the table, one below 0xFF that is not, and one from 0xFF on that is not. -/
theorem witness_VisByteIsTableThenPassthroughThenQuestionMark :
    (∃ row ∈ Params.default.encTable.rows, row.cp = 0x1EC7#32) ∧
    ((∀ row ∈ Params.default.encTable.rows, row.cp ≠ 0xFE#32) ∧ (0xFE#32).toNat < 0xFF) ∧
    ((∀ row ∈ Params.default.encTable.rows, row.cp ≠ 0xFF#32) ∧ 0xFF ≤ (0xFF#32).toNat) := by
  decide +kernel

/-- ENC16 writes a pair up to the last unit of the space, and DEC16 is set up to read it. -/
theorem witness_Enc16ThenDec16GivesBackTheCodepoint :
    ∃ s t u : State, s.cp = some 0x10FFFF#32 ∧ s.dst = some 0xFFFFFFFC#32 ∧ s.dcap = some 4#32 ∧
      s.didx = some 2#32 ∧ scalarValue 0x10FFFF#32 = true ∧
      admitted s.params.admit16 (0xFFFFFFFC#32).toNat (4#32).toNat = true ∧
      (2#32).toNat + utf16Len 0x10FFFF#32 ≤ (4#32).toNat ∧ exec .enc16 s = .next t ∧
      u.m16 = t.m16 ∧ u.src = some 0xFFFFFFFC#32 ∧ u.slen = some 4#32 ∧ u.pos = some 2#32 ∧
      admitted u.params.admit16 (0xFFFFFFFC#32).toNat (4#32).toNat = true := by
  refine ⟨setup [(.cp, 0x10FFFF), (.dst, 0xFFFFFFFC), (.dcap, 4), (.didx, 2)] [] [], _,
    setup [(.src, 0xFFFFFFFC), (.slen, 4), (.pos, 2)]
      [(0xFFFFFFFE, 0xDBFF#16), (0xFFFFFFFF, 0xDFFF#16)] [],
    rfl, rfl, rfl, rfl, by decide, by decide +kernel, by decide,
    execEnc16_completes rfl rfl rfl rfl (by decide) (by decide +kernel), ?_, rfl, rfl, rfl,
    by decide +kernel⟩
  decide +kernel

/-- ENC8 writes four bytes up to the last unit of the space, and DEC8 is set up to read them. -/
theorem witness_Enc8ThenDec8GivesBackTheCodepoint :
    ∃ s t u : State, s.cp = some 0x10FFFF#32 ∧ s.dst = some 0xFFFFFFFC#32 ∧ s.dcap = some 4#32 ∧
      s.didx = some 0#32 ∧ scalarValue 0x10FFFF#32 = true ∧
      admitted s.params.admit8 (0xFFFFFFFC#32).toNat (4#32).toNat = true ∧
      (0#32).toNat + utf8MinLen 0x10FFFF#32 ≤ (4#32).toNat ∧ exec .enc8 s = .next t ∧
      u.m8 = t.m8 ∧ u.src = some 0xFFFFFFFC#32 ∧ u.slen = some 4#32 ∧ u.pos = some 0#32 ∧
      admitted u.params.admit8 (0xFFFFFFFC#32).toNat (4#32).toNat = true := by
  refine ⟨setup [(.cp, 0x10FFFF), (.dst, 0xFFFFFFFC), (.dcap, 4), (.didx, 0)] [] [], _,
    setup [(.src, 0xFFFFFFFC), (.slen, 4), (.pos, 0)] []
      [(0xFFFFFFFC, 0xF4#8), (0xFFFFFFFD, 0x8F#8), (0xFFFFFFFE, 0xBF#8), (0xFFFFFFFF, 0xBF#8)],
    rfl, rfl, rfl, rfl, by decide, by decide +kernel, by decide,
    execEnc8_completes rfl rfl rfl rfl (by decide) (by decide +kernel), ?_, rfl, rfl, rfl,
    by decide +kernel⟩
  decide +kernel

/-- The bytes at the edges of a..z, a lower byte of the table, and a byte in neither. -/
theorem witness_FoldByteIsAsciiThenTable :
    (0x61 ≤ (0x61#8).toNat ∧ (0x7A#8).toNat ≤ 0x7A) ∧
    ((0x60#8).toNat < 0x61 ∧ 0x7A < (0x7B#8).toNat) ∧
    (∃ row ∈ Params.default.caseTable.rows, row.lower = 0xAE#8) ∧
    (∀ row ∈ Params.default.caseTable.rows, row.lower ≠ 0x60#8) := by decide +kernel

theorem witness_FoldUppercasesItsBufferInPlace :
    (setup [(.src, 0xFFFFFFFF), (.slen, 1)] [] []).src = some 0xFFFFFFFF#32 ∧
    (setup [(.src, 0xFFFFFFFF), (.slen, 1)] [] []).slen = some 1#32 ∧
    admitted (setup [(.src, 0xFFFFFFFF), (.slen, 1)] [] []).params.admit8 (0xFFFFFFFF#32).toNat
      (1#32).toNat = true := by decide +kernel

/-- The default table meets the three conditions of 45_case_folder.md R125, and FOLD completes. -/
theorem witness_FoldIsIdempotentExactlyOnFixedPoints :
    (∃ t, exec .fold (setup [(.src, 0x10), (.slen, 1)] [] [(0x10, 0x61#8)]) = .next t) ∧
    (∀ row ∈ Params.default.caseTable.rows, row.upper.toNat < 0x61 ∨ 0x7A < row.upper.toNat) ∧
    (∀ row ∈ Params.default.caseTable.rows, ∀ row' ∈ Params.default.caseTable.rows,
      row.upper ≠ row'.lower) ∧
    (∀ row ∈ Params.default.caseTable.rows, row.lower.toNat < 0x41 ∨ 0x5A < row.lower.toNat) :=
  ⟨⟨_, rfl⟩, by decide +kernel, by decide +kernel, by decide +kernel⟩

/-- The operands of the write forms: the ranges meet and do not overlap (95_test_vectors.md CF3). -/
theorem witness_ConversionsWriteWhatFits :
    (setup [(.src, 0x10), (.slen, 3), (.dst, 0x13), (.dcap, 4)] [] []).src = some 0x10#32 ∧
    (setup [(.src, 0x10), (.slen, 3), (.dst, 0x13), (.dcap, 4)] [] []).slen = some 3#32 ∧
    (setup [(.src, 0x10), (.slen, 3), (.dst, 0x13), (.dcap, 4)] [] []).dst = some 0x13#32 ∧
    (setup [(.src, 0x10), (.slen, 3), (.dst, 0x13), (.dcap, 4)] [] []).dcap = some 4#32 ∧
    admitted (setup [(.src, 0x10), (.slen, 3), (.dst, 0x13), (.dcap, 4)] [] []).params.admit16
      (0x10#32).toNat (3#32).toNat = true ∧
    admitted (setup [(.src, 0x10), (.slen, 3), (.dst, 0x13), (.dcap, 4)] [] []).params.admit8
      (0x10#32).toNat (3#32).toNat = true ∧
    admitted (setup [(.src, 0x10), (.slen, 3), (.dst, 0x13), (.dcap, 4)] [] []).params.admit16
      (0x13#32).toNat (4#32).toNat = true ∧
    admitted (setup [(.src, 0x10), (.slen, 3), (.dst, 0x13), (.dcap, 4)] [] []).params.admit8
      (0x13#32).toNat (4#32).toNat = true ∧
    overlap (0x10#32).toNat (3#32).toNat (0x13#32).toNat (4#32).toNat = false := by decide +kernel

/-- A total that fits; `witness_measuresTooMuch` gives one that does not. -/
theorem witness_Cvt16to8MeasureCountsOrOverflows :
    (setup [(.src, 0x10), (.slen, 2)] [] []).src = some 0x10#32 ∧
    (setup [(.src, 0x10), (.slen, 2)] [] []).slen = some 2#32 ∧
    admitted (setup [(.src, 0x10), (.slen, 2)] [] []).params.admit16 (0x10#32).toNat (2#32).toNat =
      true ∧
    (fullOutput utf8Bytes (sourceText16 (setup [(.src, 0x10), (.slen, 2)] [] []) 0x10#32
      2#32)).length ≤ 2 ^ 32 - 1 := by decide +kernel

theorem witness_Utf8MeasuresCount :
    (setup [(.src, 0x10), (.slen, 2)] [] []).src = some 0x10#32 ∧
    (setup [(.src, 0x10), (.slen, 2)] [] []).slen = some 2#32 ∧
    admitted (setup [(.src, 0x10), (.slen, 2)] [] []).params.admit8 (0x10#32).toNat (2#32).toNat =
      true := by decide +kernel

/-- A measure and a write of the same source, in each direction, with DCAP exactly the total. -/
def sized : State :=
  setup [(.src, 0x10), (.slen, 2), (.dst, 0x20), (.dcap, 2)] [(0x10, 0x41#16), (0x11, 0x42#16)]
    [(0x10, 0x41#8), (0x11, 0x42#8)]

theorem witness_MeasureAndWriteAgree :
    sized.status.fault = false ∧ sized.src = some 0x10#32 ∧ sized.slen = some 2#32 ∧
    sized.dst = some 0x20#32 ∧ sized.dcap = some 2#32 ∧ (2#32).toNat ≤ (2#32).toNat ∧
    (∃ m, exec .cvt16to8M sized = .next m ∧ m.status.fault = false ∧ m.cnt = some 2#32) ∧
    (∃ m, exec .cvt8to16M sized = .next m ∧ m.status.fault = false ∧ m.cnt = some 2#32) ∧
    (∃ m, exec .cvt8tovisM sized = .next m ∧ m.status.fault = false ∧ m.cnt = some 2#32) ∧
    admitted sized.params.admit8 (0x20#32).toNat (2#32).toNat = true ∧
    admitted sized.params.admit16 (0x20#32).toNat (2#32).toNat = true ∧
    overlap (0x10#32).toNat (2#32).toNat (0x20#32).toNat (2#32).toNat = false := by
  refine ⟨by decide +kernel, rfl, rfl, rfl, rfl, by decide, ⟨sized.set .cnt 2#32, ?_⟩,
    ⟨sized.set .cnt 2#32, ?_⟩, ⟨sized.set .cnt 2#32, ?_⟩, by decide +kernel, by decide +kernel,
    by decide⟩
  all_goals exact ⟨rfl, rfl, rfl⟩

theorem witness_MemoryAccessesAreBounded :
    overlap (0x10#32).toNat (3#32).toNat (0x13#32).toNat (4#32).toNat = false := by decide

theorem witness_NoMemoryAccessWhereTheTableGivesZero :
    (Instr.dec8 = .dec16 ∨ Instr.dec8 = .dec8) ∧
    (Instr.lenvis = .len16 ∨ Instr.lenvis = .len8 ∨ Instr.lenvis = .lenvis) := by decide

end Sys2Proof.Tests
end

section
/-! Facts about the state and its host accesses (10_state.md): what a space keeps under admitted writes,
what one host access keeps (`Keeps`), and the proofs of the statements of 10_state.md. -/

namespace Sys2Proof.Machine

/-! ## Admission -/

/-- A range is covered exactly when each of its addresses is in some span (20_memory.md R33). -/
theorem covered_iff (spans : List Span) (b e : Nat) :
    covered spans b e = true ↔ ∀ x, b ≤ x → x < e → ∃ sp ∈ spans, sp.lo ≤ x ∧ x < sp.hi := by
  induction spans generalizing b e with
  | nil =>
    simp only [covered, decide_eq_true_eq, List.not_mem_nil, false_and, exists_false]
    exact ⟨fun h x h1 h2 => by omega, fun h => Nat.le_of_not_lt fun hlt => h b (le_refl b) hlt⟩
  | cons sp rest ih =>
    by_cases hbe : e ≤ b
    · simp only [covered, hbe, if_true, true_iff]
      exact fun x h1 h2 => by omega
    · simp only [covered, hbe, if_false, Bool.and_eq_true, ih, List.exists_mem_cons_iff]
      constructor
      · rintro ⟨below, above⟩ x h1 h2
        by_cases hlo : sp.lo ≤ x
        · by_cases hhi : x < sp.hi
          · exact .inl ⟨hlo, hhi⟩
          · exact .inr (above x (by omega) h2)
        · exact .inr (below x h1 (by omega))
      · intro h
        exact ⟨fun x h1 h2 => (h x h1 (by omega)).resolve_left (by omega),
          fun x h1 h2 => (h x (by omega) h2).resolve_left (by omega)⟩

/-- Each unit of an admitted range exists (20_memory.md R33, R34). -/
theorem admits_of_admitted {spans : List Span} {b n x : Nat} (h : admitted spans b n = true)
    (h1 : b ≤ x) (h2 : x < b + n) : admits spans x = true := by
  simp only [admitted, Bool.and_eq_true, decide_eq_true_eq, covered_iff] at h
  obtain ⟨hend, hall⟩ := h
  obtain ⟨sp, hsp, hin⟩ := hall x h1 h2
  simp only [admits, Bool.and_eq_true, decide_eq_true_eq, List.any_eq_true]
  exact ⟨by omega, sp, hsp, hin⟩

theorem lt_spaceSize_of_admits {spans : List Span} {a : Nat} (h : admits spans a = true) :
    a < spaceSize := by
  simp only [admits, Bool.and_eq_true, decide_eq_true_eq] at h
  exact h.1

/-! ## A space in canonical form that lists only units that exist -/

/-- What `State.inv` asks of one space. -/
def Memory.Sound {w : Nat} (spans : List Span) (m : Memory w) : Prop :=
  m.wf = true ∧ m.within spans = true

theorem Memory.within_iff {w : Nat} {spans : List Span} {m : Memory w} :
    m.within spans = true ↔ ∀ c ∈ m, admits spans c.1 = true := by
  simp [Memory.within]

/-- A write of a unit that exists keeps the space sound. -/
theorem Memory.Sound.write {w : Nat} {spans : List Span} {m : Memory w} {a : Nat}
    (h : m.Sound spans) (ha : admits spans a = true) (v : BitVec w) :
    (m.write a v).Sound spans := by
  obtain ⟨hwf, hin⟩ := h
  refine ⟨Memory.wf_write v hwf (lt_spaceSize_of_admits ha), Memory.within_iff.2 fun c hc => ?_⟩
  rcases Memory.mem_write hc with hca | hcm
  · rwa [hca]
  · exact Memory.within_iff.1 hin c hcm

/-- A space cut short between two sound ones is sound (70_reset_and_hazards.md R170). -/
theorem Memory.Sound.cut {w : Nat} {spans : List Span} {before after : Memory w}
    (landed : Nat → Bool) (h : before.Sound spans) (h' : after.Sound spans) :
    (Memory.cut landed before after).Sound spans := by
  refine ⟨Memory.wf_cut landed h.1 h'.1, Memory.within_iff.2 fun c hc => ?_⟩
  rcases Memory.mem_cut hc with ⟨d, hd, hdc⟩ | ⟨d, hd, hdc⟩ <;> rw [← hdc]
  · exact Memory.within_iff.1 h.2 d hd
  · exact Memory.within_iff.1 h'.2 d hd

theorem State.inv_iff (s : State) :
    s.inv = true ↔ s.status.busy = false ∧ s.status.legal = true ∧
      s.m16.Sound s.params.admit16 ∧ s.m8.Sound s.params.admit8 := by
  simp only [State.inv, Memory.Sound, Bool.and_eq_true, Bool.not_eq_true']
  tauto

/-! ## Host accesses and steps, case by case -/

theorem hostReadReg_of_some {r : Reg} {s : State} {v : Word} (h : s.get r = some v) :
    hostReadReg r s = s.observe (.reg (.op r) v) := by
  simp [hostReadReg, h]

theorem hostReadReg_of_none {r : Reg} {s : State} (h : s.get r = none) :
    hostReadReg r s = (s.observe (.reg (.op r) (Config.freeWord s.draws))).draw := by
  simp [hostReadReg, h]

/-- A host access to a unit answers only when the unit exists. -/
theorem hostUnit_eq_next {ok : Bool} {s t : State} (h : hostUnit ok s = .next t) :
    ok = true ∧ t = s := by
  cases ok with
  | false => cases h
  | true => cases h; exact ⟨rfl, rfl⟩

theorem hostStep_of_idle {s : State} (op : HostOp) (h : s.status.busy = false) :
    hostStep op s = op.perform s := by
  simp [hostStep, h]

/-- A step of an idle host changes nothing; any other takes the next access of the script. -/
theorem step_eq_next {s t : State} (h : step s = .next t) :
    t = s ∨ ∃ op rest, s.script = op :: rest ∧ hostStep op { s with script := rest } = .next t := by
  unfold step at h
  split at h
  · cases h; exact .inl rfl
  · next op rest hs => exact .inr ⟨op, rest, hs, h⟩

/-! ## What a command keeps -/

theorem Frame.sound16 {i : Instr} {s t : State} (hfr : Frame i s t)
    (h : s.m16.Sound s.params.admit16) : t.m16.Sound s.params.admit16 :=
  hfr.keeps16 (Memory.Sound s.params.admit16) h
    fun _ _ v h1 h2 ha hm => hm.write (admits_of_admitted ha h1 h2) v

theorem Frame.sound8 {i : Instr} {s t : State} (hfr : Frame i s t)
    (h : s.m8.Sound s.params.admit8) : t.m8.Sound s.params.admit8 := by
  by_cases hi : i = .fold
  · exact hfr.keepsFold hi (Memory.Sound s.params.admit8) h
      fun _ _ v h1 h2 ha hm => hm.write (admits_of_admitted ha h1 h2) v
  · exact hfr.keeps8 hi (Memory.Sound s.params.admit8) h
      fun _ _ v h1 h2 ha hm => hm.write (admits_of_admitted ha h1 h2) v

/-! ## What one host access keeps -/

/-- What every host access that answers keeps, from `s` to `t`: the parameters and the accesses to come
as they are, and each part of `State.inv` on its own. -/
structure Keeps (s t : State) : Prop where
  params  : t.params = s.params
  script  : t.script = s.script
  idle    : s.status.busy = false → t.status.busy = false
  legal   : s.status.legal = true → t.status.legal = true
  sound16 : s.m16.Sound s.params.admit16 → t.m16.Sound s.params.admit16
  sound8  : s.m8.Sound s.params.admit8 → t.m8.Sound s.params.admit8

theorem Keeps.inv {s t : State} (hk : Keeps s t) (h : s.inv = true) : t.inv = true := by
  rw [State.inv_iff] at h ⊢
  obtain ⟨hidle, hlegal, h16, h8⟩ := h
  rw [hk.params]
  exact ⟨hk.idle hidle, hk.legal hlegal, hk.sound16 h16, hk.sound8 h8⟩

/-- An access that leaves both spaces alone. -/
theorem Keeps.of_memory_eq {s t : State} (hp : t.params = s.params) (hs : t.script = s.script)
    (hidle : s.status.busy = false → t.status.busy = false)
    (hlegal : s.status.legal = true → t.status.legal = true) (h16 : t.m16 = s.m16)
    (h8 : t.m8 = s.m8) : Keeps s t :=
  ⟨hp, hs, hidle, hlegal, fun h => h16 ▸ h, fun h => h8 ▸ h⟩

theorem Keeps.refl (s : State) : Keeps s s := .of_memory_eq rfl rfl id id rfl rfl

theorem keeps_set (s : State) (r : Reg) (v : Word) : Keeps s (s.set r v) :=
  .of_memory_eq (by simp) (by simp) (by simp) (by simp) (by simp) (by simp)

theorem keeps_observe (s : State) (o : Obs) : Keeps s (s.observe o) :=
  .of_memory_eq rfl rfl id id rfl rfl

theorem keeps_recordFault (s : State) (c : Cause) : Keeps s (s.recordFault c) :=
  .of_memory_eq rfl rfl (fun _ => rfl) (fun _ => Status.record_legal s.status c) rfl rfl

theorem keeps_resetEngine (s : State) : Keeps s s.resetEngine :=
  .of_memory_eq rfl rfl (fun _ => rfl) (fun _ => rfl) rfl rfl

theorem keeps_hostRead (r : BlockReg) (s : State) : Keeps s (hostRead r s) := by
  cases r with
  | cmd => exact keeps_observe s _
  | status => exact keeps_observe s _
  | unused k => exact keeps_observe s _
  | op r =>
    cases hr : s.get r with
    | some v => simpa only [hostRead, hostReadReg_of_some hr] using keeps_observe s _
    | none =>
      simp only [hostRead, hostReadReg_of_none hr]
      exact .of_memory_eq rfl rfl id id rfl rfl

theorem keeps_issue {v : Word} {s t : State} (h : issue v s = .next t) : Keeps s t := by
  rcases issue_cases v s with e | ⟨c, e⟩ | ⟨-, i, u, -, -, hfr, e⟩ <;> rw [e] at h <;> cases h
  · exact .refl s
  · exact keeps_recordFault s c
  · have hst : u.finish.status = s.status.begin.finish := congrArg Status.finish hfr.status
    exact ⟨hfr.params, hfr.script, fun _ => rfl, fun hl => by rw [hst]; exact hl, hfr.sound16,
      hfr.sound8⟩

theorem keeps_hostWrite {r : BlockReg} {v : Word} {s t : State} (h : hostWrite r v s = .next t) :
    Keeps s t := by
  cases r with
  | cmd => exact keeps_issue h
  | status => cases h; exact .refl s
  | unused k => cases h; exact .refl s
  | op r => cases h; exact keeps_set s r v

/-- A command cut short by reset keeps what the whole command keeps. -/
theorem keeps_cutByReset {v : Word} {s t : State} (h : cutByReset v s = .next t) : Keeps s t := by
  obtain ⟨whole, hw⟩ := issue_next v s
  have hk := keeps_issue hw
  simp only [cutByReset, hw] at h
  cases h
  exact ⟨rfl, rfl, fun _ => rfl, fun _ => rfl, fun h16 => h16.cut _ (hk.sound16 h16),
    fun h8 => h8.cut _ (hk.sound8 h8)⟩

theorem HostOp.perform_keeps {op : HostOp} {s t : State} (h : op.perform s = .next t) :
    Keeps s t := by
  cases op with
  | wr r v => exact keeps_hostWrite h
  | rd r => cases h; exact keeps_hostRead r s
  | store16 a v =>
    obtain ⟨ha, rfl⟩ := hostUnit_eq_next h
    exact ⟨rfl, rfl, id, id, fun h16 => h16.write ha v, id⟩
  | store8 a v =>
    obtain ⟨ha, rfl⟩ := hostUnit_eq_next h
    exact ⟨rfl, rfl, id, id, id, fun h8 => h8.write ha v⟩
  | load16 a =>
    obtain ⟨-, rfl⟩ := hostUnit_eq_next h
    exact keeps_observe s _
  | load8 a =>
    obtain ⟨-, rfl⟩ := hostUnit_eq_next h
    exact keeps_observe s _
  | reset => cases h; exact keeps_resetEngine s
  | cmdCutByReset v => exact keeps_cutByReset h

theorem hostStep_keeps {op : HostOp} {s t : State} (h : hostStep op s = .next t) : Keeps s t := by
  unfold hostStep at h
  split at h
  · cases h
  · exact HostOp.perform_keeps h

/-! ## Every step -/

/-- Settles O20: a step is one host access, which keeps each part of the invariant. -/
theorem stepKeepsInvariant : Obligations.StepKeepsInvariant := by
  intro s t hinv hstep
  rcases step_eq_next hstep with rfl | ⟨op, rest, -, h⟩
  · exact hinv
  · exact (hostStep_keeps h).inv hinv

/-- Settles O22: a step is one host access, and none writes the parameters. -/
theorem parametersNeverChange : Obligations.ParametersNeverChange := by
  intro s t hstep
  rcases step_eq_next hstep with rfl | ⟨op, rest, -, h⟩
  · rfl
  · exact (hostStep_keeps h).params

/-! ## The register block -/

@[simp] theorem BlockReg.ofOffset_offset (r : BlockReg) : BlockReg.ofOffset r.offset = some r := by
  cases r with
  | cmd => rfl
  | status => rfl
  | op r => cases r <;> rfl
  | unused k =>
    have hmod : (0x28 + 4 * k) % 4 = 0 := by omega
    have hdiv : (0x28 + 4 * k) / 4 = k + 10 := by omega
    simp [BlockReg.ofOffset, BlockReg.offset, hmod, hdiv]

theorem BlockReg.offset_of_ofOffset {off : Nat} {r : BlockReg} (h : BlockReg.ofOffset off = some r) :
    r.offset = off := by
  unfold BlockReg.ofOffset at h
  split at h
  · cases h
  · split at h <;> cases h <;> simp only [BlockReg.offset, Reg.offset] <;> omega

theorem BlockReg.offset_injective : Function.Injective BlockReg.offset := fun r q h =>
  Option.some.inj (by rw [← BlockReg.ofOffset_offset r, h, BlockReg.ofOffset_offset])

/-- Settles O11: `ofOffset` undoes `offset`, so offsets, and the addresses one base gives, are one to
one. -/
theorem registerBlockLayout : Obligations.RegisterBlockLayout := by
  refine ⟨rfl, fun r off => ⟨BlockReg.offset_of_ofOffset, ?_⟩, fun p r q h => ?_⟩
  · rintro rfl
    exact BlockReg.ofOffset_offset r
  · exact BlockReg.offset_injective (Nat.add_left_cancel h)

/-- Settles O12: while BUSY = 0 an access is performed, and `State.set` writes its register alone. -/
theorem hostAccessesTheRegisterBlock : Obligations.HostAccessesTheRegisterBlock := by
  intro s r v k hidle
  simp only [hostStep_of_idle _ hidle]
  refine ⟨⟨rfl, by simp, fun q hq => by simp [hq], by simp, by simp, by simp, by simp, by simp,
    by simp, by simp⟩, rfl, rfl, rfl, rfl, rfl, fun hv => ?_,
    fun hn => ⟨Config.freeWord s.draws, ?_⟩⟩
  · exact congrArg Host.Outcome.next (hostReadReg_of_some hv)
  · exact congrArg Host.Outcome.next (hostReadReg_of_none hn)

/-! ## STATUS -/

theorem Status.legal_iff (st : Status) : st.legal = true ↔
    (st.fault = false ∧ st.cause = 0#4) ∨
    (st.fault = true ∧ 1 ≤ st.cause.toNat ∧ st.cause.toNat ≤ 7) := by
  unfold Status.legal
  cases st.fault <;> simp

@[simp] theorem Status.word_zero : Status.zero.word = 0#32 := by decide

/-- The low bits of STATUS, BUSY, FAULT and two reserved ones (10_state.md R15). -/
theorem Status.word_getLsbD_low (st : Status) :
    st.word.getLsbD 0 = st.busy ∧ st.word.getLsbD 1 = st.fault ∧ st.word.getLsbD 2 = false ∧
      st.word.getLsbD 3 = false := by
  rw [Status.word]
  simp only [BitVec.getLsbD_append, BitVec.getLsbD_ofBool, BitVec.getLsbD_zero]
  simp

/-- From bit 4 on STATUS reads as CAUSE, and so as 0 above bit 7 (10_state.md R15). -/
theorem Status.word_getLsbD_add_four (st : Status) (k : Nat) :
    st.word.getLsbD (k + 4) = st.cause.getLsbD k := by
  rw [Status.word]
  simp only [BitVec.getLsbD_append, BitVec.getLsbD_ofBool, BitVec.getLsbD_zero]
  by_cases hk : k < 4
  · simp [hk]
  · simp [hk, BitVec.getLsbD_of_ge _ k (Nat.le_of_not_lt hk)]

theorem Status.word_extractLsb'_reserved (st : Status) : st.word.extractLsb' 2 2 = 0#2 := by
  obtain ⟨-, -, h2, h3⟩ := st.word_getLsbD_low
  refine BitVec.eq_of_getLsbD_eq fun i hi => ?_
  interval_cases i
  · simpa using h2
  · simpa using h3

theorem Status.word_extractLsb'_cause (st : Status) : st.word.extractLsb' 4 4 = st.cause := by
  refine BitVec.eq_of_getLsbD_eq fun i hi => ?_
  simp [hi, Nat.add_comm 4 i, Status.word_getLsbD_add_four]

theorem Status.word_extractLsb'_high (st : Status) : st.word.extractLsb' 8 24 = 0#24 := by
  refine BitVec.eq_of_getLsbD_eq fun i hi => ?_
  have hbit : st.word.getLsbD (8 + i) = st.cause.getLsbD (i + 4) := by
    rw [← Status.word_getLsbD_add_four]; congr 1; omega
  rw [BitVec.getLsbD_extractLsb', hbit, BitVec.getLsbD_of_ge st.cause (i + 4) (by omega)]
  simp

/-- The word a fault record reads as: CAUSE, then FAULT = 1 and BUSY = 0 (60_exceptions.md R151). -/
theorem Status.word_record (st : Status) (c : Cause) :
    (st.record c).word = (0#24 : BitVec 24) ++ c.code ++ 2#4 := by
  cases c <;> simp [Status.record, Status.word, Cause.code]

/-- Settles O13: the low four bits one by one, CAUSE from bit 4 on, and the word of each record. -/
theorem statusWordShowsItsFields : Obligations.StatusWordShowsItsFields := by
  intro st
  obtain ⟨hbusy, hfault, -, -⟩ := st.word_getLsbD_low
  exact ⟨hbusy, hfault, st.word_extractLsb'_reserved, st.word_extractLsb'_cause,
    st.word_extractLsb'_high, st.legal_iff, by simp [Status.word_record, Cause.code]⟩

/-! ## Reset -/

/-- Settles O14: the reset state lists STATUS 0 and no written register. -/
theorem resetStateIsAsSpecified : Obligations.ResetStateIsAsSpecified :=
  ⟨Status.word_zero, fun r => by cases r <;> rfl⟩

/-- Settles O15: reset is allowed whatever BUSY is, and is `State.resetEngine`. -/
theorem resetClearsRegistersAndKeepsMemory : Obligations.ResetClearsRegistersAndKeepsMemory := by
  intro s rest hs
  have hstep : step s = .next { s with script := rest }.resetEngine := by
    simp [step, hs, hostStep, HostOp.allowedWhileBusy, HostOp.perform]
  exact ⟨_, hstep, Status.word_zero, State.resetEngine_get _, rfl, rfl, rfl, rfl, rfl, rfl⟩

/-- Settles O19: STATUS is 0 and nothing is listed. -/
theorem resetHasInvariant : Obligations.ResetHasInvariant := by
  unfold Obligations.ResetHasInvariant
  rw [State.inv_iff]
  exact ⟨rfl, rfl, ⟨rfl, rfl⟩, ⟨rfl, rfl⟩⟩

end Sys2Proof.Machine
end

section
/-! Facts about the memory spaces (20_memory.md): admission, host accesses to units, the buffer a command
may change, and the two parameters no step reads; with the proofs of the statements of 20_memory.md. -/

namespace Sys2Proof.Machine

/-! ## Admission -/

theorem admits_iff (spans : List Span) (a : Nat) :
    admits spans a = true ↔ a < spaceSize ∧ ∃ sp ∈ spans, sp.lo ≤ a ∧ a < sp.hi := by
  simp [admits]

theorem admitted_iff (spans : List Span) (b n : Nat) :
    admitted spans b n = true ↔
      b + n ≤ spaceSize ∧ ∀ k < n, ∃ sp ∈ spans, sp.lo ≤ b + k ∧ b + k < sp.hi := by
  simp only [admitted, Bool.and_eq_true, decide_eq_true_eq, covered_iff]
  refine and_congr_right fun _ => ⟨fun h k hk => h (b + k) (by omega) (by omega), fun h x h1 h2 => ?_⟩
  obtain ⟨k, rfl⟩ := Nat.exists_eq_add_of_le h1
  exact h k (by omega)

/-- Settles O18: `covered` walks the spans, and covers a range exactly when each unit is in one. -/
theorem admittedRangeIsEveryUnitAdmitted : Obligations.AdmittedRangeIsEveryUnitAdmitted :=
  ⟨admits_iff, admitted_iff⟩

/-! ## Host accesses to units -/

/-- A write of one unit holds that unit at its address and changes no other (20_memory.md R31). -/
theorem Memory.holds_write {w : Nat} (m : Memory w) (a : Nat) (v : BitVec w) :
    Holds m (m.write a v) a [v] := by
  intro x
  have hrest : ¬ (a + 1 ≤ x ∧ x < a + 1 + ([] : List (BitVec w)).length) := by
    rw [List.length_nil]; omega
  rw [Memory.read_write, ← read_cons, if_neg hrest]

@[simp] theorem hostUnit_true (s : State) : hostUnit true s = .next s := rfl
@[simp] theorem hostUnit_false (s : State) : hostUnit false s = .fault .hostUnitAbsent := rfl

/-- An access to a unit the launch memory does not have stops (93_implementation_defined.md I12, log
entry 13). -/
theorem HostOp.perform_of_absent {op : HostOp} {s : State} (h : op.onUnits s.params = false) :
    op.perform s = .fault .hostUnitAbsent := by
  cases op with
  | store16 a v => exact congrArg (hostUnit · _) h
  | store8 a v => exact congrArg (hostUnit · _) h
  | load16 a => exact congrArg (hostUnit · _) h
  | load8 a => exact congrArg (hostUnit · _) h
  | wr r v => cases h
  | rd r => cases h
  | reset => cases h
  | cmdCutByReset v => cases h

theorem hostStep_of_absent {op : HostOp} {s : State} (hidle : s.status.busy = false)
    (h : op.onUnits s.params = false) : hostStep op s = .fault .hostUnitAbsent :=
  (hostStep_of_idle op hidle).trans (HostOp.perform_of_absent h)

section
variable {s : State} {a : Word} (hidle : s.status.busy = false)
include hidle

theorem hostStep_store16 (ha : admits s.params.admit16 a.toNat = true) (v : Unit16) :
    hostStep (.store16 a v) s = .next { s with m16 := s.m16.write a.toNat v } := by
  simp [hostStep_of_idle _ hidle, HostOp.perform, ha]

theorem hostStep_store8 (ha : admits s.params.admit8 a.toNat = true) (v : Byte) :
    hostStep (.store8 a v) s = .next { s with m8 := s.m8.write a.toNat v } := by
  simp [hostStep_of_idle _ hidle, HostOp.perform, ha]

theorem hostStep_load16 (ha : admits s.params.admit16 a.toNat = true) {v : Unit16}
    (hv : s.m16.read a.toNat = v) : hostStep (.load16 a) s = .next (s.observe (.unit16 a v)) := by
  simp [hostStep_of_idle _ hidle, HostOp.perform, ha, hv]

theorem hostStep_load8 (ha : admits s.params.admit8 a.toNat = true) {v : Byte}
    (hv : s.m8.read a.toNat = v) : hostStep (.load8 a) s = .next (s.observe (.unit8 a v)) := by
  simp [hostStep_of_idle _ hidle, HostOp.perform, ha, hv]

end

/-- Settles O17: a store is one `Memory.write`, and a load reads it back. -/
theorem hostUnitsHoldWhatTheHostWrote : Obligations.HostUnitsHoldWhatTheHostWrote := by
  intro s a u b hidle
  refine ⟨fun ha => ?_, fun ha => ?_, fun ha => ?_, fun ha => ?_⟩
  · exact ⟨_, hostStep_store16 hidle ha u, rfl, Memory.holds_write _ _ _,
      hostStep_load16 (s := { s with m16 := s.m16.write a.toNat u }) hidle ha
        (Memory.read_write_same _ _ _)⟩
  · exact ⟨_, hostStep_store8 hidle ha b, rfl, Memory.holds_write _ _ _,
      hostStep_load8 (s := { s with m8 := s.m8.write a.toNat b }) hidle ha
        (Memory.read_write_same _ _ _)⟩
  · exact ⟨hostStep_of_absent hidle ha, hostStep_of_absent hidle ha⟩
  · exact ⟨hostStep_of_absent hidle ha, hostStep_of_absent hidle ha⟩

/-! ## The buffer a command may change -/

section
variable {i : Instr} {s t : State} (hfr : Frame i s t) {x : Nat}
include hfr

theorem Frame.read16_outside (hx : x < s.value .dst ∨ s.value .dst + s.value .dcap ≤ x) :
    t.m16.read x = s.m16.read x :=
  hfr.keeps16 (fun m => m.read x = s.m16.read x) rfl
    fun m _ v h1 h2 _ hm => (m.read_write_of_ne v (by omega)).trans hm

theorem Frame.read8_outside (hi : i ≠ .fold)
    (hx : x < s.value .dst ∨ s.value .dst + s.value .dcap ≤ x) : t.m8.read x = s.m8.read x :=
  hfr.keeps8 hi (fun m => m.read x = s.m8.read x) rfl
    fun m _ v h1 h2 _ hm => (m.read_write_of_ne v (by omega)).trans hm

theorem Frame.read8_outside_fold (hi : i = .fold)
    (hx : x < s.value .src ∨ s.value .src + s.value .slen ≤ x) : t.m8.read x = s.m8.read x :=
  hfr.keepsFold hi (fun m => m.read x = s.m8.read x) rfl
    fun m _ v h1 h2 _ hm => (m.read_write_of_ne v (by omega)).trans hm

end

/-- Settles O25: a fault changes no memory, and a command that completes stays in its frame, which keeps
what a unit outside the buffer reads as. -/
theorem commandsChangeOnlyTheirBuffers : Obligations.CommandsChangeOnlyTheirBuffers := by
  intro i s t h
  rcases exec_cases i s with ⟨c, e⟩ | ⟨u, e, hfr⟩ <;> rw [e] at h <;> cases h
  · exact ⟨fun _ => rfl, fun _ => rfl, fun _ _ => ⟨rfl, fun _ => rfl⟩, fun _ _ _ => rfl⟩
  · exact ⟨hfr.other16, hfr.other8,
      fun _ hx => ⟨hfr.read16_outside hx, fun hi => hfr.read8_outside hi hx⟩,
      fun _ hx hi => hfr.read8_outside_fold hi hx⟩

/-! ## The host byte order and the register base -/

/-- The same machine on a platform with another host byte order and register base. -/
def State.onPlatform (o : U16Order) (b : Word) (s : State) : State :=
  { s with params := { s.params with hostU16Order := o, regBase := b } }

/-- The outcome with `f` applied to its next state, if it has one. -/
def Result.mapNext (f : State → State) : Result → Result
  | .next t => .next (f t)
  | .fault e => .fault e
  | .refused e => .refused e

section
variable {o : U16Order} {b : Word} {s : State}

@[simp] theorem State.onPlatform_status : (s.onPlatform o b).status = s.status := rfl
@[simp] theorem State.onPlatform_script : (s.onPlatform o b).script = s.script := rfl
@[simp] theorem State.onPlatform_get (r : Reg) : (s.onPlatform o b).get r = s.get r := by
  cases r <;> rfl

/-! An operation of the model does the same on every platform when its continuation does. -/

theorem readReg_onPlatform {r : Reg} {k k' : Word → Result}
    (hk : ∀ v, k' v = Result.mapNext (State.onPlatform o b) (k v)) :
    readReg r (s.onPlatform o b) k' = Result.mapNext (State.onPlatform o b) (readReg r s k) := by
  rcases readReg_cases r s k with ⟨v, hv, e⟩ | ⟨hn, e⟩ <;> rw [e]
  · rw [readReg_of_some k' ((State.onPlatform_get r).trans hv), hk]
  · rw [readReg_of_none k' ((State.onPlatform_get r).trans hn)]; rfl

theorem require_onPlatform {ok : Bool} {c : Cause} {k k' : Result}
    (hk : k' = Result.mapNext (State.onPlatform o b) k) :
    require ok c (s.onPlatform o b) k' =
      Result.mapNext (State.onPlatform o b) (require ok c s k) := by
  cases ok with
  | false => rfl
  | true => exact hk

theorem lengthCommand_onPlatform (len : Word → Nat) :
    lengthCommand len (s.onPlatform o b) =
      Result.mapNext (State.onPlatform o b) (lengthCommand len s) :=
  readReg_onPlatform fun _ => require_onPlatform rfl

/-- A command reads its registers, makes its checks, and ends; none of these reads the platform. -/
theorem exec_onPlatform (i : Instr) :
    exec i (s.onPlatform o b) = Result.mapNext (State.onPlatform o b) (exec i s) := by
  cases i with
  | dec16 | dec8 =>
    exact readReg_onPlatform fun _ => readReg_onPlatform fun _ => readReg_onPlatform fun _ =>
      require_onPlatform <| require_onPlatform rfl
  | enc16 | enc8 | encvis =>
    exact readReg_onPlatform fun _ => readReg_onPlatform fun _ => readReg_onPlatform fun _ =>
      readReg_onPlatform fun _ => require_onPlatform <| require_onPlatform rfl
  | len16 | len8 | lenvis => exact lengthCommand_onPlatform _
  | fold => exact readReg_onPlatform fun _ => readReg_onPlatform fun _ => require_onPlatform rfl
  | cvt16to8 | cvt8to16 =>
    exact readReg_onPlatform fun _ => readReg_onPlatform fun _ => readReg_onPlatform fun _ =>
      readReg_onPlatform fun _ => require_onPlatform <| require_onPlatform rfl
  | cvt8tovis =>
    exact readReg_onPlatform fun _ => readReg_onPlatform fun _ => readReg_onPlatform fun _ =>
      readReg_onPlatform fun _ => require_onPlatform <| require_onPlatform <| require_onPlatform rfl
  | cvt16to8M | cvt8to16M =>
    exact readReg_onPlatform fun _ => readReg_onPlatform fun _ =>
      require_onPlatform <| require_onPlatform rfl
  | cvt8tovisM =>
    exact readReg_onPlatform fun _ => readReg_onPlatform fun _ => require_onPlatform rfl

theorem endCommand_onPlatform (r : Result) :
    endCommand (Result.mapNext (State.onPlatform o b) r) =
      Result.mapNext (State.onPlatform o b) (endCommand r) := by
  cases r <;> rfl

theorem issue_onPlatform (v : Word) :
    issue v (s.onPlatform o b) = Result.mapNext (State.onPlatform o b) (issue v s) := by
  unfold issue
  rw [State.onPlatform_status]
  by_cases hf : s.status.fault = true
  · rw [if_pos hf, if_pos hf]; rfl
  · rw [if_neg hf, if_neg hf]
    cases decode v with
    | none => rfl
    | some i =>
      exact (congrArg endCommand (exec_onPlatform (s := s.begin) i)).trans (endCommand_onPlatform _)

theorem hostWrite_onPlatform (r : BlockReg) (v : Word) :
    hostWrite r v (s.onPlatform o b) = Result.mapNext (State.onPlatform o b) (hostWrite r v s) := by
  cases r with
  | cmd => exact issue_onPlatform v
  | status => rfl
  | op r => cases r <;> rfl
  | unused k => rfl

theorem hostRead_onPlatform (r : BlockReg) :
    hostRead r (s.onPlatform o b) = (hostRead r s).onPlatform o b := by
  cases r with
  | cmd => rfl
  | status => rfl
  | unused k => rfl
  | op r =>
    cases hr : s.get r with
    | some v =>
      exact (hostReadReg_of_some ((State.onPlatform_get r).trans hr)).trans
        (congrArg (State.onPlatform o b) (hostReadReg_of_some hr).symm)
    | none =>
      exact (hostReadReg_of_none ((State.onPlatform_get r).trans hr)).trans
        (congrArg (State.onPlatform o b) (hostReadReg_of_none hr).symm)

theorem hostUnit_onPlatform (ok : Bool) :
    hostUnit ok (s.onPlatform o b) = Result.mapNext (State.onPlatform o b) (hostUnit ok s) := by
  cases ok <;> rfl

theorem cutByReset_onPlatform (v : Word) :
    cutByReset v (s.onPlatform o b) = Result.mapNext (State.onPlatform o b) (cutByReset v s) := by
  simp only [cutByReset, issue_onPlatform]
  cases issue v s <;> rfl

theorem HostOp.perform_onPlatform (op : HostOp) :
    op.perform (s.onPlatform o b) = Result.mapNext (State.onPlatform o b) (op.perform s) := by
  cases op with
  | wr r v => exact hostWrite_onPlatform r v
  | rd r => exact congrArg Host.Outcome.next (hostRead_onPlatform r)
  | store16 a v => exact hostUnit_onPlatform (s := { s with m16 := s.m16.write a.toNat v }) _
  | store8 a v => exact hostUnit_onPlatform (s := { s with m8 := s.m8.write a.toNat v }) _
  | load16 a => exact hostUnit_onPlatform (s := s.observe _) _
  | load8 a => exact hostUnit_onPlatform (s := s.observe _) _
  | reset => rfl
  | cmdCutByReset v => exact cutByReset_onPlatform v

theorem hostStep_onPlatform (op : HostOp) :
    hostStep op (s.onPlatform o b) = Result.mapNext (State.onPlatform o b) (hostStep op s) := by
  unfold hostStep
  rw [State.onPlatform_status]
  by_cases hb : (s.status.busy && !op.allowedWhileBusy) = true
  · rw [if_pos hb, if_pos hb]; rfl
  · rw [if_neg hb, if_neg hb]
    exact HostOp.perform_onPlatform op

/-- A step on another platform is the step, seen on that platform. -/
theorem step_onPlatform :
    step (s.onPlatform o b) = Result.mapNext (State.onPlatform o b) (step s) := by
  cases hs : s.script with
  | nil => simp only [step, State.onPlatform_script, hs]; rfl
  | cons op rest =>
    simp only [step, State.onPlatform_script, hs]
    exact hostStep_onPlatform (s := { s with script := rest }) op

end

/-- Settles O26: changing the platform commutes with the step. -/
theorem hostOrderAndBaseAreNotRead : Obligations.HostOrderAndBaseAreNotRead := by
  intro s t o b h
  exact step_onPlatform.trans (congrArg (Result.mapNext (State.onPlatform o b)) h)

end Sys2Proof.Machine
end

section
/-! Facts about command words (30_encoding.md): the fields of a word decide what it decodes to, a write of
CMD runs what the word decodes to, and a command reads and writes the registers R52 marks for it; with the
proofs of the statements of 30_encoding.md. -/

namespace Sys2Proof

/-! ## A word and its fields -/

/-- The three fields make up the word: none of the 32 bits is dropped (30_encoding.md R46). -/
@[simp] theorem assemble_fieldsOf (v : Word) : assemble (fieldsOf v) = v := by
  refine BitVec.eq_of_getLsbD_eq fun k hk => ?_
  simp only [assemble, fieldsOf, opcOf, measureOf, reservedOf, BitVec.getLsbD_append,
    BitVec.getLsbD_extractLsb']
  by_cases hopc : k < 8
  · simp [hopc]
  · by_cases hm : k = 8
    · simp [hm]
    · have hrsv : ¬ k - 8 < 1 := by omega
      have hlast : k - 8 - 1 < 23 := by omega
      have hk9 : 9 + (k - 8 - 1) = k := by omega
      simp [hopc, hrsv, hlast, hk9]

theorem decode_of_reservedOf_ne {v : Word} (h : reservedOf v ≠ 0#23) : decode v = none := if_pos h

@[simp] theorem decode_encode (i : Instr) : decode (encode i) = some i := by
  cases i <;> rfl

/-- A command's row gives the fields of every word that decodes to it (30_encoding.md R47). -/
theorem fieldsOf_of_decode {v : Word} {i : Instr} (h : decode v = some i) : fieldsOf v = i.fields := by
  have hrsv : reservedOf v = 0#23 := by
    by_contra hne
    rw [decode_of_reservedOf_ne hne] at h
    cases h
  have hfields : ∀ {o : BitVec 8} {m : BitVec 1}, (opcOf v).toNat = o.toNat →
      (measureOf v).toNat = m.toNat → fieldsOf v = ⟨o, m, 0#23⟩ := fun ho hm => by
    rw [fieldsOf, BitVec.eq_of_toNat_eq ho, BitVec.eq_of_toNat_eq hm, hrsv]
  rw [decode, if_neg (not_not_intro hrsv)] at h
  split at h <;> cases h <;> next ho hm => exact hfields ho hm

theorem decode_eq_some_iff {v : Word} {i : Instr} : decode v = some i ↔ v = encode i := by
  constructor
  · intro h
    rw [encode, ← fieldsOf_of_decode h, assemble_fieldsOf]
  · rintro rfl
    exact decode_encode i

/-- Settles O1: the fields of a word that decodes to a command are the command's, and make up the word. -/
theorem wordDecodesToTheCommandItEncodes : Obligations.WordDecodesToTheCommandItEncodes :=
  fun _ _ => decode_eq_some_iff

/-- Settles O3: ten closed words. -/
theorem sampleWordsDecode : Obligations.SampleWordsDecode := by
  unfold Obligations.SampleWordsDecode
  decide

/-! ## Legal words -/

/-- With the reserved bits 0, the 512 values of OPC and M decode exactly where R50 has no objection. -/
theorem isSome_decode_assemble (o : BitVec 8) (m : BitVec 1) :
    (decode (assemble ⟨o, m, 0#23⟩)).isSome = CmdFields.wellFormed ⟨o, m, 0#23⟩ := by
  revert o m
  decide +kernel

/-- A word decodes exactly when its fields are well formed (30_encoding.md R50). -/
theorem isSome_decode (v : Word) : (decode v).isSome = (fieldsOf v).wellFormed := by
  by_cases hrsv : reservedOf v = 0#23
  · have hv : fieldsOf v = ⟨opcOf v, measureOf v, 0#23⟩ := by rw [fieldsOf, hrsv]
    rw [hv, ← isSome_decode_assemble, ← hv, assemble_fieldsOf]
  · simp [decode_of_reservedOf_ne hrsv, CmdFields.wellFormed, CmdFields.reservedZero, fieldsOf, hrsv]

theorem measureOf_eq_one_iff (v : Word) : measureOf v = 1#1 ↔ v.getLsbD 8 = true := by
  simp [measureOf, BitVec.eq_of_getLsbD_eq_iff]

/-- The three ways of R50 in which fields are not well formed. -/
theorem CmdFields.wellFormed_eq_false_iff (f : CmdFields) : f.wellFormed = false ↔
    f.rsv ≠ 0#23 ∨ (f.opc = 0x00#8 ∨ 0x0A ≤ f.opc.toNat) ∨
      (f.opc = 0x01#8 ∨ f.opc = 0x02#8 ∨ f.opc = 0x06#8) ∧ f.m = 1#1 := by
  simp only [CmdFields.wellFormed, CmdFields.reservedZero, CmdFields.opcKnown,
    CmdFields.measureAllowed, Bool.and_eq_false_iff, Bool.not_eq_false', Bool.or_eq_true,
    Bool.and_eq_true, beq_iff_eq, beq_eq_false_iff_ne, decide_eq_true_eq, or_assoc]

theorem decode_eq_none_iff (v : Word) : decode v = none ↔
    reservedOf v ≠ 0#23 ∨ (opcOf v = 0x00#8 ∨ 0x0A ≤ (opcOf v).toNat) ∨
      (opcOf v = 0x01#8 ∨ opcOf v = 0x02#8 ∨ opcOf v = 0x06#8) ∧ v.getLsbD 8 = true := by
  rw [← Option.isNone_iff_eq_none, ← Option.isSome_eq_false_iff, isSome_decode,
    CmdFields.wellFormed_eq_false_iff, ← measureOf_eq_one_iff]
  rfl

/-- The 15 commands, in the order of their words. -/
def Instr.all : List Instr :=
  [.dec16, .dec8, .enc16, .enc8, .encvis, .fold, .cvt16to8, .cvt8to16, .cvt8tovis,
    .len16, .len8, .lenvis, .cvt16to8M, .cvt8to16M, .cvt8tovisM]

theorem Instr.mem_all (i : Instr) : i ∈ Instr.all := by cases i <;> decide

theorem decode_ne_none_iff (v : Word) : decode v ≠ none ↔ v ∈ Instr.all.map encode := by
  simp only [Option.ne_none_iff_exists', decode_eq_some_iff, List.mem_map, Instr.mem_all,
    true_and]
  exact exists_congr fun _ => eq_comm

end Sys2Proof

namespace Sys2Proof.Machine

/-! ## A write of CMD -/

theorem issue_of_illegal {v : Word} {s : State} (hf : s.status.fault = false) (hd : decode v = none) :
    issue v s = raiseFault .illegalCmd s := by
  simp [issue, hf, hd]

theorem issue_of_decode {v : Word} {i : Instr} {s : State} (hf : s.status.fault = false)
    (hd : decode v = some i) : issue v s = endCommand (exec i s.begin) := by
  simp [issue, hf, hd]

/-- The step that takes a write of CMD issues the word (30_encoding.md R45). -/
theorem step_of_cmdWrite {s : State} {v : Word} {rest : List HostOp}
    (hs : s.script = .wr .cmd v :: rest) (hidle : s.status.busy = false) :
    step s = issue v { s with script := rest } := by
  simp only [step, hs]
  exact hostStep_of_idle (s := { s with script := rest }) _ hidle

/-- A 32-bit number is its own table word. -/
@[simp] theorem tableWord_toNat (v : Word) : tableWord 32 v.toNat = v := by
  simp [tableWord, Nat.mod_eq_of_lt v.isLt]

/-- Settles O2: a word is legal exactly when its fields are, and the legal words are the 15 encodings. -/
theorem illegalWordsAreAllButFifteen : Obligations.IllegalWordsAreAllButFifteen := fun v =>
  ⟨decode_eq_none_iff v, fun hd _ hf => issue_of_illegal hf hd, decode_ne_none_iff v⟩

/-- Settles O5: the word placed is the host's next write of CMD, and decodes to the command. -/
theorem fetchWordRunsTheCommandItNames : Obligations.FetchWordRunsTheCommandItNames := by
  intro i s hidle hf
  have hword : (s.withFetchWord 32 (encode i).toNat).script = .wr .cmd (encode i) :: s.script := by
    simp [State.withFetchWord]
  have hbegin : s.begin = { s with status := ⟨true, false, s.status.cause⟩ } := by
    rw [State.begin, Status.begin, hf]
  rw [step_of_cmdWrite hword hidle, ← hbegin]
  exact issue_of_decode hf (decode_encode i)

/-! ## The registers a command writes -/

/-- Settles O23: a fault changes STATUS alone, and a command that completes stays in its frame. -/
theorem commandsWriteOnlyTheirRegisters : Obligations.CommandsWriteOnlyTheirRegisters := by
  intro i s t h
  rcases exec_cases i s with ⟨c, e⟩ | ⟨u, e, hfr⟩ <;> rw [e] at h <;> cases h
  · exact ⟨fun r _ => s.recordFault_get c r, rfl, rfl, rfl, rfl⟩
  · exact ⟨hfr.regs, hfr.params, hfr.script, hfr.seen, hfr.draws⟩

/-! ## The registers a command reads -/

/-- Two states that command `i` cannot tell apart: they differ at most in registers not marked r for it
(30_encoding.md R52), and in what is the host's. -/
structure Alike (i : Instr) (s s' : State) : Prop where
  regs   : ∀ r ∈ readsOf i, s.get r = s'.get r
  params : s.params = s'.params
  status : s.status = s'.status
  m16    : s.m16 = s'.m16
  m8     : s.m8 = s'.m8

/-- Command `i` answers `o` on `s` and `o'` on `s'`, and both record one fault or both complete with the
same STATUS, memory and results. -/
def AnswersAlike (i : Instr) (s s' : State) (o o' : Result) : Prop :=
  (∃ c, o = raiseFault c s ∧ o' = raiseFault c s') ∨
  ∃ t t', o = .next t ∧ o' = .next t' ∧ t.status = t'.status ∧ t.m16 = t'.m16 ∧ t.m8 = t'.m8 ∧
    ∀ r ∈ writesOf i, t.get r = t'.get r

section
variable {i : Instr} {s s' : State}

/-! An operation of a command answers alike when its continuation does. -/

theorem AnswersAlike.require {ok : Bool} {c : Cause} {k k' : Result} (hk : AnswersAlike i s s' k k') :
    AnswersAlike i s s' (require ok c s k) (require ok c s' k') := by
  cases ok with
  | false => exact .inl ⟨c, rfl, rfl⟩
  | true => exact hk

variable (h : Alike i s s')
include h

theorem Alike.readReg {r : Reg} {k k' : Word → Result}
    (hk : ∀ v, AnswersAlike i s s' (k v) (k' v)) (hr : r ∈ readsOf i := by decide) :
    AnswersAlike i s s' (readReg r s k) (readReg r s' k') := by
  have hget := h.regs r hr
  rcases readReg_cases r s k with ⟨v, hv, e⟩ | ⟨hn, e⟩ <;> rw [e]
  · rw [readReg_of_some k' (hget ▸ hv)]
    exact hk v
  · exact .inl ⟨.unwritten, rfl, readReg_of_none k' (hget ▸ hn)⟩

theorem Alike.requireAdmitted16 {b n : Word} {k k' : Result} (hk : AnswersAlike i s s' k k') :
    AnswersAlike i s s' (requireAdmitted16 b n s k) (requireAdmitted16 b n s' k') := by
  rw [Machine.requireAdmitted16, Machine.requireAdmitted16, h.params]
  exact hk.require

theorem Alike.requireAdmitted8 {b n : Word} {k k' : Result} (hk : AnswersAlike i s s' k k') :
    AnswersAlike i s s' (requireAdmitted8 b n s k) (requireAdmitted8 b n s' k') := by
  rw [Machine.requireAdmitted8, Machine.requireAdmitted8, h.params]
  exact hk.require

/-! The ends of a command are alike when they end on the same memory and result. -/

theorem Alike.finishDecode {d d' : Decoded} (hw : writesOf i = [.cp, .pos]) (hd : d = d') :
    AnswersAlike i s s' (finishDecode s d) (finishDecode s' d') := by
  subst hd
  refine .inr ⟨_, _, rfl, rfl, by simpa using h.status, by simpa using h.m16, by simpa using h.m8, ?_⟩
  simp [hw, State.get_set, -State.get_cp, -State.get_pos]

theorem Alike.setCnt {v : Word} (hw : writesOf i = [.cnt]) :
    AnswersAlike i s s' (.next (s.set .cnt v)) (.next (s'.set .cnt v)) := by
  refine .inr ⟨_, _, rfl, rfl, by simpa using h.status, by simpa using h.m16, by simpa using h.m8, ?_⟩
  simp only [hw, List.forall_mem_singleton, State.get_set_same]

theorem Alike.finishCount {rt rt' : Run × Nat} (hw : writesOf i = [.cnt]) (hrt : rt = rt') :
    AnswersAlike i s s' (finishCount s rt) (finishCount s' rt') := by
  subst hrt
  refine .inr ⟨_, _, rfl, rfl, by simpa using h.status, by simp, by simp, ?_⟩
  simp only [hw, List.forall_mem_singleton, State.get_set_same]

theorem Alike.finishMeasure {rt rt' : Run × Nat} (hw : writesOf i = [.cnt]) (hrt : rt = rt') :
    AnswersAlike i s s' (finishMeasure s rt) (finishMeasure s' rt') := by
  subst hrt
  exact (h.finishCount hw rfl).require

theorem Alike.endRun {r r' : Run} (hw : writesOf i = []) (hr : r = r') :
    AnswersAlike i s s' (.next (s.endRun r)) (.next (s'.endRun r')) := by
  subst hr
  refine .inr ⟨_, _, rfl, rfl, by simpa using h.status, by simp, by simp, ?_⟩
  simp [hw]

theorem Alike.lengthCommand {len : Word → Nat} (hr : .cp ∈ readsOf i) (hw : writesOf i = [.cnt]) :
    AnswersAlike i s s' (lengthCommand len s) (lengthCommand len s') :=
  h.readReg (fun _ => .require <| h.setCnt hw) hr

theorem Alike.startRun : s.startRun = s'.startRun := by
  simp only [State.startRun, h.m16, h.m8]

/-- A command reads its registers, makes its checks, and ends, alike at each of these. -/
theorem Alike.exec : AnswersAlike i s s' (exec i s) (exec i s') := by
  cases i with
  | dec16 =>
    exact h.readReg fun _ => h.readReg fun _ => h.readReg fun _ =>
      .require <| h.requireAdmitted16 <| h.finishDecode rfl (by rw [h.m16])
  | dec8 =>
    exact h.readReg fun _ => h.readReg fun _ => h.readReg fun _ =>
      .require <| h.requireAdmitted8 <| h.finishDecode rfl (by rw [h.m8, h.params])
  | enc16 =>
    exact h.readReg fun _ => h.readReg fun _ => h.readReg fun _ =>
      h.readReg fun _ => .require <| h.requireAdmitted16 <|
        h.finishCount rfl (by rw [h.startRun])
  | enc8 =>
    exact h.readReg fun _ => h.readReg fun _ => h.readReg fun _ =>
      h.readReg fun _ => .require <| h.requireAdmitted8 <|
        h.finishCount rfl (by rw [h.startRun])
  | encvis =>
    exact h.readReg fun _ => h.readReg fun _ => h.readReg fun _ =>
      h.readReg fun _ => .require <| h.requireAdmitted8 <|
        h.finishCount rfl (by rw [h.startRun, h.params])
  | len16 | len8 | lenvis => exact h.lengthCommand (by decide) rfl
  | fold =>
    exact h.readReg fun _ => h.readReg fun _ => h.requireAdmitted8 <|
      h.endRun rfl (by rw [h.startRun, h.params])
  | cvt16to8 =>
    exact h.readReg fun _ => h.readReg fun _ => h.readReg fun _ =>
      h.readReg fun _ => h.requireAdmitted16 <| h.requireAdmitted8 <|
        h.finishCount rfl (by rw [h.startRun])
  | cvt8to16 =>
    exact h.readReg fun _ => h.readReg fun _ => h.readReg fun _ =>
      h.readReg fun _ => h.requireAdmitted8 <| h.requireAdmitted16 <|
        h.finishCount rfl (by rw [h.startRun, h.params])
  | cvt8tovis =>
    exact h.readReg fun _ => h.readReg fun _ => h.readReg fun _ =>
      h.readReg fun _ => h.requireAdmitted8 <| h.requireAdmitted8 <| .require <|
        h.finishCount rfl (by rw [h.startRun, h.params])
  | cvt16to8M =>
    exact h.readReg fun _ => h.readReg fun _ => h.requireAdmitted16 <|
      h.finishMeasure rfl (by rw [h.startRun])
  | cvt8to16M =>
    exact h.readReg fun _ => h.readReg fun _ => h.requireAdmitted8 <|
      h.finishMeasure rfl (by rw [h.startRun, h.params])
  | cvt8tovisM =>
    exact h.readReg fun _ => h.readReg fun _ => h.requireAdmitted8 <|
      h.finishCount rfl (by rw [h.startRun, h.params])

end

/-- Settles O24: the two states are alike for the command, so it answers alike on them. -/
theorem commandsDependOnlyOnRegistersRead : Obligations.CommandsDependOnlyOnRegistersRead := by
  intro i s s' hregs hparams hstatus hm16 hm8
  have h : Alike i s s' := ⟨hregs, hparams, hstatus, hm16, hm8⟩
  rcases h.exec with ⟨c, e, e'⟩ | ⟨t, t', e, e', h0, h16, h8, hw⟩
  · exact ⟨_, _, e, e', congrArg (Status.record · c) hstatus, hm16, hm8, .inr ⟨c, rfl, rfl⟩⟩
  · exact ⟨t, t', e, e', h0, h16, h8, .inl hw⟩

end Sys2Proof.Machine
end

section
/-! Facts about the UTF-16 decoder (40_utf16_decoder.md): the five cases of R64 as an inversion of the
decode walk, and what DEC16 answers; with the proofs of the statements of 40_utf16_decoder.md. -/

namespace Sys2Proof.Machine

/-! ## Unit classes -/

theorem isSurrogate_iff (u : Unit16) :
    isSurrogate u = true ↔ 0xD800 ≤ u.toNat ∧ u.toNat ≤ 0xDFFF := by
  simp [isSurrogate]

theorem isHigh_iff (u : Unit16) : isHigh u = true ↔ 0xD800 ≤ u.toNat ∧ u.toNat ≤ 0xDBFF := by
  simp [isHigh]

theorem isLow_iff (u : Unit16) : isLow u = true ↔ 0xDC00 ≤ u.toNat ∧ u.toNat ≤ 0xDFFF := by
  simp [isLow]

/-! ## Scalar values -/

theorem scalarValue_iff (c : Word) :
    scalarValue c = true ↔ c.toNat ≤ maxCodepoint ∧ (c.toNat < 0xD800 ∨ 0xDFFF < c.toNat) := by
  simp [scalarValue]

/-- A unit outside the surrogate range is its own codepoint (R60). -/
theorem scalarValue_setWidth {u : Unit16} (h : u.toNat < 0xD800 ∨ 0xDFFF < u.toNat) :
    scalarValue (u.setWidth 32) = true := by
  have hu : (u.setWidth 32).toNat = u.toNat := BitVec.toNat_setWidth_of_le (by decide)
  rw [scalarValue_iff, maxCodepoint, hu]
  omega

theorem scalarValue_replacement : scalarValue replacement = true := by decide

/-- The range of R62: two ten-bit fields above 0xFFFF. -/
theorem scalarValue_combine (h l : Unit16) : scalarValue (combine h l) = true := by
  rw [scalarValue_iff, maxCodepoint, combine_toNat]
  omega

theorem combine_of_high_of_low {h l : Unit16} (hh : 0xD800 ≤ h.toNat ∧ h.toNat ≤ 0xDBFF)
    (hl : 0xDC00 ≤ l.toNat ∧ l.toNat ≤ 0xDFFF) :
    combine h l = BitVec.ofNat 32 ((h.toNat - 0xD800) * 1024 + (l.toNat - 0xDC00) + 0x10000) := by
  apply BitVec.eq_of_toNat_eq
  rw [combine_toNat, BitVec.toNat_ofNat]
  omega

/-! ## The decode walk -/

/-- The rows of R64's table (B, L, E, N and P): what the units at `p` and `p + 1` of a source of `n`
units yield. -/
inductive Utf16Outcome (rd : Nat → Unit16) (n p : Nat) : Decoded → Prop
  | bmp (h : (rd p).toNat < 0xD800 ∨ 0xDFFF < (rd p).toNat) :
      Utf16Outcome rd n p ⟨(rd p).setWidth 32, p, 1⟩
  | loneLow (h : 0xDC00 ≤ (rd p).toNat ∧ (rd p).toNat ≤ 0xDFFF) :
      Utf16Outcome rd n p ⟨replacement, p, 1⟩
  | highAtEnd (h : 0xD800 ≤ (rd p).toNat ∧ (rd p).toNat ≤ 0xDBFF) (hend : p + 1 = n) :
      Utf16Outcome rd n p ⟨replacement, p, 1⟩
  | highUnpaired (h : 0xD800 ≤ (rd p).toNat ∧ (rd p).toNat ≤ 0xDBFF) (hend : p + 1 ≠ n)
      (hnext : (rd (p + 1)).toNat < 0xDC00 ∨ 0xDFFF < (rd (p + 1)).toNat) :
      Utf16Outcome rd n p ⟨replacement, p, 2⟩
  | pair (h : 0xD800 ≤ (rd p).toNat ∧ (rd p).toNat ≤ 0xDBFF) (hend : p + 1 ≠ n)
      (hnext : 0xDC00 ≤ (rd (p + 1)).toNat ∧ (rd (p + 1)).toNat ≤ 0xDFFF) :
      Utf16Outcome rd n p ⟨combine (rd p) (rd (p + 1)), p + 1, 2⟩

section
variable {rd : Nat → Unit16} {n p : Nat} {d : Decoded}

/-- The row of R64 that applies is what the walk yields. -/
theorem Utf16Outcome.decode_eq (h : Utf16Outcome rd n p d) : utf16Decode rd n p = d := by
  simp only [utf16Decode, Bool.not_eq_true', ← Bool.not_eq_true, isSurrogate_iff, isHigh_iff,
    isLow_iff]
  cases h with
  | bmp => rw [if_pos (by omega)]
  | loneLow => rw [if_neg (by omega), if_pos (by omega)]
  | highAtEnd _ hend => rw [if_neg (by omega), if_neg (by omega), if_pos hend]
  | highUnpaired _ hend =>
    rw [if_neg (by omega), if_neg (by omega), if_neg hend, if_pos (by omega)]
  | pair _ hend =>
    rw [if_neg (by omega), if_neg (by omega), if_neg hend, if_neg (by omega)]

/-- One of the rows applies, whatever the source. -/
theorem exists_utf16Outcome (rd : Nat → Unit16) (n p : Nat) : ∃ d, Utf16Outcome rd n p d := by
  by_cases hs : (rd p).toNat < 0xD800 ∨ 0xDFFF < (rd p).toNat
  · exact ⟨_, .bmp hs⟩
  by_cases hlow : 0xDC00 ≤ (rd p).toNat
  · exact ⟨_, .loneLow (by omega)⟩
  have hhigh : 0xD800 ≤ (rd p).toNat ∧ (rd p).toNat ≤ 0xDBFF := by omega
  by_cases hend : p + 1 = n
  · exact ⟨_, .highAtEnd hhigh hend⟩
  by_cases hnext : 0xDC00 ≤ (rd (p + 1)).toNat ∧ (rd (p + 1)).toNat ≤ 0xDFFF
  · exact ⟨_, .pair hhigh hend hnext⟩
  · exact ⟨_, .highUnpaired hhigh hend (by omega)⟩

theorem utf16Decode_outcome (rd : Nat → Unit16) (n p : Nat) :
    Utf16Outcome rd n p (utf16Decode rd n p) := by
  obtain ⟨d, h⟩ := exists_utf16Outcome rd n p
  exact h.decode_eq ▸ h

theorem Utf16Outcome.last_bounds (h : Utf16Outcome rd n p d) (hp : p < n) :
    (p ≤ d.last ∧ d.last ≤ p + 1) ∧ d.last < n := by
  cases h <;> dsimp only <;> omega

theorem Utf16Outcome.units_bounds (h : Utf16Outcome rd n p d) (hp : p < n) :
    1 ≤ d.units ∧ d.units ≤ 2 ∧ p + d.units ≤ n := by
  cases h <;> dsimp only <;> omega

theorem Utf16Outcome.scalarValue_cp (h : Utf16Outcome rd n p d) : scalarValue d.cp = true := by
  cases h with
  | bmp h => exact scalarValue_setWidth h
  | loneLow | highAtEnd | highUnpaired => exact scalarValue_replacement
  | pair => exact scalarValue_combine _ _

/-- A row speaks only of the units its count counts. -/
theorem Utf16Outcome.congr {rd' : Nat → Unit16} (h : Utf16Outcome rd n p d)
    (heq : ∀ k, p ≤ k → k < p + d.units → rd' k = rd k) : Utf16Outcome rd' n p d := by
  have hunit : rd' p = rd p := heq p le_rfl (by cases h <;> simp)
  cases h with
  | bmp h => exact hunit ▸ .bmp (hunit ▸ h)
  | loneLow h => exact .loneLow (hunit ▸ h)
  | highAtEnd h hend => exact .highAtEnd (hunit ▸ h) hend
  | highUnpaired h hend hnext =>
    have hunit' : rd' (p + 1) = rd (p + 1) := heq _ (by omega) (by dsimp only; omega)
    exact .highUnpaired (hunit ▸ h) hend (hunit' ▸ hnext)
  | pair h hend hnext =>
    have hunit' : rd' (p + 1) = rd (p + 1) := heq _ (by omega) (by dsimp only; omega)
    exact hunit ▸ hunit' ▸ .pair (hunit ▸ h) hend (hunit' ▸ hnext)

end

/-- Settles O28: each clause is a fact about the rows of R64. -/
theorem utf16DecodeStaysInsideItsSource : Obligations.Utf16DecodeStaysInsideItsSource := by
  intro rd n p hp
  have h := utf16Decode_outcome rd n p
  obtain ⟨hlast, hlt⟩ := h.last_bounds hp
  exact ⟨hlast, hlt, h.scalarValue_cp, h.units_bounds hp, fun rd' heq => (h.congr heq).decode_eq⟩

/-! ## DEC16 -/

theorem toWord_toNat (v : Word) : toWord v.toNat = v := by
  rw [toWord, BitVec.ofNat_toNat, BitVec.setWidth_eq]

theorem toWord_toNat_add_one (v : Word) : toWord (v.toNat + 1) = v + 1#32 := by
  rw [toWord, BitVec.ofNat_add, ← toWord, toWord_toNat]

/-- DEC16 writes the codepoint and the index of the row of R64 that applies, and nothing else (R66). -/
theorem exec_dec16_of_outcome {s : State} {src n p c q : Word} {d : Decoded} (hsrc : s.src = some src)
    (hslen : s.slen = some n) (hpos : s.pos = some p) (hp : p.toNat < n.toNat)
    (hadm : admitted s.params.admit16 src.toNat n.toNat = true)
    (h : Utf16Outcome (source16 s.m16 src) n.toNat p.toNat d) (hc : d.cp = c)
    (hq : toWord d.last = q) : exec .dec16 s = .next { s with cp := some c, pos := some q } := by
  rw [← hc, ← hq, ← h.decode_eq]
  exact execDec16_completes hsrc hslen hpos hp hadm

/-- Settles O27: each clause names a row of R64, and DEC16 writes what that row yields. -/
theorem dec16HasFiveOutcomes : Obligations.Dec16HasFiveOutcomes := by
  rintro s src n p u v hsrc hslen hpos hp hadm rfl rfl
  have hexec {c q : Word} {d : Decoded} :=
    exec_dec16_of_outcome (c := c) (q := q) (d := d) hsrc hslen hpos hp hadm
  refine ⟨fun h => ?_, fun h => ?_, fun h hend => ?_, fun h hlt hnext => ?_, fun h hlt hnext => ?_⟩
  · exact hexec (.bmp h) rfl (toWord_toNat p)
  · exact hexec (.loneLow h) rfl (toWord_toNat p)
  · exact hexec (.highAtEnd h hend) rfl (toWord_toNat p)
  · exact hexec (.highUnpaired h hlt.ne hnext) rfl (toWord_toNat p)
  · exact hexec (.pair h hlt.ne hnext) (combine_of_high_of_low h hnext) (toWord_toNat_add_one p)

end Sys2Proof.Machine
end

section
/-! Facts about the UTF-8 decoder (41_utf8_decoder.md): the cases of R75 as an inversion of the decode
walk, and the bytes of case V as those the encoder makes; with the proofs of the statements of
41_utf8_decoder.md. -/

namespace Sys2Proof.Machine

/-! ## Leading and continuation bytes -/

/-- A continuation byte folded into the value (R73). -/
def foldContinuation (v : Word) (d : Byte) : Word := (v <<< 6) ||| (d.extractLsb' 0 6).setWidth 32

/-- The continuation byte that takes the six low bits of a value (43_utf8_encoder.md R96). -/
def continuationByte (t : Word) : Byte := 0x80#8 ||| (t.extractLsb' 0 6).setWidth 8

theorem isCont_iff (d : Byte) : isCont d = true ↔ 0x80 ≤ d.toNat ∧ d.toNat ≤ 0xBF := by
  rw [isCont_eq, decide_eq_true_eq]

theorem isCont_continuationByte (t : Word) : isCont (continuationByte t) = true := by
  rw [isCont_iff, continuationByte, continuationByte_toNat]
  omega

theorem foldContinuation_shiftRight {v : Word} (d : Byte) (hv : v.toNat < 2 ^ 26) :
    foldContinuation v d >>> 6 = v := by
  apply BitVec.eq_of_toNat_eq
  rw [BitVec.toNat_ushiftRight, foldContinuation, foldContinuation_toNat _ _ hv,
    Nat.shiftRight_eq_div_pow]
  omega

theorem continuationByte_foldContinuation {v : Word} {d : Byte} (hv : v.toNat < 2 ^ 26)
    (hd : isCont d = true) : continuationByte (foldContinuation v d) = d := by
  rw [isCont_iff] at hd
  apply BitVec.eq_of_toNat_eq
  rw [continuationByte, continuationByte_toNat, foldContinuation, foldContinuation_toNat _ _ hv]
  omega

theorem foldContinuation_continuationByte (t : Word) :
    foldContinuation (t >>> 6) (continuationByte t) = t := by
  have ht : (t >>> 6).toNat = t.toNat / 64 := by
    rw [BitVec.toNat_ushiftRight, Nat.shiftRight_eq_div_pow]
  apply BitVec.eq_of_toNat_eq
  rw [foldContinuation, foldContinuation_toNat _ _ (by omega), ht, continuationByte,
    continuationByte_toNat]
  omega

/-- The template and the value bits make up the leading byte again (R70, 43_utf8_encoder.md
R95). -/
theorem leadClass_eq_some {b : Byte} {len : Nat} {c : Word} (h : leadClass b = some (len, c)) :
    1 ≤ len ∧ len ≤ 4 ∧ c.toNat < 2 ^ 7 ∧ leadTemplate len ||| c.setWidth 8 = b := by
  obtain ⟨h1, h2, h3, h4⟩ := leadByte_toNat c
  rcases leadClass_cases b with ⟨hb, v, e, hv⟩ | ⟨hb, hb', v, e, hv⟩ | ⟨hb, hb', v, e, hv⟩ |
    ⟨hb, hb', v, e, hv⟩ | ⟨-, e⟩ <;> rw [e] at h <;> cases h <;>
    refine ⟨by omega, by omega, by omega, BitVec.eq_of_toNat_eq ?_⟩
  · rw [h1 (by omega), hv]
  · rw [h2 (by omega)]; omega
  · rw [h3 (by omega)]; omega
  · rw [h4 (by omega)]; omega

/-- `LeadClass` takes a template with fitting value bits apart again. -/
theorem leadClass_leadTemplate (c : Word) :
    (c.toNat < 128 → leadClass (leadTemplate 1 ||| c.setWidth 8) = some (1, c)) ∧
    (c.toNat < 32 → leadClass (leadTemplate 2 ||| c.setWidth 8) = some (2, c)) ∧
    (c.toNat < 16 → leadClass (leadTemplate 3 ||| c.setWidth 8) = some (3, c)) ∧
    (c.toNat < 8 → leadClass (leadTemplate 4 ||| c.setWidth 8) = some (4, c)) := by
  obtain ⟨h1, h2, h3, h4⟩ := leadByte_toNat c
  have hc : BitVec.ofNat 32 c.toNat = c := toWord_toNat c
  refine ⟨fun h => ?_, fun h => ?_, fun h => ?_, fun h => ?_⟩
  · rw [leadClass_eq, h1 h, if_pos (by omega), hc]
  · rw [leadClass_eq, h2 h, if_neg (by omega), if_neg (by omega), if_pos (by omega),
      Nat.add_sub_cancel_left, hc]
  · rw [leadClass_eq, h3 h, if_neg (by omega), if_neg (by omega), if_neg (by omega),
      if_pos (by omega), Nat.add_sub_cancel_left, hc]
  · rw [leadClass_eq, h4 h, if_neg (by omega), if_neg (by omega), if_neg (by omega),
      if_neg (by omega), if_pos (by omega), Nat.add_sub_cancel_left, hc]

/-- The leading byte of a scalar value announces its length, and carries the bits above those of its
continuation bytes. -/
theorem leadClass_leadByte {c : Word} (hc : scalarValue c = true) :
    leadClass (leadTemplate (utf8MinLen c) ||| (c >>> (6 * (utf8MinLen c - 1))).setWidth 8) =
      some (utf8MinLen c, c >>> (6 * (utf8MinLen c - 1))) := by
  have hmax : c.toNat ≤ 0x10FFFF := ((scalarValue_iff c).1 hc).1
  have hshift (k : Nat) : (c >>> k).toNat = c.toNat / 2 ^ k := by
    rw [BitVec.toNat_ushiftRight, Nat.shiftRight_eq_div_pow]
  obtain ⟨h1, h2, h3, h4⟩ := leadClass_leadTemplate (c >>> (6 * (utf8MinLen c - 1)))
  rcases utf8MinLen_cases c with ⟨e, hlt⟩ | ⟨e, -, hlt⟩ | ⟨e, -, hlt⟩ | ⟨e, -⟩ <;>
    rw [hshift, e] at h1 h2 h3 h4 <;> rw [e]
  · exact h1 (by omega)
  · exact h2 (by omega)
  · exact h3 (by omega)
  · exact h4 (by omega)

theorem announcedContinuations_of_some {b : Byte} {len : Nat} {c : Word}
    (h : leadClass b = some (len, c)) : announcedContinuations b = len - 1 := by
  rw [leadClass_eq] at h
  unfold announcedContinuations
  split_ifs at h ⊢ <;> cases h <;> omega

theorem announcedContinuations_of_none {b : Byte} (h : leadClass b = none) :
    announcedContinuations b = 0 := by
  rw [leadClass_eq] at h
  unfold announcedContinuations
  split_ifs at h ⊢ <;> rfl

/-! ## The bytes the encoder makes -/

theorem utf8Fill_append (len k : Nat) (t : Word) (made : List Byte) :
    utf8Fill len k t made = utf8Fill len k t [] ++ made := by
  induction k generalizing t made with
  | zero => rfl
  | succ k ih =>
    rw [utf8Fill, utf8Fill, ih, ih _ [_], List.append_assoc, List.singleton_append]

theorem utf8Fill_succ (len k : Nat) (t : Word) :
    utf8Fill len (k + 1) t [] = utf8Fill len k (t >>> 6) [] ++ [continuationByte t] :=
  utf8Fill_append len k (t >>> 6) [continuationByte t]

/-- The bytes of a source from index `p` on. -/
def bytesFrom (rd : Nat → Byte) (p m : Nat) : List Byte := (List.range' p m).map rd

theorem bytesFrom_succ (rd : Nat → Byte) (p m : Nat) :
    bytesFrom rd p (m + 1) = bytesFrom rd p m ++ [rd (p + m)] := by
  simp [bytesFrom, List.range'_concat]

theorem utf8Bytes_eq_bytesFrom_iff (c : Word) (rd : Nat → Byte) (p : Nat) :
    utf8Bytes c = bytesFrom rd p (utf8MinLen c) ↔
      ∀ k < utf8MinLen c, rd (p + k) = (utf8Bytes c).getD k 0 := by
  have hlen := utf8Bytes_length c
  constructor
  · intro h k hk
    rw [h]
    simp [bytesFrom, hk]
  · intro h
    refine List.ext_getElem (by simp [bytesFrom, hlen]) fun k hk _ => ?_
    rw [List.getElem_eq_getD (h := hk) 0, ← h k (hlen ▸ hk)]
    simp [bytesFrom]

/-! ## The decode walk -/

/-- The walk of `Utf8Decode` from `p` has read a leading byte that announces `len` bytes and accepted
the next `m` as continuation bytes, all below `n`; the value is `v` so far. -/
inductive Utf8Walk (rd : Nat → Byte) (n p len : Nat) : Nat → Word → Prop
  | lead {c : Word} (h : leadClass (rd p) = some (len, c)) (hp : p < n) : Utf8Walk rd n p len 0 c
  | cont {m : Nat} {v : Word} (h : Utf8Walk rd n p len m v) (hm : m + 1 < len)
      (hlt : p + m + 1 < n) (hcont : isCont (rd (p + m + 1)) = true) :
      Utf8Walk rd n p len (m + 1) (foldContinuation v (rd (p + m + 1)))

/-- Cases X, T, C and the three checks of R75, under which the walk ends in a substitution with `m`
continuation bytes accepted and `u` units read. -/
inductive Utf8Failure (rd : Nat → Byte) (n p : Nat) : Nat → Nat → Prop
  | badLead (h : leadClass (rd p) = none) (hp : p < n) : Utf8Failure rd n p 0 1
  | truncated {len m : Nat} {v : Word} (h : Utf8Walk rd n p len m v) (hm : m + 1 < len)
      (hend : n ≤ p + m + 1) : Utf8Failure rd n p m (m + 1)
  | interrupted {len m : Nat} {v : Word} (h : Utf8Walk rd n p len m v) (hm : m + 1 < len)
      (hlt : p + m + 1 < n) (hcont : isCont (rd (p + m + 1)) = false) :
      Utf8Failure rd n p m (m + 2)
  | rejected {m : Nat} {v : Word} (h : Utf8Walk rd n p (m + 1) m v)
      (hv : ¬ (utf8MinLen v = m + 1 ∧ scalarValue v = true)) : Utf8Failure rd n p m (m + 1)

/-- Case V of R75: the whole sequence is accepted and its value passes the checks. -/
structure Utf8Accepts (rd : Nat → Byte) (n p : Nat) (v : Word) : Prop where
  walk   : Utf8Walk rd n p (utf8MinLen v) (utf8MinLen v - 1) v
  scalar : scalarValue v = true

section
variable {rd rd' : Nat → Byte} {n p len m u : Nat} {v : Word}

theorem Utf8Walk.exists_leadClass (h : Utf8Walk rd n p len m v) :
    ∃ c, leadClass (rd p) = some (len, c) := by
  induction h with
  | lead h hp => exact ⟨_, h⟩
  | cont _ _ _ _ ih => exact ih

theorem Utf8Walk.bounds (h : Utf8Walk rd n p len m v) : m < len ∧ len ≤ 4 ∧ p + m < n := by
  obtain ⟨c, hlead⟩ := h.exists_leadClass
  obtain ⟨hpos, hle, -⟩ := leadClass_eq_some hlead
  cases h with
  | lead h hp => exact ⟨hpos, hle, hp⟩
  | cont h hm hlt hcont => exact ⟨hm, hle, hlt⟩

/-- Each accepted byte is a continuation byte. -/
theorem Utf8Walk.isCont_of_le (h : Utf8Walk rd n p len m v) {j : Nat} (hj : 1 ≤ j) (hjm : j ≤ m) :
    isCont (rd (p + j)) = true := by
  induction h with
  | lead h hp => omega
  | cont h hm hlt hcont ih =>
    rcases Nat.le_succ_iff.1 hjm with hle | rfl
    · exact ih hle
    · exact hcont

/-- Seven bits of the leading byte at most, and six of each continuation byte. -/
theorem Utf8Walk.value_lt (h : Utf8Walk rd n p len m v) : v.toNat < 2 ^ (7 + 6 * m) := by
  induction h with
  | lead h hp =>
    obtain ⟨-, -, hlt, -⟩ := leadClass_eq_some h
    exact hlt
  | @cont m v h hm hlt hcont ih =>
    have hb := h.bounds
    have hpow : 2 ^ (7 + 6 * m) ≤ 2 ^ 26 := Nat.pow_le_pow_right (by omega) (by omega)
    rw [foldContinuation, foldContinuation_toNat _ _ (by omega),
      show 7 + 6 * (m + 1) = 7 + 6 * m + 6 by ring, pow_add]
    omega

/-- Another byte still to come leaves room for its six bits. -/
theorem Utf8Walk.value_lt_of_lt (h : Utf8Walk rd n p len m v) (hm : m + 1 < len) :
    v.toNat < 2 ^ 26 :=
  have hb := h.bounds
  h.value_lt.trans_le (Nat.pow_le_pow_right (by omega) (by omega))

theorem Utf8Walk.congr (h : Utf8Walk rd n p len m v)
    (heq : ∀ k, p ≤ k → k ≤ p + m → rd' k = rd k) : Utf8Walk rd' n p len m v := by
  induction h with
  | lead h hp => exact .lead (by rwa [heq p le_rfl (by omega)]) hp
  | @cont m v h hm hlt hcont ih =>
    have hd : rd' (p + m + 1) = rd (p + m + 1) := heq _ (by omega) (by omega)
    exact hd ▸ .cont (ih fun k hk hk' => heq k hk (by omega)) hm hlt (hd ▸ hcont)

/-- What the walk has read is what the encoder makes of the value so far. -/
theorem Utf8Walk.utf8Fill_eq (h : Utf8Walk rd n p len m v) :
    utf8Fill len m v [] = bytesFrom rd p (m + 1) := by
  induction h with
  | lead h hp =>
    obtain ⟨-, -, -, hb⟩ := leadClass_eq_some h
    exact congrArg (· :: []) hb
  | cont h hm hlt hcont ih =>
    have hv := h.value_lt_of_lt hm
    rw [utf8Fill_succ, foldContinuation_shiftRight _ hv, continuationByte_foldContinuation hv hcont,
      ih, bytesFrom_succ _ _ (_ + 1), Nat.add_assoc p]

/-- The walk accepts the bytes the encoder makes of a value, and gets back the value. -/
theorem Utf8Walk.of_utf8Fill_eq (hfill : utf8Fill len m v [] = bytesFrom rd p (m + 1))
    (hlead : leadClass (leadTemplate len ||| (v >>> (6 * m)).setWidth 8) =
      some (len, v >>> (6 * m))) (hm : m < len) (hlt : p + m < n) : Utf8Walk rd n p len m v := by
  induction m generalizing v with
  | zero =>
    have hb : leadTemplate len ||| v.setWidth 8 = rd p := List.head_eq_of_cons_eq hfill
    exact .lead (hb ▸ hlead) hlt
  | succ m ih =>
    rw [utf8Fill_succ, bytesFrom_succ] at hfill
    obtain ⟨hinit, hlast⟩ := List.append_inj' hfill rfl
    have hd : continuationByte v = rd (p + m + 1) := List.head_eq_of_cons_eq hlast
    rw [Nat.mul_succ, Nat.add_comm, BitVec.shiftRight_add] at hlead
    have h := Utf8Walk.cont (ih hinit hlead (by omega) (by omega)) hm hlt
      (hd ▸ isCont_continuationByte v)
    rwa [← hd, foldContinuation_continuationByte] at h

/-- The decoder is in its loop with the walk's value and `k` bytes still to come. -/
theorem Utf8Walk.decode_eq (h : Utf8Walk rd n p len m v) (fp : FailPos) {k : Nat}
    (hk : m + k + 1 = len) :
    utf8Decode fp rd n p = utf8Continue fp rd n p len k (p + m) v := by
  induction h generalizing k with
  | lead h hp =>
    rw [utf8Decode, h]
    dsimp only
    rw [show len - 1 = k by omega, Nat.add_zero]
  | cont h hm hlt hcont ih =>
    rw [ih (k := k + 1) (by omega), utf8Continue, if_neg (by omega), if_neg (by simp [hcont])]
    rfl

/-! ## The end of a walk -/

theorem Utf8Failure.decode_eq (h : Utf8Failure rd n p m u) (fp : FailPos) :
    utf8Decode fp rd n p = ⟨replacement, failPosition fp p (p + m), u⟩ := by
  cases h with
  | badLead h hp =>
    rw [utf8Decode, h]
    cases fp <;> rfl
  | @truncated len _ _ h hm hend =>
    rw [h.decode_eq fp (k := len - m - 2 + 1) (by omega), utf8Continue, if_pos hend,
      Nat.add_sub_cancel_left]
  | @interrupted len m _ h hm hlt hcont =>
    rw [h.decode_eq fp (k := len - m - 2 + 1) (by omega), utf8Continue, if_neg (by omega),
      if_pos (by simp [hcont]), Nat.add_sub_cancel_left]
  | rejected h hv =>
    rw [h.decode_eq fp (k := 0) rfl, utf8Continue]
    rcases utf8Validate_cases fp p (m + 1) (p + m) _ with e | ⟨hlen, hscalar, -⟩
    · rw [e, Nat.add_sub_cancel_left]
    · exact absurd ⟨hlen, hscalar⟩ hv

theorem Utf8Accepts.decode_eq (h : Utf8Accepts rd n p v) (fp : FailPos) :
    utf8Decode fp rd n p = ⟨v, p + utf8MinLen v - 1, utf8MinLen v⟩ := by
  have hpos := utf8MinLen_pos v
  rw [h.walk.decode_eq fp (k := 0) (by omega), utf8Continue, utf8Validate_ok rfl h.scalar,
    Nat.add_sub_cancel_left, Nat.sub_add_cancel hpos, Nat.add_sub_assoc hpos]

/-- A walk goes on to one of the cases of R75. -/
theorem Utf8Walk.failure_or_accepts (h : Utf8Walk rd n p len m v) {k : Nat} (hk : m + k + 1 = len) :
    (∃ m u, Utf8Failure rd n p m u) ∨ ∃ v, Utf8Accepts rd n p v := by
  induction k generalizing m v with
  | zero =>
    obtain rfl : len = m + 1 := hk.symm
    by_cases hv : utf8MinLen v = m + 1 ∧ scalarValue v = true
    · obtain ⟨hlen, hscalar⟩ := hv
      exact .inr ⟨v, by rwa [hlen], hscalar⟩
    · exact .inl ⟨_, _, .rejected h hv⟩
  | succ k ih =>
    have hm : m + 1 < len := by omega
    by_cases hend : n ≤ p + m + 1
    · exact .inl ⟨_, _, .truncated h hm hend⟩
    · cases hcont : isCont (rd (p + m + 1)) with
      | false => exact .inl ⟨_, _, .interrupted h hm (by omega) hcont⟩
      | true => exact ih (.cont h hm (by omega) hcont) (by omega)

/-- One of the cases of R75 applies, whatever the source. -/
theorem utf8Failure_or_accepts (rd : Nat → Byte) (hp : p < n) :
    (∃ m u, Utf8Failure rd n p m u) ∨ ∃ v, Utf8Accepts rd n p v := by
  cases hlead : leadClass (rd p) with
  | none => exact .inl ⟨_, _, .badLead hlead hp⟩
  | some lc =>
    obtain ⟨hpos, -⟩ := leadClass_eq_some hlead
    exact (Utf8Walk.lead hlead hp).failure_or_accepts (k := lc.1 - 1) (by omega)

/-- Case V accepts exactly the bytes the encoder makes of a scalar value (R76, R77). -/
theorem utf8Accepts_iff :
    Utf8Accepts rd n p v ↔ scalarValue v = true ∧ p + utf8MinLen v ≤ n ∧
      ∀ k < utf8MinLen v, rd (p + k) = (utf8Bytes v).getD k 0 := by
  have hpos := utf8MinLen_pos v
  rw [← utf8Bytes_eq_bytesFrom_iff]
  constructor
  · rintro ⟨hwalk, hscalar⟩
    have hb := hwalk.bounds
    have hfill := hwalk.utf8Fill_eq
    rw [Nat.sub_add_cancel hpos] at hfill
    exact ⟨hscalar, by omega, hfill⟩
  · rintro ⟨hscalar, hle, hbytes⟩
    refine ⟨.of_utf8Fill_eq ?_ (leadClass_leadByte hscalar) (by omega) (by omega), hscalar⟩
    rwa [Nat.sub_add_cancel hpos]

/-- A source that holds the bytes of no scalar value is a failure. -/
theorem utf8Failure_of_forall_ne (hp : p < n)
    (h : ∀ c : Word, scalarValue c = true → p + utf8MinLen c ≤ n →
      ∃ k < utf8MinLen c, rd (p + k) ≠ (utf8Bytes c).getD k 0) :
    ∃ m u, Utf8Failure rd n p m u := by
  refine (utf8Failure_or_accepts rd hp).resolve_right ?_
  rintro ⟨v, hv⟩
  obtain ⟨hscalar, hle, hbytes⟩ := utf8Accepts_iff.1 hv
  obtain ⟨k, hk, hne⟩ := h v hscalar hle
  exact hne (hbytes k hk)

theorem Utf8Failure.bounds (h : Utf8Failure rd n p m u) :
    m ≤ 3 ∧ p + m < n ∧ m + 1 ≤ u ∧ u ≤ 4 ∧ p + u ≤ n := by
  cases h with
  | badLead => omega
  | truncated h | interrupted h | rejected h =>
    have := h.bounds
    omega

/-- The bytes accepted before a failure are continuation bytes. -/
theorem Utf8Failure.isCont_of_le (h : Utf8Failure rd n p m u) {j : Nat} (hj : 1 ≤ j) (hjm : j ≤ m) :
    isCont (rd (p + j)) = true := by
  cases h with
  | badLead => omega
  | truncated h | interrupted h | rejected h => exact h.isCont_of_le hj hjm

/-- A failed walk stops at the number of bytes announced, at the end of the source, or before a byte
that is no continuation byte (R75). -/
theorem Utf8Failure.stops (h : Utf8Failure rd n p m u) :
    m ≤ announcedContinuations (rd p) ∧
      (m = announcedContinuations (rd p) ∨ n ≤ p + m + 1 ∨ isCont (rd (p + m + 1)) = false) := by
  have hann {len : Nat} {v : Word} (h : Utf8Walk rd n p len m v) :
      announcedContinuations (rd p) = len - 1 :=
    have ⟨_, hlead⟩ := h.exists_leadClass
    announcedContinuations_of_some hlead
  cases h with
  | badLead h hp => simp [announcedContinuations_of_none h]
  | truncated h hm hend => exact ⟨by rw [hann h]; omega, .inr (.inl hend)⟩
  | interrupted h hm hlt hcont => exact ⟨by rw [hann h]; omega, .inr (.inr hcont)⟩
  | rejected h hv => simp [hann h]

/-- A failure speaks only of the units its count counts. -/
theorem Utf8Failure.congr (h : Utf8Failure rd n p m u)
    (heq : ∀ k, p ≤ k → k < p + u → rd' k = rd k) : Utf8Failure rd' n p m u := by
  cases h with
  | badLead h hp => exact .badLead (by rwa [heq p le_rfl (by omega)]) hp
  | truncated h hm hend => exact .truncated (h.congr fun k hk _ => heq k hk (by omega)) hm hend
  | interrupted h hm hlt hcont =>
    exact .interrupted (h.congr fun k hk _ => heq k hk (by omega)) hm hlt
      (by rwa [heq _ (by omega) (by omega)])
  | rejected h hv => exact .rejected (h.congr fun k hk _ => heq k hk (by omega)) hv

theorem Utf8Accepts.congr (h : Utf8Accepts rd n p v)
    (heq : ∀ k, p ≤ k → k < p + utf8MinLen v → rd' k = rd k) : Utf8Accepts rd' n p v :=
  have hpos := utf8MinLen_pos v
  ⟨h.walk.congr fun k hk _ => heq k hk (by omega), h.scalar⟩

/-- The bounds of R76: on the index, the codepoint and the units read. -/
structure Decoded.Inside (d : Decoded) (n p : Nat) : Prop where
  le_last   : p ≤ d.last
  last_le   : d.last ≤ p + 3
  last_lt   : d.last < n
  scalar    : scalarValue d.cp = true
  units_pos : 1 ≤ d.units
  units_le  : d.units ≤ 4
  units_end : p + d.units ≤ n

theorem failPosition_bounds (fp : FailPos) (p m : Nat) :
    p ≤ failPosition fp p (p + m) ∧ failPosition fp p (p + m) ≤ p + m := by
  cases fp <;> simp [failPosition]

theorem utf8Decode_inside (fp : FailPos) (rd : Nat → Byte) (hp : p < n) :
    (utf8Decode fp rd n p).Inside n p := by
  rcases utf8Failure_or_accepts rd hp with ⟨m, u, h⟩ | ⟨v, h⟩ <;> rw [h.decode_eq]
  · have hb := h.bounds
    have hf := failPosition_bounds fp p m
    refine ⟨?_, ?_, ?_, scalarValue_replacement, ?_, ?_, ?_⟩ <;> dsimp only <;> omega
  · have hb := h.walk.bounds
    refine ⟨?_, ?_, ?_, h.scalar, ?_, ?_, ?_⟩ <;> dsimp only <;> omega

theorem utf8Decode_congr_of_units (fp : FailPos) (hp : p < n)
    (heq : ∀ k, p ≤ k → k < p + (utf8Decode fp rd n p).units → rd' k = rd k) :
    utf8Decode fp rd' n p = utf8Decode fp rd n p := by
  rcases utf8Failure_or_accepts rd hp with ⟨m, u, h⟩ | ⟨v, h⟩ <;> rw [h.decode_eq] at heq ⊢
  · exact (h.congr heq).decode_eq fp
  · exact (h.congr heq).decode_eq fp

/-- The two settings of `P_UTF8_FAIL_POS` differ in the index alone, and only on a failure (R74). -/
theorem utf8Decode_lead_consumed (rd : Nat → Byte) (hp : p < n) :
    (utf8Decode .lead rd n p).cp = (utf8Decode .consumed rd n p).cp ∧
    (utf8Decode .lead rd n p).units = (utf8Decode .consumed rd n p).units ∧
    ((utf8Decode .lead rd n p).last = (utf8Decode .consumed rd n p).last ∨
      ((utf8Decode .lead rd n p).cp = replacement ∧ (utf8Decode .lead rd n p).last = p)) := by
  rcases utf8Failure_or_accepts rd hp with ⟨m, u, h⟩ | ⟨v, h⟩ <;> rw [h.decode_eq, h.decode_eq]
  · exact ⟨rfl, rfl, .inr ⟨rfl, rfl⟩⟩
  · exact ⟨rfl, rfl, .inl rfl⟩

end

/-- Settles O30: case V is the encoder's bytes, and any other case of R75 is a substitution. -/
theorem utf8DecodeAcceptsExactlyTheEncodersBytes :
    Obligations.Utf8DecodeAcceptsExactlyTheEncodersBytes := by
  intro fp rd n p hp
  refine ⟨fun c hc hle hbytes => (utf8Accepts_iff.2 ⟨hc, hle, hbytes⟩).decode_eq fp, fun hno => ?_⟩
  obtain ⟨m, u, h⟩ := utf8Failure_of_forall_ne hp hno
  rw [h.decode_eq]
  rfl

/-- Settles O31: each clause is a fact about the cases of R75. -/
theorem utf8DecodeStaysInsideItsSource : Obligations.Utf8DecodeStaysInsideItsSource := by
  intro rd n p hp
  obtain ⟨hcp, hunits, hlast⟩ := utf8Decode_lead_consumed rd hp
  refine ⟨hcp, hunits, hlast, fun hno => ?_, fun fp => ?_⟩
  · obtain ⟨m, u, h⟩ := utf8Failure_of_forall_ne hp hno
    obtain ⟨hle, hstop⟩ := h.stops
    have hb := h.bounds
    rw [h.decode_eq, h.decode_eq]
    refine ⟨rfl, m, hle, rfl, fun j hj hjm => ⟨by omega, ?_⟩, ?_⟩
    · exact (isCont_iff _).1 (h.isCont_of_le hj hjm)
    · rw [isCont_eq, decide_eq_false_iff_not] at hstop
      omega
  · have h := utf8Decode_inside fp rd hp
    exact ⟨⟨h.le_last, h.last_le⟩, h.last_lt, h.scalar, ⟨h.units_pos, h.units_le, h.units_end⟩,
      fun rd' heq => utf8Decode_congr_of_units fp hp heq⟩

/-! ## DEC8 -/

/-- Settles O29: the index lies below SLEN, so the word written to POS holds it exactly. -/
theorem dec8WritesWhatTheWalkYields : Obligations.Dec8WritesWhatTheWalkYields := by
  rintro s src n p d hsrc hslen hpos hp hadm rfl
  have hlt := (utf8Decode_inside s.params.failPos (source8 s.m8 src) hp).last_lt
  refine ⟨toWord _, ?_, execDec8_completes hsrc hslen hpos hp hadm⟩
  rw [toWord, BitVec.toNat_ofNat, Nat.mod_eq_of_lt (hlt.trans n.isLt)]

end Sys2Proof.Machine
end

section
/-! Facts about the encoders (42_utf16_encoder.md, 43_utf8_encoder.md): what an encoder with room leaves
in memory, and that the UTF-16 decoder reads the encoder's units back; with the proofs of the statements
of 42_utf16_encoder.md. -/

namespace Sys2Proof.Machine

/-! ## Lengths as register values -/

theorem toNat_toWord {n : Nat} (h : n < 2 ^ 32) : (toWord n).toNat = n := by
  rw [toWord, BitVec.toNat_ofNat, Nat.mod_eq_of_lt h]

theorem toWord_utf16Len (c : Word) :
    toWord (utf16Len c) = if c.toNat ≤ 0xFFFF then 1#32 else 2#32 :=
  apply_ite toWord _ _ _

theorem toWord_utf8MinLen (c : Word) : toWord (utf8MinLen c) =
    if c.toNat ≤ 0x7F then 1#32 else if c.toNat ≤ 0x7FF then 2#32
    else if c.toNat ≤ 0xFFFF then 3#32 else 4#32 := by
  unfold utf8MinLen
  split_ifs <;> rfl

/-! ## The units of a codepoint -/

theorem utf16Units_of_le {c : Word} (h : c.toNat ≤ 0xFFFF) :
    utf16Units c = [BitVec.ofNat 16 c.toNat] := by
  obtain ⟨hunits, hval⟩ := utf16Units_bmp h
  rw [hunits, ← hval, BitVec.ofNat_toNat, BitVec.setWidth_eq]

theorem utf16Units_of_lt {c : Word} (h : 0xFFFF < c.toNat) (hc : c.toNat ≤ maxCodepoint) :
    utf16Units c = [BitVec.ofNat 16 (0xD800 + (c.toNat - 0x10000) / 1024),
      BitVec.ofNat 16 (0xDC00 + (c.toNat - 0x10000) % 1024)] := by
  obtain ⟨hi, lo, hunits, hhi, hlo⟩ := utf16Units_pair h hc
  simp only [hunits, ← hhi, ← hlo, BitVec.ofNat_toNat, BitVec.setWidth_eq]

/-- Where a source holds the units of a scalar value, row B or row N of R64 applies and yields it
(42_utf16_encoder.md R90). -/
theorem utf16Outcome_of_units {rd : Nat → Unit16} {n p : Nat} {c : Word}
    (hc : scalarValue c = true) (hn : p + utf16Len c ≤ n)
    (hrd : ∀ k u, (utf16Units c)[k]? = some u → rd (p + k) = u) :
    Utf16Outcome rd n p ⟨c, p + utf16Len c - 1, utf16Len c⟩ := by
  obtain ⟨hmax, hsurr⟩ := (scalarValue_iff c).1 hc
  by_cases hbmp : c.toNat ≤ 0xFFFF
  · obtain ⟨hunits, hval⟩ := utf16Units_bmp hbmp
    have hlen : utf16Len c = 1 := if_pos hbmp
    have hread : rd p = c.extractLsb' 0 16 := hrd 0 _ (by rw [hunits]; rfl)
    have hcp : (rd p).setWidth 32 = c := by
      apply BitVec.eq_of_toNat_eq
      rw [BitVec.toNat_setWidth_of_le (by decide), hread, hval]
    rw [hlen, ← hcp]
    exact .bmp (by rwa [hread, hval])
  · obtain ⟨hi, lo, hunits, hhi, hlo⟩ := utf16Units_pair (Nat.lt_of_not_le hbmp) hmax
    have hlen : utf16Len c = 2 := if_neg hbmp
    have hread : rd p = hi := hrd 0 _ (by rw [hunits]; rfl)
    have hread' : rd (p + 1) = lo := hrd 1 _ (by rw [hunits]; rfl)
    rw [maxCodepoint] at hmax
    have hcp : combine (rd p) (rd (p + 1)) = c := by
      apply BitVec.eq_of_toNat_eq
      rw [combine_toNat, hread, hread', hhi, hlo]
      omega
    rw [hlen, ← hcp]
    exact .pair (by rw [hread, hhi]; omega) (by omega) (by rw [hread', hlo]; omega)

/-! ## What a space holds after the writes -/

theorem Holds.read_of_getElem? {w : Nat} {before after : Memory w} {a k : Nat}
    {us : List (BitVec w)} {u : BitVec w} (h : Holds before after a us) (hu : us[k]? = some u) :
    after.read (a + k) = u := by
  obtain ⟨hk, -⟩ := List.getElem?_eq_some_iff.1 hu
  rw [h, if_pos (by omega), Nat.add_sub_cancel_left, List.getD_eq_getElem?_getD, hu,
    Option.getD_some]

/-! ## ENC16 and ENC8 -/

theorem finishCount_of_m8_eq {s : State} {rt : Run × Nat} (h : rt.1.m8 = s.m8) :
    finishCount s rt = .next { s with m16 := rt.1.m16, cnt := some (toWord rt.2) } := by
  rw [finishCount, State.endRun, State.set_cnt_eq, h]

theorem finishCount_of_m16_eq {s : State} {rt : Run × Nat} (h : rt.1.m16 = s.m16) :
    finishCount s rt = .next { s with m8 := rt.1.m8, cnt := some (toWord rt.2) } := by
  rw [finishCount, State.endRun, State.set_cnt_eq, h]

section
variable {s : State} {c dst cap i : Word} (hcp : s.cp = some c) (hdst : s.dst = some dst)
  (hdcap : s.dcap = some cap) (hdidx : s.didx = some i) (hc : c.toNat ≤ maxCodepoint)
include hcp hdst hdcap hdidx hc

/-- ENC16 with room writes the codepoint's units at DST + DIDX and their number to CNT (R87). -/
theorem exec_enc16_of_fit (hadm : admitted s.params.admit16 dst.toNat cap.toNat = true)
    (hfit : i.toNat + utf16Len c ≤ cap.toNat) : ∃ m : Memory 16,
      exec .enc16 s = .next { s with m16 := m, cnt := some (toWord (utf16Len c)) } ∧
      Holds s.m16 m (dst.toNat + i.toNat) (utf16Units c) := by
  rw [← utf16Units_length] at hfit ⊢
  refine ⟨_, ?_, enc16At_holds _ _ _ _ s.startRun hfit⟩
  calc exec .enc16 s
    _ = finishCount s (enc16At dst.toNat cap.toNat c i.toNat s.startRun) :=
      execEnc16_completes hcp hdst hdcap hdidx hc hadm
    _ = _ := finishCount_of_m8_eq (by rw [enc16At_m8, State.startRun_m8])
    _ = _ := by rw [enc16At_fit _ _ _ _ _ hfit]

/-- ENC16 without room writes CNT = 0 alone (R87). -/
theorem exec_enc16_of_full (hadm : admitted s.params.admit16 dst.toNat cap.toNat = true)
    (hfull : cap.toNat < i.toNat + utf16Len c) :
    exec .enc16 s = .next { s with cnt := some 0#32 } := by
  rw [← utf16Units_length] at hfull
  have hexec : exec .enc16 s = _ := execEnc16_completes hcp hdst hdcap hdidx hc hadm
  rw [hexec, enc16At_skip _ _ _ _ _ hfull]
  rfl

/-- ENC8 with room writes the codepoint's bytes at DST + DIDX and their number to CNT
(43_utf8_encoder.md R97). -/
theorem exec_enc8_of_fit (hadm : admitted s.params.admit8 dst.toNat cap.toNat = true)
    (hfit : i.toNat + utf8MinLen c ≤ cap.toNat) : ∃ m : Memory 8,
      exec .enc8 s = .next { s with m8 := m, cnt := some (toWord (utf8MinLen c)) } ∧
      Holds s.m8 m (dst.toNat + i.toNat) (utf8Bytes c) := by
  rw [← utf8Bytes_length] at hfit ⊢
  refine ⟨_, ?_, enc8At_holds _ _ _ _ s.startRun hfit⟩
  calc exec .enc8 s
    _ = finishCount s (enc8At dst.toNat cap.toNat c i.toNat s.startRun) :=
      execEnc8_completes hcp hdst hdcap hdidx hc hadm
    _ = _ := finishCount_of_m16_eq (by rw [enc8At_m16, State.startRun_m16])
    _ = _ := by rw [enc8At_fit _ _ _ _ _ hfit]

end

/-- Settles O39: the units ENC16 wrote are where DEC16 reads, so row B or N of R64 yields the
codepoint. -/
theorem enc16ThenDec16GivesBackTheCodepoint : Obligations.Enc16ThenDec16GivesBackTheCodepoint := by
  intro s t u c dst cap i n hcp hdst hdcap hdidx hc hadm hfit hexec hmem hsrc hslen hpos hin hadm'
  obtain ⟨m, hexec', hholds⟩ :=
    exec_enc16_of_fit hcp hdst hdcap hdidx ((scalarValue_iff c).1 hc).1 hadm hfit
  obtain rfl : t = _ := Host.Outcome.next.inj (hexec.symm.trans hexec')
  have hread : ∀ k v, (utf16Units c)[k]? = some v → source16 u.m16 dst (i.toNat + k) = v := by
    intro k v hv
    rw [source16, hmem, ← Nat.add_assoc]
    exact hholds.read_of_getElem? hv
  have hlt : i.toNat < n.toNat := by have := utf16Len_pos c; omega
  exact exec_dec16_of_outcome hsrc hslen hpos hlt hadm' (utf16Outcome_of_units hc hin hread) rfl rfl

/-- Settles O33: with room for the codepoint's one or two units, or without. -/
theorem enc16WritesUnitsOrNothing : Obligations.Enc16WritesUnitsOrNothing := by
  intro s c dst cap i hcp hdst hdcap hdidx hc hadm
  refine ⟨fun hbmp hfit => ?_, fun hpair hfit => ?_, fun hfull => ?_⟩
  · have hlen : utf16Len c = 1 := if_pos hbmp
    obtain ⟨m, hexec, hholds⟩ :=
      exec_enc16_of_fit hcp hdst hdcap hdidx hc hadm (by rwa [hlen])
    rw [hlen] at hexec
    exact ⟨_, hexec, rfl, utf16Units_of_le hbmp ▸ hholds⟩
  · have hlen : utf16Len c = 2 := if_neg hpair.not_ge
    obtain ⟨m, hexec, hholds⟩ :=
      exec_enc16_of_fit hcp hdst hdcap hdidx hc hadm (by rwa [hlen])
    rw [hlen] at hexec
    exact ⟨_, hexec, rfl, utf16Units_of_lt hpair hc ▸ hholds⟩
  · exact exec_enc16_of_full hcp hdst hdcap hdidx hc hadm hfull

/-- Settles O35: the count both commands write is the length of the units written. -/
theorem encodersWriteAsManyUnitsAsTheirLengthsCount :
    Obligations.EncodersWriteAsManyUnitsAsTheirLengthsCount := by
  intro s c hcp hc
  have h16 := utf16Len_le c
  have h8 := utf8MinLen_le c
  refine ⟨⟨toWord (utf16Len c), toNat_toWord (by omega), execLen16_completes hcp hc,
      utf16Units_length c, fun dst cap i hdst hdcap hdidx hadm hfit => ?_⟩,
    ⟨toWord (utf8MinLen c), toNat_toWord (by omega), execLen8_completes hcp hc,
      utf8Bytes_length c, fun dst cap i hdst hdcap hdidx hadm hfit => ?_⟩⟩
  · obtain ⟨m, hexec, hholds⟩ := exec_enc16_of_fit hcp hdst hdcap hdidx hc hadm hfit
    exact ⟨{ s with m16 := m }, hexec, hholds⟩
  · obtain ⟨m, hexec, hholds⟩ := exec_enc8_of_fit hcp hdst hdcap hdidx hc hadm hfit
    exact ⟨{ s with m8 := m }, hexec, hholds⟩

/-- Settles O32: each length command completes with its length as a register value. -/
theorem lengthCommandsCount : Obligations.LengthCommandsCount := by
  intro s c hcp hc
  rw [← toWord_utf16Len, ← toWord_utf8MinLen]
  exact ⟨execLen16_completes hcp hc, execLen8_completes hcp hc, execLenvis_completes hcp hc⟩

end Sys2Proof.Machine
end

section
/-! Facts about the UTF-8 encoder (43_utf8_encoder.md): the bytes of a codepoint as numbers, and what
ENC8 and DEC8 answer; with the proofs of the statements of 43_utf8_encoder.md. -/

namespace Sys2Proof.Machine

/-! ## The bytes of a codepoint as numbers -/

theorem toNat_shiftRight_six (t : Word) : (t >>> 6).toNat = t.toNat / 64 := by
  rw [BitVec.toNat_ushiftRight, Nat.shiftRight_eq_div_pow]

theorem map_toNat_utf8Fill_zero (len : Nat) (t : Word) :
    (utf8Fill len 0 t []).map BitVec.toNat = [(leadTemplate len ||| t.setWidth 8).toNat] := rfl

/-- The last byte takes the six low bits, and the bytes before it take the rest (R96). -/
theorem map_toNat_utf8Fill_succ (len k : Nat) (t : Word) :
    (utf8Fill len (k + 1) t []).map BitVec.toNat =
      (utf8Fill len k (t >>> 6) []).map BitVec.toNat ++ [0x80 + t.toNat % 64] := by
  rw [utf8Fill_succ, List.map_append, List.map_singleton, continuationByte, continuationByte_toNat]

/-- Settles O36: one case per length, the leading byte being what the shifts leave of the codepoint. -/
theorem utf8BytesFollowTheTemplates : Obligations.Utf8BytesFollowTheTemplates := by
  intro c hmax
  obtain ⟨h1, -, -, -⟩ := leadByte_toNat c
  obtain ⟨-, h2, -, -⟩ := leadByte_toNat (c >>> 6)
  obtain ⟨-, -, h3, -⟩ := leadByte_toNat (c >>> 6 >>> 6)
  obtain ⟨-, -, -, h4⟩ := leadByte_toNat (c >>> 6 >>> 6 >>> 6)
  simp only [toNat_shiftRight_six, Nat.div_div_eq_div_mul, Nat.reduceMul] at h2 h3 h4
  rw [utf8Bytes]
  rcases utf8MinLen_cases c with ⟨e, hle⟩ | ⟨e, hlt, hle⟩ | ⟨e, hlt, hle⟩ | ⟨e, hlt⟩ <;>
    simp only [e, Nat.add_one_sub_one, map_toNat_utf8Fill_succ, map_toNat_utf8Fill_zero,
      toNat_shiftRight_six, Nat.div_div_eq_div_mul, Nat.reduceMul]
  · rw [if_pos hle, h1 (by omega)]
  · rw [if_neg (by omega), if_pos hle, h2 (by omega)]
    rfl
  · rw [if_neg (by omega), if_neg (by omega), if_pos hle, h3 (by omega)]
    rfl
  · rw [if_neg (by omega), if_neg (by omega), if_neg (by omega), h4 (by omega)]
    rfl

/-! ## ENC8 and DEC8 -/

/-- ENC8 without room writes CNT = 0 alone (R97). -/
theorem exec_enc8_of_full {s : State} {c dst cap i : Word} (hcp : s.cp = some c)
    (hdst : s.dst = some dst) (hdcap : s.dcap = some cap) (hdidx : s.didx = some i)
    (hc : c.toNat ≤ maxCodepoint) (hadm : admitted s.params.admit8 dst.toNat cap.toNat = true)
    (hfull : cap.toNat < i.toNat + utf8MinLen c) :
    exec .enc8 s = .next { s with cnt := some 0#32 } := by
  rw [← utf8Bytes_length] at hfull
  have hexec : exec .enc8 s = _ := execEnc8_completes hcp hdst hdcap hdidx hc hadm
  rw [hexec, enc8At_skip _ _ _ _ _ hfull]
  rfl

/-- In case V of 41_utf8_decoder.md R75, DEC8 writes the codepoint and the index of its last byte, and
nothing else, under either setting of `P_UTF8_FAIL_POS`. -/
theorem exec_dec8_of_accepts {s : State} {src n p c : Word} (hsrc : s.src = some src)
    (hslen : s.slen = some n) (hpos : s.pos = some p) (hp : p.toNat < n.toNat)
    (hadm : admitted s.params.admit8 src.toNat n.toNat = true)
    (h : Utf8Accepts (source8 s.m8 src) n.toNat p.toNat c) :
    exec .dec8 s = .next { s with
      cp := some c, pos := some (toWord (p.toNat + utf8MinLen c - 1)) } := by
  have hexec : exec .dec8 s = _ := execDec8_completes hsrc hslen hpos hp hadm
  rw [hexec, h.decode_eq]
  rfl

/-- Where a space holds the bytes of a scalar value below the end of the source, case V of
41_utf8_decoder.md R75 applies and yields it (R100). -/
theorem Holds.utf8Accepts {before m : Memory 8} {src c : Word} {n p : Nat}
    (h : Holds before m (src.toNat + p) (utf8Bytes c)) (hc : scalarValue c = true)
    (hn : p + utf8MinLen c ≤ n) : Utf8Accepts (source8 m src) n p c := by
  refine utf8Accepts_iff.2 ⟨hc, hn, fun k hk => ?_⟩
  rw [← utf8Bytes_length] at hk
  rw [source8, ← Nat.add_assoc, h.read_of_getElem? (List.getElem?_eq_getElem hk),
    List.getElem_eq_getD]

/-- Settles O40: the bytes ENC8 wrote are where DEC8 reads, so case V of the decoder's R75 yields the
codepoint. -/
theorem enc8ThenDec8GivesBackTheCodepoint : Obligations.Enc8ThenDec8GivesBackTheCodepoint := by
  intro s t u c dst cap i n hcp hdst hdcap hdidx hc hadm hfit hexec hmem hsrc hslen hpos hin hadm'
  obtain ⟨m, hexec', hholds⟩ :=
    exec_enc8_of_fit hcp hdst hdcap hdidx ((scalarValue_iff c).1 hc).1 hadm hfit
  obtain rfl : t = _ := Host.Outcome.next.inj (hexec.symm.trans hexec')
  obtain rfl : u.m8 = m := hmem
  have hlt : i.toNat < n.toNat := by have := utf8MinLen_pos c; omega
  exact exec_dec8_of_accepts hsrc hslen hpos hlt hadm' (hholds.utf8Accepts hc hin)

/-- Settles O34: with room for the codepoint's bytes, or without. -/
theorem enc8WritesBytesOrNothing : Obligations.Enc8WritesBytesOrNothing := by
  intro s c dst cap i hcp hdst hdcap hdidx hc hadm
  refine ⟨fun hfit => ?_, exec_enc8_of_full hcp hdst hdcap hdidx hc hadm⟩
  obtain ⟨m, hexec, hholds⟩ := exec_enc8_of_fit hcp hdst hdcap hdidx hc hadm hfit
  exact ⟨_, hexec, rfl, utf8Bytes_length c, hholds⟩

end Sys2Proof.Machine
end

section
/-! Facts about the VISCII encoder (44_viscii_encoder.md): the rows of a conforming table, the three cases
of the byte of a codepoint, and what ENCVIS answers; with the proofs of the statements of
44_viscii_encoder.md. -/

namespace Sys2Proof

/-! ## The rows of a conforming table -/

/-- No two rows of a conforming table have one codepoint (R112). -/
theorem EncTable.nodup_codepoints (tab : EncTable) :
    (tab.rows.map fun r => r.cp.toNat).Nodup := by
  have h := tab.conforms
  simp only [encRowsConform, Bool.and_eq_true] at h
  obtain ⟨⟨⟨-, hdistinct⟩, -⟩, -⟩ := h
  exact Machine.nodup_of_distinctKeys _ hdistinct

/-- A conforming table holds the row the source gives (R105). -/
theorem EncTable.sourceRow_mem (tab : EncTable) : ⟨0x1EC7#32, 0xAE#8⟩ ∈ tab.rows := by
  have h := tab.conforms
  simp only [encRowsConform, Bool.and_eq_true] at h
  obtain ⟨-, hsource⟩ := h
  exact List.contains_iff_mem.1 hsource

end Sys2Proof

namespace Sys2Proof.Machine

/-! ## The byte of a codepoint -/

section
variable {tab : EncTable}

/-- The table comes first, so the passthrough does not apply to a codepoint of the table (R107). -/
theorem visByte_of_mem {row : EncRow} (h : row ∈ tab.rows) : visByte tab row.cp = row.byte := by
  rw [visByte, visLookup_of_mem tab.nodup_codepoints h]

theorem visByte_of_not_mem {c : Word} (h : ∀ row ∈ tab.rows, row.cp ≠ c) :
    visByte tab c = if c.toNat < 0xFF then c.extractLsb' 0 8 else 0x3F#8 := by
  rw [visByte, visLookup_of_not_mem h]

end

/-- Settles O38: a table has at most one row for a codepoint, so the first is the only one, and a
passthrough codepoint is its own low byte. -/
theorem visByteIsTableThenPassthroughThenQuestionMark :
    Obligations.VisByteIsTableThenPassthroughThenQuestionMark := by
  intro tab c
  refine ⟨?_, fun hrow hlt => ?_, fun hrow hge => ?_, visByte_of_mem tab.sourceRow_mem⟩
  · rintro row hmem rfl
    exact visByte_of_mem hmem
  · rw [visByte_of_not_mem hrow, if_pos hlt, BitVec.extractLsb'_toNat, Nat.shiftRight_zero]
    exact Nat.mod_eq_of_lt (by omega)
  · rw [visByte_of_not_mem hrow, if_neg hge.not_gt]

/-! ## ENCVIS -/

section
variable {s : State} {c dst cap i : Word} (hcp : s.cp = some c) (hdst : s.dst = some dst)
  (hdcap : s.dcap = some cap) (hdidx : s.didx = some i) (hc : c.toNat ≤ maxCodepoint)
  (hadm : admitted s.params.admit8 dst.toNat cap.toNat = true)
include hcp hdst hdcap hdidx hc hadm

/-- ENCVIS with room writes the codepoint's byte at DST + DIDX and 1 to CNT (R108). -/
theorem exec_encvis_of_fit (hfit : i.toNat < cap.toNat) : ∃ m : Memory 8,
    exec .encvis s = .next { s with m8 := m, cnt := some 1#32 } ∧
    Holds s.m8 m (dst.toNat + i.toNat) (visUnits s.params.encTable c) := by
  refine ⟨_, ?_, encVisAt_holds _ _ _ _ _ s.startRun hfit⟩
  calc exec .encvis s
    _ = finishCount s (encVisAt s.params.encTable dst.toNat cap.toNat c i.toNat s.startRun) :=
      execEncvis_completes hcp hdst hdcap hdidx hc hadm
    _ = _ := finishCount_of_m16_eq (by rw [encVisAt_m16, State.startRun_m16])
    _ = _ := by rw [encVisAt_fit _ _ _ _ _ _ hfit, toWord]

/-- ENCVIS without room writes CNT = 0 alone (R108). -/
theorem exec_encvis_of_full (hfull : cap.toNat ≤ i.toNat) :
    exec .encvis s = .next { s with cnt := some 0#32 } := by
  have hexec : exec .encvis s = _ := execEncvis_completes hcp hdst hdcap hdidx hc hadm
  rw [hexec, encVisAt_skip _ _ _ _ _ _ (Nat.lt_succ_of_le hfull)]
  rfl

end

/-- Settles O37: with room for the codepoint's one byte, or without. -/
theorem encvisWritesOneByteOrNothing : Obligations.EncvisWritesOneByteOrNothing := by
  intro s c dst cap i hcp hdst hdcap hdidx hc hadm
  refine ⟨fun hfit => ?_, exec_encvis_of_full hcp hdst hdcap hdidx hc hadm⟩
  obtain ⟨m, hexec, hholds⟩ := exec_encvis_of_fit hcp hdst hdcap hdidx hc hadm hfit
  exact ⟨_, hexec, rfl, hholds⟩

end Sys2Proof.Machine
end

section
/-! Facts about the case folder (45_case_folder.md): the rows of a conforming table, the three cases of a
folded byte, what FOLD's pass reads and when it writes nothing, and what FOLD answers; with the proofs of
the statements of 45_case_folder.md. -/

namespace Sys2Proof

/-! ## The rows of a conforming table -/

/-- No two rows of a conforming table have one lower byte (R124). -/
theorem CaseTable.nodup_lowerBytes (tab : CaseTable) :
    (tab.rows.map fun r => r.lower.toNat).Nodup := by
  have h := tab.conforms
  simp only [caseRowsConform, Bool.and_eq_true] at h
  obtain ⟨⟨-, hdistinct⟩, -⟩ := h
  exact Machine.nodup_of_distinctKeys _ hdistinct

/-- A conforming table holds the row the source gives (R120). -/
theorem CaseTable.sourceRow_mem (tab : CaseTable) : ⟨0x8E#8, 0xAE#8⟩ ∈ tab.rows := by
  have h := tab.conforms
  simp only [caseRowsConform, Bool.and_eq_true] at h
  obtain ⟨-, hsource⟩ := h
  exact List.contains_iff_mem.1 hsource

end Sys2Proof

namespace Sys2Proof.Machine

/-! ## The folded value of a byte -/

section
variable {tab : CaseTable} {b : Byte}

theorem foldByte_of_ascii (h : 0x61 ≤ b.toNat) (h' : b.toNat ≤ 0x7A) :
    foldByte tab b = b - 0x20#8 := by
  rw [foldByte, if_pos ⟨h, h'⟩]

theorem foldByte_toNat_of_ascii (h : 0x61 ≤ b.toNat) (h' : b.toNat ≤ 0x7A) :
    (foldByte tab b).toNat = b.toNat - 0x20 := by
  have hle : 0x20#8 ≤ b := BitVec.le_def.2 (Nat.le_trans (by decide) h)
  rw [foldByte_of_ascii h h', BitVec.toNat_sub_of_le hle, BitVec.toNat_ofNat]

theorem foldByte_of_mem {row : CaseRow} (hascii : row.lower.toNat < 0x61 ∨ 0x7A < row.lower.toNat)
    (hrow : row ∈ tab.rows) : foldByte tab row.lower = row.upper := by
  rw [foldByte, if_neg (by omega), caseLookup_of_mem tab.nodup_lowerBytes hrow]

theorem foldByte_of_not_mem (hascii : b.toNat < 0x61 ∨ 0x7A < b.toNat)
    (hrow : ∀ row ∈ tab.rows, row.lower ≠ b) : foldByte tab b = b := by
  rw [foldByte, if_neg (by omega), caseLookup_of_not_mem hrow]

end

/-- Settles O41: a table has at most one row for a lower byte, so the first is the only one. -/
theorem foldByteIsAsciiThenTable : Obligations.FoldByteIsAsciiThenTable := by
  intro tab b
  refine ⟨foldByte_toNat_of_ascii, fun hascii => ⟨?_, foldByte_of_not_mem hascii⟩,
    foldByte_of_mem (by decide) tab.sourceRow_mem⟩
  rintro row hrow rfl
  exact foldByte_of_mem hascii hrow

/-- The three conditions of R125: a folded byte is then no letter a..z and no lower byte of the table. -/
theorem foldByte_foldByte_of_disjoint {tab : CaseTable}
    (hupper : ∀ row ∈ tab.rows, row.upper.toNat < 0x61 ∨ 0x7A < row.upper.toNat)
    (hdisjoint : ∀ row ∈ tab.rows, ∀ row' ∈ tab.rows, row.upper ≠ row'.lower)
    (hlower : ∀ row ∈ tab.rows, row.lower.toNat < 0x41 ∨ 0x5A < row.lower.toNat) (b : Byte) :
    foldByte tab (foldByte tab b) = foldByte tab b := by
  by_cases hascii : b.toNat < 0x61 ∨ 0x7A < b.toNat
  · by_cases hrow : ∃ row ∈ tab.rows, row.lower = b
    · obtain ⟨row, hrow, rfl⟩ := hrow
      rw [foldByte_of_mem hascii hrow]
      exact foldByte_of_not_mem (hupper row hrow) fun row' h' => (hdisjoint row hrow row' h').symm
    · have hfixed : foldByte tab b = b :=
        foldByte_of_not_mem hascii fun row h e => hrow ⟨row, h, e⟩
      rw [hfixed, hfixed]
  · have hletter : (foldByte tab b).toNat = b.toNat - 0x20 :=
      foldByte_toNat_of_ascii (by omega) (by omega)
    refine foldByte_of_not_mem (by omega) fun row hrow e => ?_
    have hrange := hlower row hrow
    rw [e] at hrange
    omega

/-! ## FOLD's pass -/

/-- Each turn folds its own byte, before any other turn reads or writes it (R123). -/
theorem foldPass_read (tab : CaseTable) (k a : Nat) (r : Run) (x : Nat) :
    (foldPass tab k a r).m8.read x =
      if a ≤ x ∧ x < a + k then foldByte tab (r.m8.read x) else r.m8.read x := by
  induction k generalizing a r with
  | zero => rw [foldPass, if_neg (by omega)]
  | succ k ih =>
    rw [foldPass, ih, foldAt_read]
    by_cases hx : x = a
    · rw [if_neg (by omega), if_pos hx, if_pos (by omega)]
    · rw [if_neg hx]
      exact if_congr (by omega) rfl rfl

/-- A byte that is its own folded value is not written back (R123). -/
theorem foldAt_m8_of_fixed {tab : CaseTable} {a : Nat} {r : Run}
    (h : foldByte tab (r.m8.read a) = r.m8.read a) : (foldAt tab a r).m8 = r.m8 := by
  rw [foldAt, if_neg (not_not.2 h), Run.countReads_m8]

theorem foldPass_m8_of_fixed {tab : CaseTable} (k a : Nat) (r : Run)
    (h : ∀ x, a ≤ x → x < a + k → foldByte tab (r.m8.read x) = r.m8.read x) :
    (foldPass tab k a r).m8 = r.m8 := by
  induction k generalizing a r with
  | zero => rfl
  | succ k ih =>
    have hfirst : (foldAt tab a r).m8 = r.m8 := foldAt_m8_of_fixed (h a (le_refl a) (by omega))
    rw [foldPass, ih, hfirst]
    intro x h1 h2
    rw [hfirst]
    exact h x (by omega) (by omega)

/-! ## FOLD -/

/-! The faults of FOLD, in the order of its checks (R122). -/

theorem exec_fold_of_src_unwritten {s : State} (hsrc : s.src = none) :
    exec .fold s = raiseFault .unwritten s :=
  readReg_of_none (r := .src) _ hsrc

theorem exec_fold_of_slen_unwritten {s : State} {src : Word} (hsrc : s.src = some src)
    (hslen : s.slen = none) : exec .fold s = raiseFault .unwritten s :=
  calc exec .fold s
    _ = _ := readReg_of_some (r := .src) _ hsrc
    _ = _ := readReg_of_none (r := .slen) _ hslen

theorem exec_fold_of_not_admitted {s : State} {src n : Word} (hsrc : s.src = some src)
    (hslen : s.slen = some n) (hadm : admitted s.params.admit8 src.toNat n.toNat = false) :
    exec .fold s = raiseFault .access s :=
  calc exec .fold s
    _ = _ := readReg_of_some (r := .src) _ hsrc
    _ = _ := readReg_of_some (r := .slen) _ hslen
    _ = _ := by rw [requireAdmitted8, hadm, require_false]

/-- FOLD raises one fault, whatever STATUS holds, or its buffer is written and admitted. -/
theorem exec_fold_faults_or_admitted (s : State) :
    (∃ c, ∀ st, exec .fold { s with status := st } = raiseFault c { s with status := st }) ∨
    ∃ src n, s.src = some src ∧ s.slen = some n ∧
      admitted s.params.admit8 src.toNat n.toNat = true := by
  cases s.src with
  | none => exact .inl ⟨.unwritten, fun _ => exec_fold_of_src_unwritten rfl⟩
  | some src =>
    cases s.slen with
    | none => exact .inl ⟨.unwritten, fun _ => exec_fold_of_slen_unwritten rfl rfl⟩
    | some n =>
      cases hadm : admitted s.params.admit8 src.toNat n.toNat with
      | false => exact .inl ⟨.access, fun _ => exec_fold_of_not_admitted rfl rfl hadm⟩
      | true => exact .inr ⟨src, n, rfl, rfl, hadm⟩

/-! FOLD on an admitted buffer. -/

section
variable {s : State} {src n : Word} (hsrc : s.src = some src) (hslen : s.slen = some n)
  (hadm : admitted s.params.admit8 src.toNat n.toNat = true)
include hsrc hslen hadm

/-- FOLD changes M8 alone, to what its pass leaves (R122). -/
theorem exec_fold_of_admitted : exec .fold s = .next { s with
    m8 := (foldPass s.params.caseTable n.toNat src.toNat s.startRun).m8 } := by
  have hexec : exec .fold s = _ := execFold_completes hsrc hslen hadm
  rw [hexec, State.endRun, foldPass_m16, State.startRun_m16]

/-- FOLD on folded bytes changes nothing. -/
theorem exec_fold_of_fixed (hfixed : ∀ x, src.toNat ≤ x → x < src.toNat + n.toNat →
    foldByte s.params.caseTable (s.m8.read x) = s.m8.read x) : exec .fold s = .next s := by
  rw [exec_fold_of_admitted hsrc hslen hadm, foldPass_m8_of_fixed _ _ _ hfixed, State.startRun_m8]

/-- What each byte of M8 reads as after FOLD (R122, R123). -/
theorem read_of_exec_fold {t : State} (h : exec .fold s = .next t) (x : Nat) :
    t.m8.read x =
      if src.toNat ≤ x ∧ x < src.toNat + n.toNat then foldByte s.params.caseTable (s.m8.read x)
      else s.m8.read x := by
  rw [exec_fold_of_admitted hsrc hslen hadm] at h
  obtain rfl := Host.Outcome.next.inj h
  exact foldPass_read _ _ _ _ _

end

/-- Settles O42: FOLD leaves what its pass leaves, which is read byte by byte. -/
theorem foldUppercasesItsBufferInPlace : Obligations.FoldUppercasesItsBufferInPlace := by
  intro s src n hsrc hslen hadm
  have hexec := exec_fold_of_admitted hsrc hslen hadm
  exact ⟨_, hexec, rfl, read_of_exec_fold hsrc hslen hadm hexec⟩

/-! ## FOLD twice -/

/-- Where folded bytes are fixed points, a second FOLD records the first one's fault again, or finds
nothing to write. -/
theorem exec_fold_again {s t : State}
    (hfixed : ∀ b, foldByte s.params.caseTable (foldByte s.params.caseTable b) =
      foldByte s.params.caseTable b)
    (h : exec .fold s = .next t) : exec .fold t = .next t := by
  rcases exec_fold_faults_or_admitted s with ⟨c, hfault⟩ | ⟨src, n, hsrc, hslen, hadm⟩
  · obtain rfl : t = s.recordFault c := Host.Outcome.next.inj (h.symm.trans (hfault s.status))
    exact hfault _
  · have hread := read_of_exec_fold hsrc hslen hadm h
    obtain rfl : t = _ := Host.Outcome.next.inj (h.symm.trans (exec_fold_of_admitted hsrc hslen hadm))
    refine exec_fold_of_fixed hsrc hslen hadm fun x h1 h2 => ?_
    rw [hread, if_pos ⟨h1, h2⟩]
    exact hfixed _

/-- A state with the given CASE_TABLE whose buffer is the one byte `b` at address 0. -/
def oneByteBuffer (tab : CaseTable) (b : Byte) : State :=
  { State.reset with
    params := { Params.default with caseTable := tab }
    src := some 0#32
    slen := some 1#32
    m8 := Memory.write [] 0 b }

/-- FOLD twice on a one-byte buffer folds the byte twice. -/
theorem foldByte_foldByte_of_exec_fold {tab : CaseTable} {b : Byte}
    (h : ∀ t, exec .fold (oneByteBuffer tab b) = .next t → exec .fold t = .next t) :
    foldByte tab (foldByte tab b) = foldByte tab b := by
  have hadm : admitted wholeSpace (0#32).toNat (1#32).toNat = true := by decide
  have hexec := exec_fold_of_admitted (s := oneByteBuffer tab b) rfl rfl hadm
  have honce := read_of_exec_fold (s := oneByteBuffer tab b) rfl rfl hadm hexec 0
  have htwice := read_of_exec_fold rfl rfl hadm (h _ hexec) 0
  rw [if_pos (by decide), honce, if_pos (by decide), oneByteBuffer, Memory.read_write_same] at htwice
  exact htwice.symm

/-- Settles O43: FOLD twice folds each byte of its buffer twice, and a one-byte buffer shows any byte; in
the default table the closed conditions are checked row by row. -/
theorem foldIsIdempotentExactlyOnFixedPoints : Obligations.FoldIsIdempotentExactlyOnFixedPoints := by
  refine ⟨fun tab => ⟨fun hfixed s t htab h => ?_, fun hidem b => ?_⟩,
    fun tab => foldByte_foldByte_of_disjoint, by decide +kernel⟩
  · subst htab
    exact exec_fold_again hfixed h
  · exact foldByte_foldByte_of_exec_fold fun t => hidem _ t rfl

end Sys2Proof.Machine
end

section
/-! Facts about the conversions (46_conversions.md): what one turn of the driving loop advances, the
bounds on a text's units that follow, and what the write forms and the measure forms answer; with the
proofs of the statements of 46_conversions.md. -/

namespace Sys2Proof.Machine

/-! ## Overlap -/

theorem overlap_iff (src n dst cap : Nat) :
    overlap src n dst cap = true ↔ 0 < n ∧ 0 < cap ∧ src < dst + cap ∧ dst < src + n := by
  simp [overlap, and_assoc]

/-- Settles O10: ranges that meet share the higher of the two bases. -/
theorem overlapIsASharedUnit : Obligations.OverlapIsASharedUnit := by
  intro src n dst cap
  rw [overlap_iff]
  constructor
  · intro h
    exact ⟨max src dst, by omega, by omega⟩
  · rintro ⟨x, hx, hx'⟩
    omega

/-- Where the ranges do not overlap, a source unit lies outside the destination (R140). -/
theorem outside_of_overlap_eq_false {src n dst cap x : Nat} (h : overlap src n dst cap = false)
    (h1 : src ≤ x) (h2 : x < src + n) : x < dst ∨ dst + cap ≤ x := by
  rw [← Bool.not_eq_true, overlap_iff] at h
  omega

/-! ## The turns of the driving loop -/

theorem convertFrom_of_le {dec : Run → Nat → Decoded} {emit : Word → Nat → Run → Run × Nat}
    {n i : Nat} (h : n ≤ i) (fuel t : Nat) (r : Run) :
    convertFrom dec emit n fuel i t r = (r, t) := by
  cases fuel with
  | zero => rfl
  | succ fuel => rw [convertFrom, if_neg (by omega)]

/-- Where every decode advances, the turns that are left for the rest of the source are enough
(R131). -/
theorem convertFrom_add_fuel {dec : Run → Nat → Decoded} {emit : Word → Nat → Run → Run × Nat}
    {n : Nat} (hdec : ∀ r, ∀ i < n, i ≤ (dec r i).last) (extra fuel i t : Nat) (r : Run)
    (h : n ≤ i + fuel) :
    convertFrom dec emit n (fuel + extra) i t r = convertFrom dec emit n fuel i t r := by
  induction fuel generalizing i t r with
  | zero =>
    have hend : n ≤ i := h
    rw [convertFrom_of_le hend, convertFrom_of_le hend]
  | succ fuel ih =>
    rw [Nat.succ_add, convertFrom, convertFrom]
    split
    · next hi =>
      have := hdec r i hi
      exact ih _ _ _ (by omega)
    · rfl

/-- Settles O50: either decoder advances at every turn. -/
theorem conversionEndsWithinItsSource : Obligations.ConversionEndsWithinItsSource := by
  intro emit fp src n extra r
  refine ⟨convertFrom_add_fuel (fun r i hi => ?_) _ _ _ _ _ (by omega),
    convertFrom_add_fuel (fun r i hi => ?_) _ _ _ _ _ (by omega)⟩
  · exact ((utf16Decode_outcome _ _ _).last_bounds hi).1.1
  · exact (utf8Decode_inside fp _ hi).le_last

/-! ## Bounds on what a text measures -/

/-- Where each decode makes at most `k` units for each source unit it consumes, so does the rest of
the source. -/
theorem length_fullOutput_decodedFrom_le {α : Type} {units : Word → List α} {dec : Nat → Decoded}
    {n k : Nat} (hlast : ∀ i < n, (dec i).last < n)
    (hunits : ∀ i < n, (units (dec i).cp).length + k * i ≤ k * ((dec i).last + 1))
    (fuel i : Nat) (hi : i ≤ n) :
    (fullOutput units ((decodedFrom dec n fuel i).map (·.cp))).length + k * i ≤ k * n := by
  induction fuel generalizing i with
  | zero => simpa [decodedFrom, fullOutput] using Nat.mul_le_mul_left k hi
  | succ fuel ih =>
    rw [decodedFrom]
    split
    · next hlt =>
      have hone := hunits i hlt
      have hrest := ih ((dec i).last + 1) (hlast i hlt)
      rw [List.map_cons, fullOutput, List.flatMap_cons, ← fullOutput, List.length_append]
      omega
    · simpa [fullOutput] using Nat.mul_le_mul_left k hi

theorem length_fullOutput_codepointsOf_le {α : Type} {units : Word → List α} {dec : Nat → Decoded}
    {n k : Nat} (hlast : ∀ i < n, (dec i).last < n)
    (hunits : ∀ i < n, (units (dec i).cp).length + k * i ≤ k * ((dec i).last + 1)) :
    (fullOutput units (codepointsOf dec n)).length ≤ k * n :=
  length_fullOutput_decodedFrom_le hlast hunits n 0 (Nat.zero_le n)

theorem utf8MinLen_le_three {c : Word} (h : c.toNat ≤ 0xFFFF) : utf8MinLen c ≤ 3 := by
  rcases utf8MinLen_cases c with ⟨e, -⟩ | ⟨e, -⟩ | ⟨e, -⟩ | ⟨e, hlt⟩ <;> omega

/-- A UTF-16 unit yields at most 3 bytes, and a pair 4 (R141). -/
theorem Utf16Outcome.utf8MinLen_cp_le {rd : Nat → Unit16} {n p : Nat} {d : Decoded}
    (h : Utf16Outcome rd n p d) : utf8MinLen d.cp + 3 * p ≤ 3 * (d.last + 1) := by
  cases h with
  | bmp =>
    have hunit : ((rd p).setWidth 32).toNat ≤ 0xFFFF := by
      rw [BitVec.toNat_setWidth_of_le (by decide)]
      omega
    have := utf8MinLen_le_three hunit
    dsimp only
    omega
  | loneLow | highAtEnd | highUnpaired =>
    have : utf8MinLen replacement = 3 := by decide
    dsimp only
    omega
  | pair =>
    have := utf8MinLen_le (combine (rd p) (rd (p + 1)))
    dsimp only
    omega

/-- Two UTF-16 units are for codepoints that take four UTF-8 bytes. -/
theorem utf16Len_le_utf8MinLen (c : Word) : utf16Len c ≤ utf8MinLen c := by
  have h16 := utf16Len_le c
  rw [utf16Len] at h16 ⊢
  rcases utf8MinLen_cases c with ⟨e, hle⟩ | ⟨e, -⟩ | ⟨e, -⟩ | ⟨e, -⟩
  · rw [if_pos (by omega), e]
  all_goals omega

/-- A UTF-8 decode yields at most one UTF-16 unit for each byte it consumes (R141). -/
theorem utf16Len_utf8Decode_le (fp : FailPos) (rd : Nat → Byte) {n p : Nat} (hp : p < n) :
    utf16Len (utf8Decode fp rd n p).cp + p ≤ (utf8Decode fp rd n p).last + 1 := by
  rcases utf8Failure_or_accepts rd hp with ⟨m, u, h⟩ | ⟨v, h⟩ <;> rw [h.decode_eq]
  · have hlen : utf16Len replacement = 1 := by decide
    have := (failPosition_bounds fp p m).1
    dsimp only
    omega
  · have := utf16Len_le_utf8MinLen v
    have := utf8MinLen_pos v
    dsimp only
    omega

theorem length_utf8_sourceText16_le (s : State) (src n : Word) :
    (fullOutput utf8Bytes (sourceText16 s src n)).length ≤ 3 * n.toNat := by
  refine length_fullOutput_codepointsOf_le (fun i hi => ?_) (fun i _ => ?_)
  · exact ((utf16Decode_outcome _ _ i).last_bounds hi).2
  · rw [utf8Bytes_length]
    exact (utf16Decode_outcome _ _ i).utf8MinLen_cp_le

theorem length_utf16_sourceText8_le (s : State) (src n : Word) :
    (fullOutput utf16Units (sourceText8 s src n)).length ≤ n.toNat := by
  rw [← Nat.one_mul n.toNat]
  refine length_fullOutput_codepointsOf_le (fun i hi => ?_) (fun i hi => ?_)
  · exact (utf8Decode_inside _ _ hi).last_lt
  · rw [utf16Units_length, Nat.one_mul, Nat.one_mul]
    exact utf16Len_utf8Decode_le _ _ hi

theorem length_vis_sourceText8_le (tab : EncTable) (s : State) (src n : Word) :
    (fullOutput (visUnits tab) (sourceText8 s src n)).length ≤ n.toNat := by
  rw [← Nat.one_mul n.toNat]
  refine length_fullOutput_codepointsOf_le (fun i hi => ?_) (fun i hi => ?_)
  · exact (utf8Decode_inside _ _ hi).last_lt
  · have hlast := (utf8Decode_inside s.params.failPos (source8 s.m8 src) hi).le_last
    rw [visUnits, List.length_singleton]
    omega

/-- Settles O51: each decode stays within the bound for the source units it consumes. -/
theorem measuredTotalsAreBounded : Obligations.MeasuredTotalsAreBounded :=
  fun s src n => ⟨length_utf8_sourceText16_le s src n, length_utf16_sourceText8_le s src n,
    length_vis_sourceText8_le _ s src n⟩

/-! ## The write forms -/

theorem convert_m16 {dec : Run → Nat → Decoded} {emit : Word → Nat → Run → Run × Nat}
    (hemit : ∀ c t r, (emit c t r).1.m16 = r.m16) (n : Nat) (r : Run) :
    (convert dec emit n r).1.m16 = r.m16 :=
  convertFrom_keeps (P := fun q => q.m16 = r.m16) (fun _ _ h => h)
    (fun c t q h => (hemit c t q).trans h) n 0 0 r rfl

theorem convert_m8 {dec : Run → Nat → Decoded} {emit : Word → Nat → Run → Run × Nat}
    (hemit : ∀ c t r, (emit c t r).1.m8 = r.m8) (n : Nat) (r : Run) :
    (convert dec emit n r).1.m8 = r.m8 :=
  convertFrom_keeps (P := fun q => q.m8 = r.m8) (fun _ _ h => h)
    (fun c t q h => (hemit c t q).trans h) n 0 0 r rfl

theorem emitAll_enc8At (dst cap : Nat) (ds : List Decoded) (r : Run) :
    (emitAll (enc8At dst cap) ds 0 r).2 = (fittingOutput utf8Bytes cap 0 (ds.map (·.cp))).length ∧
    Holds r.m8 (emitAll (enc8At dst cap) ds 0 r).1.m8 dst
      (fittingOutput utf8Bytes cap 0 (ds.map (·.cp))) := by
  have h := emitAll_output (get := Run.m8) Run.countReads_m8 (enc8At_skip dst cap)
    (fun c t r h => by rw [enc8At_fit dst cap c t r h]) (enc8At_holds dst cap) ds 0 r
  rwa [Nat.zero_add] at h

theorem emitAll_enc16At (dst cap : Nat) (ds : List Decoded) (r : Run) :
    (emitAll (enc16At dst cap) ds 0 r).2 =
      (fittingOutput utf16Units cap 0 (ds.map (·.cp))).length ∧
    Holds r.m16 (emitAll (enc16At dst cap) ds 0 r).1.m16 dst
      (fittingOutput utf16Units cap 0 (ds.map (·.cp))) := by
  have h := emitAll_output (get := Run.m16) Run.countReads_m16 (enc16At_skip dst cap)
    (fun c t r h => by rw [enc16At_fit dst cap c t r h]) (enc16At_holds dst cap) ds 0 r
  rwa [Nat.zero_add] at h

theorem emitAll_encVisAt (tab : EncTable) (dst cap : Nat) (ds : List Decoded) (r : Run) :
    (emitAll (encVisAt tab dst cap) ds 0 r).2 =
      (fittingOutput (visUnits tab) cap 0 (ds.map (·.cp))).length ∧
    Holds r.m8 (emitAll (encVisAt tab dst cap) ds 0 r).1.m8 dst
      (fittingOutput (visUnits tab) cap 0 (ds.map (·.cp))) := by
  have h := emitAll_output (get := Run.m8) Run.countReads_m8 (encVisAt_skip tab dst cap)
    (fun c t r h => by rw [encVisAt_fit tab dst cap c t r h, visUnits, List.length_singleton])
    (encVisAt_holds tab dst cap) ds 0 r
  rwa [Nat.zero_add] at h

/-- A write form into M8 that has counted and written `out` ends with it. -/
theorem finishCount_of_holds_m8 {s : State} {rt : Run × Nat} {a : Nat} {out : List Byte}
    (hm16 : rt.1.m16 = s.m16) (hout : rt.2 = out.length ∧ Holds s.m8 rt.1.m8 a out) :
    ∃ m : Memory 8,
      finishCount s rt = .next { s with m8 := m, cnt := some (toWord out.length) } ∧
      Holds s.m8 m a out := by
  obtain ⟨hcount, hholds⟩ := hout
  exact ⟨rt.1.m8, by rw [finishCount_of_m16_eq hm16, hcount], hholds⟩

/-- A write form into M16 that has counted and written `out` ends with it. -/
theorem finishCount_of_holds_m16 {s : State} {rt : Run × Nat} {a : Nat} {out : List Unit16}
    (hm8 : rt.1.m8 = s.m8) (hout : rt.2 = out.length ∧ Holds s.m16 rt.1.m16 a out) :
    ∃ m : Memory 16,
      finishCount s rt = .next { s with m16 := m, cnt := some (toWord out.length) } ∧
      Holds s.m16 m a out := by
  obtain ⟨hcount, hholds⟩ := hout
  exact ⟨rt.1.m16, by rw [finishCount_of_m8_eq hm8, hcount], hholds⟩

section
variable {s : State} {src n dst cap : Word} (hsrc : s.src = some src) (hslen : s.slen = some n)
  (hdst : s.dst = some dst) (hdcap : s.dcap = some cap)
include hsrc hslen hdst hdcap

/-- CVT16TO8 writes the UTF-8 of what fits to M8 and its length to CNT, and nothing else (R134). -/
theorem exec_cvt16to8_of_admitted (hadm : admitted s.params.admit16 src.toNat n.toNat = true)
    (hadm' : admitted s.params.admit8 dst.toNat cap.toNat = true) {out : List Byte}
    (hout : out = fittingOutput utf8Bytes cap.toNat 0 (sourceText16 s src n)) : ∃ m : Memory 8,
      exec .cvt16to8 s = .next { s with m8 := m, cnt := some (toWord out.length) } ∧
      Holds s.m8 m dst.toNat out := by
  have hexec : exec .cvt16to8 s = _ := execCvt16to8_completes hsrc hslen hdst hdcap hadm hadm'
  rw [hexec, hout]
  refine finishCount_of_holds_m8 (convert_m16 (enc8At_m16 _ _) _ _) ?_
  rw [convert16_write]
  exact emitAll_enc8At _ _ _ _

/-- CVT8TO16 writes the UTF-16 of what fits to M16 and its length to CNT, and nothing else (R135). -/
theorem exec_cvt8to16_of_admitted (hadm : admitted s.params.admit8 src.toNat n.toNat = true)
    (hadm' : admitted s.params.admit16 dst.toNat cap.toNat = true) {out : List Unit16}
    (hout : out = fittingOutput utf16Units cap.toNat 0 (sourceText8 s src n)) : ∃ m : Memory 16,
      exec .cvt8to16 s = .next { s with m16 := m, cnt := some (toWord out.length) } ∧
      Holds s.m16 m dst.toNat out := by
  have hexec : exec .cvt8to16 s = _ := execCvt8to16_completes hsrc hslen hdst hdcap hadm hadm'
  rw [hexec, hout]
  refine finishCount_of_holds_m16 (convert_m8 (enc16At_m8 _ _) _ _) ?_
  rw [convert8_write]
  exact emitAll_enc16At _ _ _ _

/-- CVT8TOVIS writes the VISCII bytes of what fits to M8 and their number to CNT, and nothing else, for
ranges that do not overlap (R136, R140). -/
theorem exec_cvt8tovis_of_admitted (hadm : admitted s.params.admit8 src.toNat n.toNat = true)
    (hadm' : admitted s.params.admit8 dst.toNat cap.toNat = true)
    (hover : overlap src.toNat n.toNat dst.toNat cap.toNat = false) {out : List Byte}
    (hout : out = fittingOutput (visUnits s.params.encTable) cap.toNat 0 (sourceText8 s src n)) :
    ∃ m : Memory 8,
      exec .cvt8tovis s = .next { s with m8 := m, cnt := some (toWord out.length) } ∧
      Holds s.m8 m dst.toNat out := by
  have hexec : exec .cvt8tovis s = _ :=
    execCvt8tovis_completes hsrc hslen hdst hdcap hover hadm hadm'
  rw [hexec, hout]
  refine finishCount_of_holds_m8 (convert_m16 (encVisAt_m16 _ _ _) _ _) ?_
  rw [convert8_writeVis _ _ _ _ _ _ _ fun x => outside_of_overlap_eq_false hover]
  exact emitAll_encVisAt _ _ _ _ _

end

/-- No capacity is passed, from running total 0 on. -/
theorem length_fittingOutput_le {α : Type} (units : Word → List α) (cap : Nat) (cs : List Word) :
    (fittingOutput units cap 0 cs).length ≤ cap := by
  simpa using fittingOutput_length_le units cap 0 cs (Nat.zero_le cap)

/-- Settles O44: the loop emits the text its source decodes to, since M8 writes leave M16 alone. -/
theorem cvt16to8WritesWhatFits : Obligations.Cvt16to8WritesWhatFits := by
  intro s src n dst cap out hsrc hslen hdst hdcap hadm hadm' hout
  obtain ⟨m, hexec, hholds⟩ :=
    exec_cvt16to8_of_admitted hsrc hslen hdst hdcap hadm hadm' hout
  exact ⟨hout ▸ length_fittingOutput_le _ _ _, _, hexec, rfl, hholds⟩

/-- Settles O45: the loop emits the text its source decodes to, since M16 writes leave M8 alone. -/
theorem cvt8to16WritesWhatFits : Obligations.Cvt8to16WritesWhatFits := by
  intro s src n dst cap out hsrc hslen hdst hdcap hadm hadm' hout
  obtain ⟨m, hexec, hholds⟩ :=
    exec_cvt8to16_of_admitted hsrc hslen hdst hdcap hadm hadm' hout
  exact ⟨hout ▸ length_fittingOutput_le _ _ _, _, hexec, rfl, hholds⟩

/-- Settles O46: the loop emits the text its source decodes to, since no write meets the source. -/
theorem cvt8tovisWritesWhatFits : Obligations.Cvt8tovisWritesWhatFits := by
  intro s src n dst cap out hsrc hslen hdst hdcap hadm hadm' hover hout
  obtain ⟨m, hexec, hholds⟩ :=
    exec_cvt8tovis_of_admitted hsrc hslen hdst hdcap hadm hadm' hover hout
  exact ⟨hout ▸ length_fittingOutput_le _ _ _, _, hexec, rfl, hholds⟩

/-! ## The measure forms -/

/-- The total of a UTF-16 measure is the length of the whole output. -/
theorem convert16_measure_total {α : Type} {units : Word → List α} {len : Word → Nat}
    (hlen : ∀ c, (units c).length = len c) (s : State) (src n : Word) :
    (convert (decodeSource16 src n) (measureOnly len) n.toNat s.startRun).2 =
      (fullOutput units (sourceText16 s src n)).length := by
  rw [convert16_measure, (emitAll_measure _ _ _ _).1, Nat.zero_add, sum_len_eq_fullOutput hlen]
  rfl

/-- The total of a UTF-8 measure is the length of the whole output. -/
theorem convert8_measure_total {α : Type} {units : Word → List α} {len : Word → Nat}
    (hlen : ∀ c, (units c).length = len c) (s : State) (src n : Word) :
    (convert (decodeSource8 s.params.failPos src n) (measureOnly len) n.toNat s.startRun).2 =
      (fullOutput units (sourceText8 s src n)).length := by
  rw [convert8_measure, (emitAll_measure _ _ _ _).1, Nat.zero_add, sum_len_eq_fullOutput hlen]
  rfl

/-- A measuring loop ends with its total in CNT and nothing else changed. -/
theorem finishCount_measure (s : State) (dec : Run → Nat → Decoded) (len : Word → Nat) (n : Nat) :
    finishCount s (convert dec (measureOnly len) n s.startRun) =
      .next { s with cnt := some (toWord (convert dec (measureOnly len) n s.startRun).2) } := by
  obtain ⟨hm16, hm8⟩ := measure_memory dec len n s.startRun
  rw [finishCount_of_m16_eq hm16, hm8, State.startRun_m8]

theorem finishMeasure_of_le (s : State) {rt : Run × Nat} (h : rt.2 ≤ 2 ^ 32 - 1) :
    finishMeasure s rt = finishCount s rt := by
  rw [finishMeasure, decide_eq_true h, require_true]

theorem finishMeasure_of_lt (s : State) {rt : Run × Nat} (h : 2 ^ 32 - 1 < rt.2) :
    finishMeasure s rt = .next (s.recordFault .countOverflow) := by
  rw [finishMeasure, decide_eq_false (Nat.not_le.2 h), require_false, raiseFault]

/-- One byte for each codepoint (44_viscii_encoder.md R110). -/
theorem visUnits_length (tab : EncTable) (c : Word) : (visUnits tab c).length = visLen c := rfl

section
variable {s : State} {src n : Word} (hsrc : s.src = some src) (hslen : s.slen = some n)
include hsrc hslen

/-- CVT16TO8.M writes the number of UTF-8 bytes to CNT where 32 bits hold it (R137). -/
theorem exec_cvt16to8M_of_le (hadm : admitted s.params.admit16 src.toNat n.toNat = true)
    (hle : (fullOutput utf8Bytes (sourceText16 s src n)).length ≤ 2 ^ 32 - 1) :
    exec .cvt16to8M s = .next { s with
      cnt := some (toWord (fullOutput utf8Bytes (sourceText16 s src n)).length) } := by
  have hexec : exec .cvt16to8M s = _ := execCvt16to8M_completes hsrc hslen hadm
  rw [← convert16_measure_total utf8Bytes_length] at hle ⊢
  rw [hexec, finishMeasure_of_le s hle, finishCount_measure]

/-- CVT16TO8.M raises COUNT_OVERFLOW where 32 bits do not hold the number of UTF-8 bytes (R141). -/
theorem exec_cvt16to8M_of_lt (hadm : admitted s.params.admit16 src.toNat n.toNat = true)
    (hlt : 2 ^ 32 - 1 < (fullOutput utf8Bytes (sourceText16 s src n)).length) :
    exec .cvt16to8M s = .next (s.recordFault .countOverflow) := by
  have hexec : exec .cvt16to8M s = _ := execCvt16to8M_completes hsrc hslen hadm
  rw [← convert16_measure_total utf8Bytes_length] at hlt
  rw [hexec, finishMeasure_of_lt s hlt]

/-- CVT8TO16.M writes the number of UTF-16 units to CNT, which 32 bits always hold (R138, R141). -/
theorem exec_cvt8to16M_of_admitted (hadm : admitted s.params.admit8 src.toNat n.toNat = true) :
    exec .cvt8to16M s = .next { s with
      cnt := some (toWord (fullOutput utf16Units (sourceText8 s src n)).length) } := by
  have hexec : exec .cvt8to16M s = _ := execCvt8to16M_completes hsrc hslen hadm
  have hle : (fullOutput utf16Units (sourceText8 s src n)).length ≤ 2 ^ 32 - 1 :=
    (length_utf16_sourceText8_le s src n).trans (Nat.le_pred_of_lt n.isLt)
  rw [← convert8_measure_total utf16Units_length] at hle ⊢
  rw [hexec, finishMeasure_of_le s hle, finishCount_measure]

/-- CVT8TOVIS.M writes the number of VISCII bytes to CNT, whatever the table (R139). -/
theorem exec_cvt8tovisM_of_admitted (tab : EncTable)
    (hadm : admitted s.params.admit8 src.toNat n.toNat = true) :
    exec .cvt8tovisM s = .next { s with
      cnt := some (toWord (fullOutput (visUnits tab) (sourceText8 s src n)).length) } := by
  have hexec : exec .cvt8tovisM s = _ := execCvt8tovisM_completes hsrc hslen hadm
  rw [hexec, finishCount_measure, convert8_measure_total (visUnits_length tab)]

end

/-- Settles O47: the total of the loop is the length of the whole output, and is checked at the end. -/
theorem cvt16to8MeasureCountsOrOverflows : Obligations.Cvt16to8MeasureCountsOrOverflows := by
  rintro s src n total hsrc hslen hadm rfl
  exact ⟨exec_cvt16to8M_of_le hsrc hslen hadm, exec_cvt16to8M_of_lt hsrc hslen hadm⟩

theorem length_fullOutput_visUnits (tab : EncTable) (cs : List Word) :
    (fullOutput (visUnits tab) cs).length = cs.length := by
  simp [fullOutput, visUnits]

/-- Settles O48: the totals are at most SLEN, so neither form can overflow. -/
theorem utf8MeasuresCount : Obligations.Utf8MeasuresCount := by
  intro s src n hsrc hslen hadm
  rw [← length_fullOutput_visUnits s.params.encTable (sourceText8 s src n)]
  exact ⟨⟨length_utf16_sourceText8_le s src n, exec_cvt8to16M_of_admitted hsrc hslen hadm⟩,
    ⟨length_vis_sourceText8_le _ s src n, exec_cvt8tovisM_of_admitted hsrc hslen _ hadm⟩⟩

/-! ## Measure, then write -/

/-- A source that reads the same decodes to the same text (R132). -/
theorem sourceText16_congr {s s' : State} {src n : Word}
    (h : ∀ k < n.toNat, s'.m16.read (src.toNat + k) = s.m16.read (src.toNat + k)) :
    sourceText16 s' src n = sourceText16 s src n :=
  congrArg (List.map Decoded.cp) (decodedFrom_congr (fun _ hi => utf16Decode_congr hi h) _ _)

/-- A source that reads the same decodes to the same text under the same setting (R132). -/
theorem sourceText8_congr {s s' : State} {src n : Word} (hparams : s'.params = s.params)
    (h : ∀ k < n.toNat, s'.m8.read (src.toNat + k) = s.m8.read (src.toNat + k)) :
    sourceText8 s' src n = sourceText8 s src n := by
  rw [sourceText8, hparams]
  exact congrArg (List.map Decoded.cp) (decodedFrom_congr (fun _ hi => utf8Decode_congr hi h) _ _)

/-- With room for the measured total nothing is left out. -/
theorem fullOutput_eq_fittingOutput {α : Type} {units : Word → List α} {cs : List Word} {T cap : Word}
    (htotal : (fullOutput units cs).length = T.toNat) (hroom : T.toNat ≤ cap.toNat) :
    fullOutput units cs = fittingOutput units cap.toNat 0 cs :=
  (fittingOutput_eq_full _ _ _ _ (by omega)).symm

/-- A command that ended with FAULT = 0 raised no fault. -/
theorem not_raiseFault_of_fault_eq_false {c : Cause} {s m : State} {o : Result}
    (h : o = .next m) (hfault : m.status.fault = false) : o ≠ raiseFault c s := by
  rintro rfl
  obtain rfl : s.recordFault c = m := Host.Outcome.next.inj h
  cases hfault

/-- A count read back from CNT is the count written, where 32 bits hold it. -/
theorem eq_toNat_of_next_cnt {s m : State} {o : Result} {total : Nat} {T : Word}
    (hexec : o = .next m) (hcnt : m.cnt = some T)
    (ho : o = .next { s with cnt := some (toWord total) }) (hle : total ≤ 2 ^ 32 - 1) :
    total = T.toNat := by
  obtain rfl : m = _ := Host.Outcome.next.inj (hexec.symm.trans ho)
  rw [← Option.some.inj hcnt, toNat_toWord (by omega)]

section
variable {s m : State} {src n T : Word} (hfault : m.status.fault = false) (hcnt : m.cnt = some T)
  (hsrc : s.src = some src) (hslen : s.slen = some n)
include hfault hcnt hsrc hslen

theorem measured_of_exec_cvt16to8M (hexec : exec .cvt16to8M s = .next m) :
    admitted s.params.admit16 src.toNat n.toNat = true ∧
    (fullOutput utf8Bytes (sourceText16 s src n)).length = T.toNat := by
  rcases execCvt16to8M_cases s with ⟨c, h⟩ | ⟨src', n', hsrc', hslen', hadm, -⟩
  · exact absurd h (not_raiseFault_of_fault_eq_false hexec hfault)
  obtain rfl : src = src' := Option.some.inj (hsrc.symm.trans hsrc')
  obtain rfl : n = n' := Option.some.inj (hslen.symm.trans hslen')
  refine ⟨hadm, ?_⟩
  rcases Nat.lt_or_ge (2 ^ 32 - 1) (fullOutput utf8Bytes (sourceText16 s src n)).length with h | h
  · exact absurd (exec_cvt16to8M_of_lt hsrc hslen hadm h)
      (not_raiseFault_of_fault_eq_false hexec hfault)
  · exact eq_toNat_of_next_cnt hexec hcnt (exec_cvt16to8M_of_le hsrc hslen hadm h) h

theorem measured_of_exec_cvt8to16M (hexec : exec .cvt8to16M s = .next m) :
    admitted s.params.admit8 src.toNat n.toNat = true ∧
    (fullOutput utf16Units (sourceText8 s src n)).length = T.toNat := by
  rcases execCvt8to16M_cases s with ⟨c, h⟩ | ⟨src', n', hsrc', hslen', hadm, -⟩
  · exact absurd h (not_raiseFault_of_fault_eq_false hexec hfault)
  obtain rfl : src = src' := Option.some.inj (hsrc.symm.trans hsrc')
  obtain rfl : n = n' := Option.some.inj (hslen.symm.trans hslen')
  exact ⟨hadm, eq_toNat_of_next_cnt hexec hcnt (exec_cvt8to16M_of_admitted hsrc hslen hadm)
    ((length_utf16_sourceText8_le s src n).trans (Nat.le_pred_of_lt n.isLt))⟩

theorem measured_of_exec_cvt8tovisM (tab : EncTable) (hexec : exec .cvt8tovisM s = .next m) :
    admitted s.params.admit8 src.toNat n.toNat = true ∧
    (fullOutput (visUnits tab) (sourceText8 s src n)).length = T.toNat := by
  rcases execCvt8tovisM_cases s with ⟨c, h⟩ | ⟨src', n', hsrc', hslen', hadm, -⟩
  · exact absurd h (not_raiseFault_of_fault_eq_false hexec hfault)
  obtain rfl : src = src' := Option.some.inj (hsrc.symm.trans hsrc')
  obtain rfl : n = n' := Option.some.inj (hslen.symm.trans hslen')
  exact ⟨hadm, eq_toNat_of_next_cnt hexec hcnt (exec_cvt8tovisM_of_admitted hsrc hslen tab hadm)
    ((length_vis_sourceText8_le tab s src n).trans (Nat.le_pred_of_lt n.isLt))⟩

end

/-- Settles O49: the measure form's CNT is the length of the whole output, so with that room the write
form's fitting output is the whole output, and its length is the word measured. -/
theorem measureAndWriteAgree : Obligations.MeasureAndWriteAgree := by
  intro s m s' src n dst cap T _ hfault hcnt hsrc hslen hsrc' hslen' hdst hdcap hparams hroom
  refine ⟨fun hexec hsource hdest => ?_, fun hexec hsource hdest => ?_,
    fun hexec hsource hdest hover => ?_⟩
  · obtain ⟨hadm, htotal⟩ := measured_of_exec_cvt16to8M hfault hcnt hsrc hslen hexec
    rw [← sourceText16_congr hsource] at htotal ⊢
    obtain ⟨m8, hwrite, hholds⟩ := exec_cvt16to8_of_admitted hsrc' hslen' hdst hdcap
      (hparams ▸ hadm) hdest (fullOutput_eq_fittingOutput htotal hroom)
    rw [htotal, toWord_toNat] at hwrite
    exact ⟨_, hwrite, rfl, htotal, hholds⟩
  · obtain ⟨hadm, htotal⟩ := measured_of_exec_cvt8to16M hfault hcnt hsrc hslen hexec
    rw [← sourceText8_congr hparams hsource] at htotal ⊢
    obtain ⟨m16, hwrite, hholds⟩ := exec_cvt8to16_of_admitted hsrc' hslen' hdst hdcap
      (hparams ▸ hadm) hdest (fullOutput_eq_fittingOutput htotal hroom)
    rw [htotal, toWord_toNat] at hwrite
    exact ⟨_, hwrite, rfl, htotal, hholds⟩
  · obtain ⟨hadm, htotal⟩ := measured_of_exec_cvt8tovisM hfault hcnt hsrc hslen s.params.encTable hexec
    rw [← sourceText8_congr hparams hsource, ← hparams] at htotal ⊢
    obtain ⟨m8, hwrite, hholds⟩ := exec_cvt8tovis_of_admitted hsrc' hslen' hdst hdcap
      (hparams ▸ hadm) hdest hover (fullOutput_eq_fittingOutput htotal hroom)
    rw [htotal, toWord_toNat] at hwrite
    exact ⟨_, hwrite, rfl, htotal, hholds⟩

end Sys2Proof.Machine
end

section
/-! Facts about faults (60_exceptions.md): what each host access does while a fault is recorded, that a
safe state's next access answers, and the fault each command reports, check by check (`Reports`); with
the proofs of the statements of 60_exceptions.md. -/

namespace Sys2Proof.Machine

/-! ## Steps -/

/-- Settles O6: an empty script gives the step nothing to do. -/
theorem idleEngineKeepsItsState : Obligations.IdleEngineKeepsItsState := by
  intro s hs
  simp only [step, hs]

/-- A write to CMD after a fault is ignored (R151). -/
theorem issue_of_fault {v : Word} {s : State} (hf : s.status.fault = true) : issue v s = .next s := by
  simp [issue, hf]

theorem State.begin_eq {s : State} (hf : s.status.fault = false) :
    s.begin = { s with status := ⟨true, false, s.status.cause⟩ } := by
  rw [State.begin, Status.begin, hf]

/-- Settles O4: the step is the issue of the word written, whose three cases are told apart by FAULT and
the decoder. -/
theorem stepIssuesTheCommandWritten : Obligations.StepIssuesTheCommandWritten := by
  intro s v rest hs hidle
  rw [step_of_cmdWrite hs hidle]
  refine ⟨fun hf => issue_of_fault hf, fun hf hd => issue_of_illegal hf hd, fun i hf hd => ?_⟩
  have hissue := issue_of_decode (s := { s with script := rest }) hf hd
  rwa [State.begin_eq (s := { s with script := rest }) hf] at hissue

/-! ## Safe states -/

/-- An access to units that exist answers (60_exceptions.md R160). -/
theorem HostOp.perform_next {op : HostOp} {s : State} (h : op.onUnits s.params = true) :
    ∃ t, op.perform s = .next t := by
  cases op with
  | wr r v =>
    cases r with
    | cmd => exact issue_next v s
    | status => exact ⟨_, rfl⟩
    | op r => exact ⟨_, rfl⟩
    | unused k => exact ⟨_, rfl⟩
  | rd r => exact ⟨_, rfl⟩
  | store16 a v => exact ⟨_, congrArg (hostUnit · _) h⟩
  | store8 a v => exact ⟨_, congrArg (hostUnit · _) h⟩
  | load16 a => exact ⟨_, congrArg (hostUnit · _) h⟩
  | load8 a => exact ⟨_, congrArg (hostUnit · _) h⟩
  | reset => exact ⟨_, rfl⟩
  | cmdCutByReset v =>
    obtain ⟨whole, hw⟩ := issue_next v s
    exact ⟨resetDuring s whole, by simp only [HostOp.perform, cutByReset, hw]⟩

theorem State.safe_iff (s : State) :
    s.safe = true ↔ s.inv = true ∧ ∀ op ∈ s.script, op.onUnits s.params = true := by
  simp [State.safe]

/-- Settles O21: the next access is on units that exist and BUSY = 0, so it answers; and an access keeps
the invariant, the parameters and the rest of the script. -/
theorem safeStateStepsToSafeState : Obligations.SafeStateStepsToSafeState := by
  intro s hsafe
  obtain ⟨hinv, hunits⟩ := (State.safe_iff s).1 hsafe
  cases hs : s.script with
  | nil => exact ⟨s, idleEngineKeepsItsState s hs, hsafe⟩
  | cons op rest =>
    rw [hs, List.forall_mem_cons] at hunits
    obtain ⟨hidle, -⟩ := (State.inv_iff s).1 hinv
    obtain ⟨t, ht⟩ := HostOp.perform_next (s := { s with script := rest }) hunits.1
    have hhost : hostStep op { s with script := rest } = .next t :=
      (hostStep_of_idle (s := { s with script := rest }) op hidle).trans ht
    have hstep : step s = .next t := by simpa only [step, hs] using hhost
    have hkeeps := hostStep_keeps hhost
    refine ⟨t, hstep, (State.safe_iff t).2 ⟨stepKeepsInvariant s t hinv hstep, ?_⟩⟩
    rw [hkeeps.script, hkeeps.params]
    exact hunits.2

/-! ## A recorded fault stays -/

@[simp] theorem hostRead_status (r : BlockReg) (s : State) : (hostRead r s).status = s.status := by
  cases r with
  | cmd => rfl
  | status => rfl
  | unused k => rfl
  | op r =>
    cases hr : s.get r with
    | some v => simp [hostRead, hostReadReg_of_some hr]
    | none => simp [hostRead, hostReadReg_of_none hr]

/-- After a fault a host write of the block leaves STATUS alone, since command writes are ignored. -/
theorem hostWrite_status_of_fault {r : BlockReg} {v : Word} {s t : State}
    (hf : s.status.fault = true) (h : hostWrite r v s = .next t) : t.status = s.status := by
  cases r with
  | cmd =>
    obtain rfl : s = t := Host.Outcome.next.inj ((issue_of_fault hf).symm.trans h)
    rfl
  | status => cases h; rfl
  | unused k => cases h; rfl
  | op r => cases h; exact s.set_status r v

/-- The accesses that reset the engine, while a command runs or while none does (R161). -/
def HostOp.Resets (op : HostOp) : Prop := op = .reset ∨ ∃ v, op = .cmdCutByReset v

/-- After a fault an access leaves STATUS alone or resets it (R151, R161). -/
theorem HostOp.perform_status_of_fault {op : HostOp} {s t : State} (hf : s.status.fault = true)
    (h : op.perform s = .next t) :
    t.status = s.status ∨ op.Resets ∧ t.status = Status.zero := by
  cases op with
  | wr r v => exact .inl (hostWrite_status_of_fault hf h)
  | rd r => cases h; exact .inl (hostRead_status r s)
  | store16 a v => obtain ⟨-, rfl⟩ := hostUnit_eq_next h; exact .inl rfl
  | store8 a v => obtain ⟨-, rfl⟩ := hostUnit_eq_next h; exact .inl rfl
  | load16 a => obtain ⟨-, rfl⟩ := hostUnit_eq_next h; exact .inl rfl
  | load8 a => obtain ⟨-, rfl⟩ := hostUnit_eq_next h; exact .inl rfl
  | reset => cases h; exact .inr ⟨.inl rfl, rfl⟩
  | cmdCutByReset v =>
    simp only [HostOp.perform, cutByReset, issue_of_fault hf] at h
    cases h
    exact .inr ⟨.inr ⟨v, rfl⟩, rfl⟩

/-- An access that is not refused is performed (R175). -/
theorem perform_eq_next_of_hostStep {op : HostOp} {s t : State} (h : hostStep op s = .next t) :
    op.perform s = .next t := by
  unfold hostStep at h
  split at h
  · cases h
  · exact h

theorem step_status_of_fault {s t : State} (hf : s.status.fault = true) (h : step s = .next t) :
    t.status = s.status ∨
      ∃ op rest, s.script = op :: rest ∧ op.Resets ∧ t.status = Status.zero := by
  rcases step_eq_next h with rfl | ⟨op, rest, hs, h⟩
  · exact .inl rfl
  · exact (HostOp.perform_status_of_fault (s := { s with script := rest }) hf
      (perform_eq_next_of_hostStep h)).imp_right fun hreset => ⟨op, rest, hs, hreset⟩

/-- Settles O8: a command raises one fault or completes in its frame, and after a fault only a reset
changes STATUS. -/
theorem faultsArePreciseAndSticky : Obligations.FaultsArePreciseAndSticky := by
  refine ⟨fun i s => ?_, fun v s hf => issue_of_fault hf, fun r v s _ hidle => ?_,
    fun s t hf hstep => ?_⟩
  · rcases exec_cases i s with ⟨c, h⟩ | ⟨t, h, hfr⟩
    · exact .inl ⟨c, h⟩
    · exact .inr ⟨t, h, hfr.status⟩
  · simp only [hostStep_of_idle _ hidle]
    exact ⟨rfl, fun hv => congrArg Host.Outcome.next (hostReadReg_of_some hv)⟩
  · refine (step_status_of_fault hf hstep).imp_right ?_
    rintro ⟨op, rest, hs, rfl | ⟨v, rfl⟩, hzero⟩
    · exact ⟨rest, .inl hs, hzero⟩
    · exact ⟨rest, .inr ⟨v, hs⟩, hzero⟩

/-! ## The fault a command reports -/

theorem State.value_of_get {s : State} {r : Reg} {v : Word} (h : s.get r = some v) :
    s.value r = v.toNat := by
  simp [State.value, h]

/-- With its registers written, what CVT16TO8.M measures is the whole UTF-8 output (R158). -/
theorem measuresTooMuch_iff {s : State} {src n : Word} (hsrc : s.src = some src)
    (hslen : s.slen = some n) : measuresTooMuch .cvt16to8M s ↔
      2 ^ 32 - 1 < (fullOutput utf8Bytes (sourceText16 s src n)).length := by
  simp [measuresTooMuch, hsrc, hslen]

/-- The result `o` of command `i` is the one R157 gives when the checks still to come name the fault
`f`, if any. -/
structure Reports (i : Instr) (s : State) (f : Option Cause) (o : Result) : Prop where
  fault     : ∀ c, f = some c → o = .next (s.recordFault c)
  overflow  : f = none → measuresTooMuch i s → o = .next (s.recordFault .countOverflow)
  completes : f = none → ¬ measuresTooMuch i s → ∃ t, o = .next t ∧ t.status = s.status

section
variable {i : Instr} {s : State}

theorem Reports.raiseFault (c : Cause) : Reports i s (some c) (raiseFault c s) :=
  ⟨fun _ h => by cases h; rfl, fun h => (by cases h), fun h => (by cases h)⟩

/-- A command that ends with STATUS as it was, and is not the one that can overflow. -/
theorem Reports.ends {t : State} (hi : i ≠ .cvt16to8M) (ht : t.status = s.status) :
    Reports i s none (.next t) :=
  ⟨fun _ h => (by cases h), fun _ h => absurd h.1 hi, fun _ _ => ⟨t, rfl, ht⟩⟩

theorem Reports.finishDecode (hi : i ≠ .cvt16to8M) (d : Decoded) :
    Reports i s none (finishDecode s d) :=
  .ends hi (by simp)

theorem Reports.finishCount (hi : i ≠ .cvt16to8M) (rt : Run × Nat) :
    Reports i s none (finishCount s rt) :=
  .ends hi (by simp)

/-- A command reads its registers one after the other, and an unwritten one is reported before any other
check (R152, R157). -/
theorem Reports.readReg {r : Reg} {rs : List Reg} {f : Option Cause} {k : Word → Result}
    (hk : ∀ v, s.get r = some v → Reports i s
      (if rs.any (fun r => (s.get r).isNone) then some .unwritten else f) (k v)) :
    Reports i s (if (r :: rs).any (fun r => (s.get r).isNone) then some .unwritten else f)
      (readReg r s k) := by
  cases hr : s.get r with
  | none => simpa [readReg_of_none k hr, hr] using Reports.raiseFault .unwritten
  | some v => simpa [readReg_of_some k hr, hr] using hk v hr

/-- A check of the command that R157 lists next. -/
theorem Reports.require {ok b : Bool} {c : Cause} {f : Option Cause} {k : Result}
    (hok : ok = true ↔ b = false) (hk : Reports i s f k) :
    Reports i s (if b then some c else f) (require ok c s k) := by
  cases b with
  | true =>
    obtain rfl : ok = false := Bool.eq_false_iff.2 fun h => Bool.noConfusion (hok.1 h)
    exact .raiseFault c
  | false =>
    obtain rfl : ok = true := hok.2 rfl
    exact hk

/-- A check that R157 lists next and the command does not make. -/
theorem Reports.skip {b : Bool} {c : Cause} {f : Option Cause} {o : Result} (hb : b = false)
    (hk : Reports i s f o) : Reports i s (if b then some c else f) o := by
  subst hb
  exact hk

/-- The check of POS against SLEN (R159). -/
theorem Reports.requirePosition {n p : Word} {f : Option Cause} {k : Result}
    (hi : decodesOne i = true) (hn : s.get .slen = some n) (hp : s.get .pos = some p)
    (hk : Reports i s f k) :
    Reports i s (if decodesOne i && decide (s.value .slen ≤ s.value .pos) then some .posRange else f)
      (Machine.require (decide (p.toNat < n.toNat)) .posRange s k) :=
  .require (by simp [hi, State.value_of_get hn, State.value_of_get hp]) hk

/-- The check of CP (R154). -/
theorem Reports.requireCodepoint {c : Word} {f : Option Cause} {k : Result}
    (hi : checksCodepoint i = true) (hc : s.get .cp = some c) (hk : Reports i s f k) :
    Reports i s
      (if checksCodepoint i && decide (maxCodepoint < s.value .cp) then some .cpDomain else f)
      (requireCodepoint c s k) :=
  .require (by simp [hi, State.value_of_get hc]) hk

section
variable {ok : Bool} {rb rn : Reg} {b n : Word} {f : Option Cause} {k : Result}
  (hb : s.get rb = some b) (hn : s.get rn = some n)
include hb hn

/-- The check of a range in M16 (R155), the source's or the destination's. -/
theorem Reports.requireAdmitted16
    (hok : ok = admitted s.params.admit16 (s.value rb) (s.value rn)) (hk : Reports i s f k) :
    Reports i s (if !ok then some .access else f) (requireAdmitted16 b n s k) :=
  .require (by simp [hok, State.value_of_get hb, State.value_of_get hn]) hk

/-- The check of a range in M8 (R155), the source's or the destination's. -/
theorem Reports.requireAdmitted8
    (hok : ok = admitted s.params.admit8 (s.value rb) (s.value rn)) (hk : Reports i s f k) :
    Reports i s (if !ok then some .access else f) (requireAdmitted8 b n s k) :=
  .require (by simp [hok, State.value_of_get hb, State.value_of_get hn]) hk

end

/-- A length command checks CP alone. -/
theorem Reports.lengthCommand (len : Word → Nat) (h : i = .len16 ∨ i = .len8 ∨ i = .lenvis) :
    Reports i s (firstFault i s) (lengthCommand len s) := by
  rcases h with rfl | rfl | rfl <;>
    exact .readReg fun c hc => .skip rfl <| .requireCodepoint rfl hc <| .skip rfl <| .skip rfl <|
      .skip rfl <| .ends (by decide) (by simp)

end

/-- Every command makes its checks in the order of R157 and then ends, or overflows. -/
theorem exec_reports (i : Instr) (s : State) : Reports i s (firstFault i s) (exec i s) := by
  cases i with
  | dec16 =>
    exact .readReg fun src hsrc => .readReg fun n hn => .readReg fun p hp =>
      .requirePosition rfl hn hp <| .skip rfl <| .requireAdmitted16 hsrc hn rfl <| .skip rfl <|
      .skip rfl <| .finishDecode (by decide) _
  | dec8 =>
    exact .readReg fun src hsrc => .readReg fun n hn => .readReg fun p hp =>
      .requirePosition rfl hn hp <| .skip rfl <| .requireAdmitted8 hsrc hn rfl <| .skip rfl <|
      .skip rfl <| .finishDecode (by decide) _
  | enc16 =>
    exact .readReg fun c hc => .readReg fun dst hdst => .readReg fun cap hcap => .readReg fun _ _ =>
      .skip rfl <| .requireCodepoint rfl hc <| .skip rfl <| .requireAdmitted16 hdst hcap rfl <|
      .skip rfl <| .finishCount (by decide) _
  | enc8 =>
    exact .readReg fun c hc => .readReg fun dst hdst => .readReg fun cap hcap => .readReg fun _ _ =>
      .skip rfl <| .requireCodepoint rfl hc <| .skip rfl <| .requireAdmitted8 hdst hcap rfl <|
      .skip rfl <| .finishCount (by decide) _
  | encvis =>
    exact .readReg fun c hc => .readReg fun dst hdst => .readReg fun cap hcap => .readReg fun _ _ =>
      .skip rfl <| .requireCodepoint rfl hc <| .skip rfl <| .requireAdmitted8 hdst hcap rfl <|
      .skip rfl <| .finishCount (by decide) _
  | len16 => exact .lengthCommand utf16Len (by decide)
  | len8 => exact .lengthCommand utf8MinLen (by decide)
  | lenvis => exact .lengthCommand visLen (by decide)
  | fold =>
    exact .readReg fun src hsrc => .readReg fun n hn =>
      .skip rfl <| .skip rfl <| .requireAdmitted8 hsrc hn rfl <| .skip rfl <|
      .skip rfl <| .ends (by decide) (by simp)
  | cvt16to8 =>
    exact .readReg fun src hsrc => .readReg fun n hn => .readReg fun dst hdst =>
      .readReg fun cap hcap => .skip rfl <| .skip rfl <| .requireAdmitted16 hsrc hn rfl <|
      .requireAdmitted8 hdst hcap rfl <| .skip rfl <| .finishCount (by decide) _
  | cvt8to16 =>
    exact .readReg fun src hsrc => .readReg fun n hn => .readReg fun dst hdst =>
      .readReg fun cap hcap => .skip rfl <| .skip rfl <| .requireAdmitted8 hsrc hn rfl <|
      .requireAdmitted16 hdst hcap rfl <| .skip rfl <| .finishCount (by decide) _
  | cvt8tovis =>
    refine .readReg fun src hsrc => .readReg fun n hn => .readReg fun dst hdst =>
      .readReg fun cap hcap => .skip rfl <| .skip rfl <| .requireAdmitted8 hsrc hn rfl <|
      .requireAdmitted8 hdst hcap rfl <| .require ?_ <| .finishCount (by decide) _
    simp [buffersOverlap, State.value_of_get hsrc, State.value_of_get hn, State.value_of_get hdst,
      State.value_of_get hcap]
  | cvt16to8M =>
    refine .readReg fun src hsrc => .readReg fun n hn =>
      .skip rfl <| .skip rfl <| .requireAdmitted16 hsrc hn rfl <| .skip rfl <| .skip rfl ?_
    have htotal := convert16_measure_total utf8Bytes_length s src n
    have htoo := measuresTooMuch_iff hsrc hn
    rw [← htotal] at htoo
    refine ⟨fun _ h => (by cases h), fun _ h => finishMeasure_of_lt s (htoo.1 h), fun _ h => ?_⟩
    exact ⟨_, finishMeasure_of_le s (Nat.le_of_not_lt (mt htoo.2 h)), by simp⟩
  | cvt8to16M =>
    refine .readReg fun src hsrc => .readReg fun n hn =>
      .skip rfl <| .skip rfl <| .requireAdmitted8 hsrc hn rfl <| .skip rfl <| .skip rfl ?_
    have hle := (length_utf16_sourceText8_le s src n).trans (Nat.le_pred_of_lt n.isLt)
    rw [← convert8_measure_total utf16Units_length] at hle
    rw [finishMeasure_of_le s hle]
    exact .finishCount (by decide) _
  | cvt8tovisM =>
    exact .readReg fun src hsrc => .readReg fun n hn =>
      .skip rfl <| .skip rfl <| .requireAdmitted8 hsrc hn rfl <| .skip rfl <|
      .skip rfl <| .finishCount (by decide) _

/-- Settles O9: an illegal word is reported before anything is read, and a command reports what its
checks, made in the order of R157, name first. -/
theorem firstFaultInOrderIsReported : Obligations.FirstFaultInOrderIsReported := by
  refine ⟨fun v s hf hd => issue_of_illegal hf hd, fun i s => ?_⟩
  obtain ⟨hfault, hoverflow, hcompletes⟩ := exec_reports i s
  exact ⟨hfault, hoverflow, hcompletes⟩

end Sys2Proof.Machine
end

section
/-! Facts about reset during a command, about a busy engine, and about how often a command accesses
memory (70_reset_and_hazards.md), with the proofs of the statements of that chapter. -/

namespace Sys2Proof.Machine

/-! ## Reset during a command -/

/-- The step that takes a command cut short by reset cuts its issue short (R170). -/
theorem step_of_cmdCutByReset {s : State} {v : Word} {rest : List HostOp}
    (hs : s.script = .cmdCutByReset v :: rest) (hidle : s.status.busy = false) :
    step s = cutByReset v { s with script := rest } := by
  simp only [step, hs]
  exact hostStep_of_idle (s := { s with script := rest }) _ hidle

theorem cutByReset_of_issue {v : Word} {s whole : State} (h : issue v s = .next whole) :
    cutByReset v s = .next (resetDuring s whole) := by
  rw [cutByReset, h]

/-- Settles O16: the cut leaves the reset state, with each unit old or new. -/
theorem commandCutByResetLeavesOldOrNewUnits :
    Obligations.CommandCutByResetLeavesOldOrNewUnits := by
  intro s v rest hs hidle
  obtain ⟨whole, hwhole⟩ := issue_next v { s with script := rest }
  have hstep := (step_of_cmdCutByReset hs hidle).trans (cutByReset_of_issue hwhole)
  exact ⟨whole, _, hwhole, hstep, Status.word_zero, fun r => by cases r <;> rfl, rfl, rfl, rfl,
    Memory.read_cut _ s.m16 whole.m16, Memory.read_cut _ s.m8 whole.m8⟩

/-! ## A busy engine -/

theorem HostOp.allowedWhileBusy_iff (op : HostOp) :
    op.allowedWhileBusy = true ↔ op = .rd .status ∨ op = .reset := by
  cases op with
  | rd r => cases r <;> simp [HostOp.allowedWhileBusy]
  | reset => simp [HostOp.allowedWhileBusy]
  | wr | store16 | store8 | load16 | load8 | cmdCutByReset => simp [HostOp.allowedWhileBusy]

theorem hostStep_of_allowedWhileBusy {op : HostOp} (s : State) (h : op.allowedWhileBusy = true) :
    hostStep op s = op.perform s := by
  simp [hostStep, h]

theorem hostStep_of_busy {op : HostOp} {s : State} (hbusy : s.status.busy = true)
    (h : op.allowedWhileBusy = false) : hostStep op s = .refused .hostAccessWhileBusy := by
  simp [hostStep, hbusy, h]

/-- Settles O7: a read of STATUS and a reset are the two accesses allowed while BUSY = 1. -/
theorem busyEngineRefusesTheHost : Obligations.BusyEngineRefusesTheHost := by
  intro s op hbusy
  refine ⟨fun hstatus hreset => hostStep_of_busy hbusy ?_, hostStep_of_allowedWhileBusy s rfl,
    hostStep_of_allowedWhileBusy s rfl⟩
  rw [← Bool.not_eq_true, HostOp.allowedWhileBusy_iff]
  simp [hstatus, hreset]

/-! ## Commands that access no memory -/

/-- A command that R52 gives no space to write leaves both as they were, fault or not. -/
theorem exec_keeps_memory {i : Instr} (h16 : writesM16 i = false) (h8 : writesM8 i = false)
    (s : State) : ∃ t, exec i s = .next t ∧ t.m16 = s.m16 ∧ t.m8 = s.m8 := by
  rcases exec_cases i s with ⟨c, h⟩ | ⟨t, h, hfr⟩
  · exact ⟨_, h, rfl, rfl⟩
  · exact ⟨t, h, hfr.other16 h16, hfr.other8 h8⟩

/-- The same engine before other memory. -/
def State.onMemory (m16 : Memory 16) (m8 : Memory 8) (s : State) : State :=
  { s with m16 := m16, m8 := m8 }

/-- A length command reads CP and checks it, neither of which reads the memory. -/
theorem lengthCommand_onMemory (len : Word → Nat) (m16 : Memory 16) (m8 : Memory 8) (s : State) :
    lengthCommand len (s.onMemory m16 m8) =
      Result.mapNext (State.onMemory m16 m8) (lengthCommand len s) := by
  unfold lengthCommand
  rcases readReg_cases .cp s fun c => requireCodepoint c s (.next (s.set .cnt (toWord (len c)))) with
    ⟨c, hcp, e⟩ | ⟨hcp, e⟩ <;> rw [e]
  · rw [readReg_of_some (r := .cp) (s := s.onMemory m16 m8) _ hcp, requireCodepoint, requireCodepoint]
    cases decide (c.toNat ≤ maxCodepoint) <;> rfl
  · rw [readReg_of_none (r := .cp) (s := s.onMemory m16 m8) _ hcp]
    rfl

theorem exec_length_onMemory {i : Instr} (hi : i = .len16 ∨ i = .len8 ∨ i = .lenvis)
    (m16 : Memory 16) (m8 : Memory 8) (s : State) :
    exec i (s.onMemory m16 m8) = Result.mapNext (State.onMemory m16 m8) (exec i s) := by
  rcases hi with rfl | rfl | rfl <;> exact lengthCommand_onMemory _ m16 m8 s

/-- Settles O53: no decode or length command writes a space, a length command does the same before any
memory, and no encoder counts a read. -/
theorem noMemoryAccessWhereTheTableGivesZero :
    Obligations.NoMemoryAccessWhereTheTableGivesZero := by
  refine ⟨fun i s hi => ?_, fun i s hi => ?_, fun s dst cap i c => ?_⟩
  · rcases hi with rfl | rfl <;> exact exec_keeps_memory rfl rfl s
  · obtain ⟨t, hexec, hm16, hm8⟩ : ∃ t, exec i s = .next t ∧ t.m16 = s.m16 ∧ t.m8 = s.m8 := by
      rcases hi with rfl | rfl | rfl <;> exact exec_keeps_memory rfl rfl s
    refine ⟨t, hexec, hm16, hm8, fun m16 m8 => ?_⟩
    exact (exec_length_onMemory hi m16 m8 s).trans
      (congrArg (Result.mapNext (State.onMemory m16 m8)) hexec)
  · obtain ⟨h16, -⟩ := enc16At_counts dst cap c i s.startRun
    obtain ⟨h8, -⟩ := enc8At_counts dst cap c i s.startRun
    obtain ⟨hvis, -⟩ := encVisAt_counts s.params.encTable dst cap c i s.startRun
    exact ⟨h16, h8, hvis⟩

/-! ## The units one decode reads -/

theorem Utf16Outcome.units_le {rd : Nat → Unit16} {n p : Nat} {d : Decoded}
    (h : Utf16Outcome rd n p d) : d.units ≤ 2 := by
  cases h <;> dsimp only <;> omega

/-- The loop over the continuation bytes reads at most the `k` bytes still to come. -/
theorem utf8Continue_units_le (fp : FailPos) (rd : Nat → Byte) (n p len k j : Nat) (c : Word) :
    (utf8Continue fp rd n p len k j c).units ≤ j - p + 1 + k := by
  induction k generalizing j c with
  | zero =>
    rcases utf8Validate_cases fp p len j c with e | ⟨-, -, e⟩ <;> rw [utf8Continue, e]
  | succ k ih =>
    rw [utf8Continue]
    split_ifs
    · dsimp only; omega
    · dsimp only; omega
    · exact (ih _ _).trans (by omega)

/-- A decode reads the leading byte, and no more bytes than it announces. -/
theorem utf8Decode_units_le (fp : FailPos) (rd : Nat → Byte) (n p : Nat) :
    (utf8Decode fp rd n p).units ≤ 4 := by
  unfold utf8Decode
  split
  · dsimp only; omega
  · next len c hlead =>
    obtain ⟨-, hlen, -⟩ := leadClass_eq_some hlead
    exact (utf8Continue_units_le _ _ _ _ _ _ _ _).trans (by omega)

/-! ## The units a whole source costs

A decode that fails under LEAD goes back over the continuation bytes it has read, and each of these is
then read once more, as a bad leading byte. So the reads of a decode are charged to the bytes it
consumes and to the continuation bytes that come next. -/

/-- How many of the `k` bytes from `i` on are continuation bytes without a gap. -/
def continuationRun (rd : Nat → Byte) : Nat → Nat → Nat
  | 0, _ => 0
  | k + 1, i => if isCont (rd i) then continuationRun rd k (i + 1) + 1 else 0

theorem continuationRun_le (rd : Nat → Byte) (k i : Nat) : continuationRun rd k i ≤ k := by
  induction k generalizing i with
  | zero => exact le_rfl
  | succ k ih =>
    rw [continuationRun]
    split
    · exact Nat.succ_le_succ (ih _)
    · exact Nat.zero_le _

theorem continuationRun_le_succ (rd : Nat → Byte) (k i : Nat) :
    continuationRun rd (k + 1) i ≤ continuationRun rd k (i + 1) + 1 := by
  rw [continuationRun]
  split
  · exact le_rfl
  · exact Nat.zero_le _

theorem continuationRun_of_not_isCont {rd : Nat → Byte} {i : Nat} (h : isCont (rd i) = false)
    (k : Nat) : continuationRun rd k i = 0 := by
  cases k with
  | zero => rfl
  | succ k => rw [continuationRun, h, if_neg Bool.false_ne_true]

/-- Continuation bytes that come next are in the run. -/
theorem le_continuationRun {rd : Nat → Byte} {k i m : Nat} (hm : m ≤ k)
    (h : ∀ j < m, isCont (rd (i + j)) = true) : m ≤ continuationRun rd k i := by
  induction m generalizing k i with
  | zero => exact Nat.zero_le _
  | succ m ih =>
    obtain ⟨k, rfl⟩ : ∃ l, k = l + 1 := ⟨k - 1, by omega⟩
    have hfirst : isCont (rd i) = true := h 0 (Nat.succ_pos m)
    have hrest : m ≤ continuationRun rd k (i + 1) := ih (by omega) fun j hj => by
      rw [Nat.add_right_comm, Nat.add_assoc]
      exact h (j + 1) (by omega)
    rw [continuationRun, if_pos hfirst]
    omega

/-- What has been charged before index `i` at most: two reads for each byte below `i`, and one for each
continuation byte that comes next. -/
def readsCharged (rd : Nat → Byte) (n i : Nat) : Nat := 2 * i + continuationRun rd (n - i) i

theorem readsCharged_le (rd : Nat → Byte) {n i : Nat} (hi : i ≤ n) :
    readsCharged rd n i ≤ 2 * n := by
  have := continuationRun_le rd (n - i) i
  unfold readsCharged
  omega

/-- A byte that leads is no continuation byte (41_utf8_decoder.md R70, R71). -/
theorem isCont_eq_false_of_leadClass {b : Byte} {len : Nat} {c : Word}
    (h : leadClass b = some (len, c)) : isCont b = false := by
  rw [← Bool.not_eq_true, isCont_iff]
  rcases leadClass_cases b with ⟨hb, -⟩ | ⟨hb, -⟩ | ⟨hb, -⟩ | ⟨hb, -⟩ | ⟨-, e⟩
  · omega
  · omega
  · omega
  · omega
  · rw [e] at h
    cases h

section
variable {rd : Nat → Byte} {n p len m u : Nat} {v : Word}

/-- A walk starts at no continuation byte, so nothing has been charged in advance for it. -/
theorem Utf8Walk.readsCharged_eq (h : Utf8Walk rd n p len m v) : readsCharged rd n p = 2 * p := by
  obtain ⟨c, hlead⟩ := h.exists_leadClass
  rw [readsCharged, continuationRun_of_not_isCont (isCont_eq_false_of_leadClass hlead), Nat.add_zero]

/-- The reads of a failed decode are charged, whichever of the bytes it accepted is the last it
consumes. -/
theorem Utf8Failure.units_add_readsCharged_le (h : Utf8Failure rd n p m u) {q : Nat} (hq : p ≤ q)
    (hq' : q ≤ p + m) : u + readsCharged rd n p ≤ readsCharged rd n (q + 1) := by
  obtain ⟨-, hend, -⟩ := h.bounds
  have hrun : p + m - q ≤ continuationRun rd (n - (q + 1)) (q + 1) :=
    le_continuationRun (by omega) fun j hj => by
      rw [show q + 1 + j = p + (q + 1 + j - p) by omega]
      exact h.isCont_of_le (by omega) (by omega)
  have hwalk {len v} (hw : Utf8Walk rd n p len m v) (hu : u ≤ m + 2) :
      u + readsCharged rd n p ≤ readsCharged rd n (q + 1) := by
    rw [hw.readsCharged_eq, readsCharged]
    omega
  cases h with
  | badLead hlead hp =>
    obtain rfl : q = p := by omega
    have hle := continuationRun_le_succ rd (n - (q + 1)) q
    rw [show n - (q + 1) + 1 = n - q by omega] at hle
    unfold readsCharged
    omega
  | truncated hw hm hend => exact hwalk hw (by omega)
  | interrupted hw hm hlt hcont => exact hwalk hw le_rfl
  | rejected hw hv => exact hwalk hw (by omega)

theorem Utf8Accepts.units_add_readsCharged_le (h : Utf8Accepts rd n p v) :
    utf8MinLen v + readsCharged rd n p ≤ readsCharged rd n (p + utf8MinLen v) := by
  rw [h.walk.readsCharged_eq, readsCharged]
  omega

end

/-- The reads of a UTF-8 decode are charged, under either setting of `P_UTF8_FAIL_POS`. -/
theorem utf8Decode_units_add_readsCharged_le (fp : FailPos) (rd : Nat → Byte) {n p : Nat}
    (hp : p < n) : (utf8Decode fp rd n p).units + readsCharged rd n p ≤
      readsCharged rd n ((utf8Decode fp rd n p).last + 1) := by
  rcases utf8Failure_or_accepts rd hp with ⟨m, u, h⟩ | ⟨v, h⟩ <;> rw [h.decode_eq]
  · obtain ⟨hle, hle'⟩ := failPosition_bounds fp p m
    exact h.units_add_readsCharged_le hle hle'
  · have hpos := utf8MinLen_pos v
    dsimp only
    rw [show p + utf8MinLen v - 1 + 1 = p + utf8MinLen v by omega]
    exact h.units_add_readsCharged_le

theorem Utf16Outcome.units_add_le {rd : Nat → Unit16} {n p : Nat} {d : Decoded}
    (h : Utf16Outcome rd n p d) : d.units + 2 * p ≤ 2 * (d.last + 1) := by
  cases h <;> dsimp only <;> omega

/-- Where every decode's reads are covered by what its index adds to the charge, so are the reads of the
rest of the source. -/
theorem sum_units_decodedFrom_le {dec : Nat → Decoded} {n b : Nat} {charged : Nat → Nat}
    (hbound : ∀ i ≤ n, charged i ≤ b) (hlast : ∀ i < n, (dec i).last < n)
    (hunits : ∀ i < n, (dec i).units + charged i ≤ charged ((dec i).last + 1))
    (fuel i : Nat) (hi : i ≤ n) :
    ((decodedFrom dec n fuel i).map (·.units)).sum + charged i ≤ b := by
  induction fuel generalizing i with
  | zero => simpa [decodedFrom] using hbound i hi
  | succ fuel ih =>
    rw [decodedFrom]
    split
    · next hlt =>
      have hone := hunits i hlt
      have hrest := ih ((dec i).last + 1) (hlast i hlt)
      rw [List.map_cons, List.sum_cons]
      omega
    · simpa using hbound i hi

/-- A whole UTF-16 source of `n` units costs at most `2n` reads (R181). -/
theorem sum_units_utf16_le (rd : Nat → Unit16) (n : Nat) :
    ((decodedFrom (utf16Decode rd n) n n 0).map (·.units)).sum ≤ 2 * n :=
  le_of_add_le_left <| sum_units_decodedFrom_le (charged := (2 * ·))
    (fun _ hi => Nat.mul_le_mul_left 2 hi)
    (fun _ hi => ((utf16Decode_outcome rd n _).last_bounds hi).2)
    (fun _ _ => (utf16Decode_outcome rd n _).units_add_le) n 0 (Nat.zero_le n)

/-- A whole UTF-8 source of `n` bytes costs at most `2n` reads (R181). -/
theorem sum_units_utf8_le (fp : FailPos) (rd : Nat → Byte) (n : Nat) :
    ((decodedFrom (utf8Decode fp rd n) n n 0).map (·.units)).sum ≤ 2 * n :=
  le_of_add_le_left <| sum_units_decodedFrom_le (charged := readsCharged rd n)
    (fun _ => readsCharged_le rd)
    (fun _ hi => (utf8Decode_inside fp rd hi).last_lt)
    (fun _ hi => utf8Decode_units_add_readsCharged_le fp rd hi) n 0 (Nat.zero_le n)

/-! ## The accesses of FOLD and of the conversions -/

theorem foldAt_counts (tab : CaseTable) (a : Nat) (r : Run) :
    (foldAt tab a r).reads = r.reads + 1 ∧ (foldAt tab a r).writes ≤ r.writes + 1 := by
  unfold foldAt
  split <;> simp

theorem foldPass_counts (tab : CaseTable) (k a : Nat) (r : Run) :
    (foldPass tab k a r).reads = r.reads + k ∧ (foldPass tab k a r).writes ≤ r.writes + k := by
  induction k generalizing a r with
  | zero => exact ⟨rfl, le_rfl⟩
  | succ k ih =>
    obtain ⟨hreads, hwrites⟩ := foldAt_counts tab a r
    obtain ⟨hreads', hwrites'⟩ := ih (a + 1) (foldAt tab a r)
    rw [foldPass]
    omega

/-- An encoder reads nothing itself and writes at most the units of each codepoint, so emitting a text
reads what decoding it read, and writes at most its whole output. -/
theorem emitAll_counts {α : Type} {emit : Word → Nat → Run → Run × Nat} {len : Word → Nat}
    {units : Word → List α} (hlen : ∀ c, (units c).length = len c)
    (hemit : ∀ c t r, (emit c t r).1.reads = r.reads ∧ (emit c t r).1.writes ≤ r.writes + len c)
    (ds : List Decoded) (s : State) :
    (emitAll emit ds 0 s.startRun).1.reads = (ds.map (·.units)).sum ∧
    (emitAll emit ds 0 s.startRun).1.writes ≤ (fullOutput units (ds.map (·.cp))).length := by
  have hreads := emitAll_reads (fun c t r => (hemit c t r).1) ds 0 s.startRun
  have hwrites := emitAll_writes (fun c t r => (hemit c t r).2) ds 0 s.startRun
  rw [State.startRun_reads, Nat.zero_add] at hreads
  rw [State.startRun_writes, Nat.zero_add, sum_len_eq_fullOutput hlen] at hwrites
  exact ⟨hreads, hwrites⟩

/-- The measuring loop writes no unit (46_conversions.md R130, M = 1). -/
theorem convert_measure_writes (dec : Run → Nat → Decoded) (len : Word → Nat) (n : Nat) (r : Run) :
    (convert dec (measureOnly len) n r).1.writes = r.writes :=
  convertFrom_keeps (P := fun q => q.writes = r.writes) (fun _ _ h => h) (fun _ _ _ h => h)
    n 0 0 r rfl

theorem emitAll_measure_reads (len : Word → Nat) (ds : List Decoded) (s : State) :
    (emitAll (measureOnly len) ds 0 s.startRun).1.reads = (ds.map (·.units)).sum := by
  rw [emitAll_reads (fun _ _ _ => rfl), State.startRun_reads, Nat.zero_add]

section
variable (s : State) (src n dst cap : Word)

/-- CVT16TO8's loop, whose writes R141 bounds by three bytes a unit. -/
theorem cvt16to8_counts {r : Run}
    (hr : r = (convert (decodeSource16 src n) (enc8At dst.toNat cap.toNat) n.toNat s.startRun).1) :
    r.reads ≤ 2 * n.toNat ∧ r.writes ≤ 3 * n.toNat := by
  rw [convert16_write] at hr
  obtain ⟨hreads, hwrites⟩ := emitAll_counts utf8Bytes_length (enc8At_counts dst.toNat cap.toNat)
    (decodedFrom (utf16Decode (source16 s.m16 src) n.toNat) n.toNat n.toNat 0) s
  rw [hr]
  exact ⟨hreads.trans_le (sum_units_utf16_le _ _),
    hwrites.trans (length_utf8_sourceText16_le s src n)⟩

/-- CVT8TO16's loop, whose writes R141 bounds by one unit a byte. -/
theorem cvt8to16_counts {r : Run} (hr : r = (convert (decodeSource8 s.params.failPos src n)
      (enc16At dst.toNat cap.toNat) n.toNat s.startRun).1) :
    r.reads ≤ 2 * n.toNat ∧ r.writes ≤ n.toNat := by
  rw [convert8_write] at hr
  obtain ⟨hreads, hwrites⟩ := emitAll_counts utf16Units_length (enc16At_counts dst.toNat cap.toNat)
    (decodedFrom (utf8Decode s.params.failPos (source8 s.m8 src) n.toNat) n.toNat n.toNat 0) s
  rw [hr]
  exact ⟨hreads.trans_le (sum_units_utf8_le _ _ _),
    hwrites.trans (length_utf16_sourceText8_le s src n)⟩

/-- CVT8TOVIS's loop, which no write of its own lets read another text (46_conversions.md R140). -/
theorem cvt8tovis_counts (hover : overlap src.toNat n.toNat dst.toNat cap.toNat = false) {r : Run}
    (hr : r = (convert (decodeSource8 s.params.failPos src n)
      (encVisAt s.params.encTable dst.toNat cap.toNat) n.toNat s.startRun).1) :
    r.reads ≤ 2 * n.toNat ∧ r.writes ≤ n.toNat := by
  rw [convert8_writeVis _ _ _ _ _ _ _ fun x => outside_of_overlap_eq_false hover] at hr
  obtain ⟨hreads, hwrites⟩ := emitAll_counts (visUnits_length s.params.encTable)
    (encVisAt_counts s.params.encTable dst.toNat cap.toNat)
    (decodedFrom (utf8Decode s.params.failPos (source8 s.m8 src) n.toNat) n.toNat n.toNat 0) s
  rw [hr]
  exact ⟨hreads.trans_le (sum_units_utf8_le _ _ _),
    hwrites.trans (length_vis_sourceText8_le _ s src n)⟩

theorem convert16_measure_counts (len : Word → Nat) {r : Run}
    (hr : r = (convert (decodeSource16 src n) (measureOnly len) n.toNat s.startRun).1) :
    r.reads ≤ 2 * n.toNat ∧ r.writes = 0 := by
  refine ⟨?_, hr ▸ convert_measure_writes _ _ _ _⟩
  rw [hr, convert16_measure, emitAll_measure_reads]
  exact sum_units_utf16_le _ _

theorem convert8_measure_counts (len : Word → Nat) {r : Run}
    (hr : r = (convert (decodeSource8 s.params.failPos src n) (measureOnly len) n.toNat
      s.startRun).1) : r.reads ≤ 2 * n.toNat ∧ r.writes = 0 := by
  refine ⟨?_, hr ▸ convert_measure_writes _ _ _ _⟩
  rw [hr, convert8_measure, emitAll_measure_reads]
  exact sum_units_utf8_le _ _ _

end

/-- Settles O52: a decode reads at most what its walk can, an encoder writes one codepoint, FOLD takes
each byte once, and a conversion reads its source at most twice and writes at most its whole output. -/
theorem memoryAccessesAreBounded : Obligations.MemoryAccessesAreBounded := by
  intro s src n dst cap c i
  obtain ⟨-, henc16⟩ := enc16At_counts dst.toNat cap.toNat c i.toNat s.startRun
  obtain ⟨-, henc8⟩ := enc8At_counts dst.toNat cap.toNat c i.toNat s.startRun
  obtain ⟨-, hencvis⟩ :=
    encVisAt_counts s.params.encTable dst.toNat cap.toNat c i.toNat s.startRun
  obtain ⟨hfoldReads, hfoldWrites⟩ :=
    foldPass_counts s.params.caseTable n.toNat src.toNat s.startRun
  have hlen16 := utf16Len_le c
  have hlen8 := utf8MinLen_le c
  simp only [State.startRun_reads, State.startRun_writes, Nat.zero_add]
    at henc16 henc8 hencvis hfoldReads hfoldWrites
  exact ⟨fun rd p => (utf16Decode_outcome rd _ p).units_le,
    fun fp rd p => utf8Decode_units_le fp rd _ p,
    henc16.trans hlen16, henc8.trans hlen8, hencvis, hfoldReads.le, hfoldWrites,
    fun _ => cvt16to8_counts s src n dst cap, fun _ => convert16_measure_counts s src n _,
    fun _ => cvt8to16_counts s src n dst cap, fun _ => convert8_measure_counts s src n _,
    fun hover _ => cvt8tovis_counts s src n dst cap hover,
    fun _ => convert8_measure_counts s src n _⟩

end Sys2Proof.Machine
end
